-- ==== Sys2Proof/Word.lean ====
section
/-! DEFINITION. The word types of the HCE (00_scope.md R6) and the names of its four byte buffers
(20_memory.md R40). -/

namespace Sys2Proof

/-- A byte: 8 bits (R6). -/
abbrev Byte := BitVec 8

/-- A 16-bit quantity, the spec's `u16` (R6). -/
abbrev Half := BitVec 16

/-- A 32-bit quantity, the spec's `u32` (R6). -/
abbrev Word := BitVec 32

/-- The four byte buffers (20_memory.md R40). -/
inductive Buf where
  /-- `PKT`: a packet in wire format. -/
  | pkt
  /-- `PAY`: staging for an outbound payload. -/
  | pay
  /-- `PHDR`: the pseudo-header built by `TCP.PSH`. -/
  | phdr
  /-- `STR`: the flag-name string built by `TCP.FSTR`. -/
  | str
deriving DecidableEq, Repr

end Sys2Proof
end

