-- ==== Sys2Proof/Syntax.lean ====
section
/-! DEFINITION. The command set: one constructor per row of spec/opcode_table.json (30_encoding.md R62).
A command carries a buffer exactly where rule R63 permits all four values of `BSEL`. The commands that permit
one value only carry none, so a command with a `BSEL` that is not permitted cannot be written as an `Instr`. -/

namespace Sys2Proof

/-- The 17 commands of the HCE command set, version 1 (30_encoding.md R62, R63). -/
inductive Instr where
  /-- `CSUM.ACC`: accumulate a region into `ACC` (40_checksum.md R100). -/
  | csumAcc (b : Buf)
  /-- `CSUM.FIN`: accumulate a last region and finish (40_checksum.md R101). -/
  | csumFin (b : Buf)
  /-- `IP.ENC`: serialise the IP field registers (41_ip_codec.md R123). -/
  | ipEnc (b : Buf)
  /-- `IP.DEC`: parse an IP header (41_ip_codec.md R124). -/
  | ipDec (b : Buf)
  /-- `IP.CSUM`: compute the header checksum (41_ip_codec.md R126). -/
  | ipCsum
  /-- `IP.VFY`: validate an IP header's checksum (41_ip_codec.md R127). -/
  | ipVfy (b : Buf)
  /-- `TCP.ENC`: serialise the TCP field registers (42_tcp_codec.md R143). -/
  | tcpEnc (b : Buf)
  /-- `TCP.DEC`: parse a TCP header (42_tcp_codec.md R144). -/
  | tcpDec (b : Buf)
  /-- `TCP.PSH`: build the pseudo-header (42_tcp_codec.md R150). -/
  | tcpPsh
  /-- `TCP.CSUM`: compute the TCP checksum (42_tcp_codec.md R152). -/
  | tcpCsum (b : Buf)
  /-- `TCP.VFY`: validate a TCP segment's checksum (42_tcp_codec.md R153). -/
  | tcpVfy (b : Buf)
  /-- `TCP.FSTR`: write the flag-name string (42_tcp_codec.md R156). -/
  | tcpFstr
  /-- `ASM.IP`: assemble an IP packet; its payload lies in `PAY` (43_packet.md R172). -/
  | asmIp
  /-- `ASM.TCP`: assemble a TCP segment in an IP packet; its payload lies in `PAY` (43_packet.md R174). -/
  | asmTcp
  /-- `DISASM`: take apart a received buffer (43_packet.md R176). -/
  | disasm (b : Buf)
  /-- `NOP` (44_system.md R190). -/
  | nop
  /-- `RST`: soft reset (44_system.md R192). -/
  | rst
deriving DecidableEq, Repr

end Sys2Proof
end

