-- ==== Sys2Proof/WellFormed.lean ====
section
/-! DEFINITION. Which 16-bit command words the HCE accepts, written from 30_encoding.md R61 to R65 on the word as
a number and apart from the decoder, so that the two can be compared. Every term of `Instr` is well formed by
construction (R63 stands in its type), so the checks are checks of words. -/

namespace Sys2Proof

/-- `OPC`, bits 7:0 of the command word (R61), as a number. -/
def wordOpc (w : Half) : Nat := w.toNat % 0x100

/-- `BSEL`, bits 9:8 of the command word (R61), as a number. -/
def wordBsel (w : Half) : Nat := w.toNat / 0x100 % 4

/-- `RSV`, bits 15:10 of the command word (R61), as a number. -/
def wordRsv (w : Half) : Nat := w.toNat / 0x400

/-- The runs of unassigned opcodes that R65 lists, first and last value of each. -/
def unassignedOpcodes : List (Nat × Nat) :=
  [(0x03, 0x0F), (0x14, 0x1F), (0x26, 0x2F), (0x33, 0x3E), (0x40, 0xFF)]

/-- The opcode lies in none of the unassigned runs (R62, R65). -/
def opcAssigned (opc : Nat) : Bool :=
  unassignedOpcodes.all fun r => decide (opc < r.1) || decide (r.2 < opc)

/-- R63: the assembler opcodes permit `BSEL` 1 only, the opcodes with no region permit 0 only, every other
assigned opcode permits all four. -/
def bselPermitted (opc bsel : Nat) : Bool :=
  if opc = 0x30 ∨ opc = 0x31 then decide (bsel = 1)
  else if opc = 0x00 ∨ opc = 0x12 ∨ opc = 0x22 ∨ opc = 0x25 ∨ opc = 0x3F then decide (bsel = 0)
  else true

/-- A command word that rules R61 to R63 accept. -/
def wordWellFormed (w : Half) : Bool :=
  opcAssigned (wordOpc w) && decide (wordRsv w = 0) && bselPermitted (wordOpc w) (wordBsel w)

end Sys2Proof
end

