-- ==== Sys2Proof/Decode.lean ====
section
/-! DEFINITION. The decoder of command words, total on all 65536 of them (30_encoding.md R61 to R65), and the
encoder written from the same table (R62, R63). -/

namespace Sys2Proof

/-- Why a command word does not decode (R65). Raised by `decode`; the machine answers with the rejection
`IllegalCommand`, an ordinary next state (safe). -/
inductive DecodeError where
  /-- `OPC` is unassigned: cause 0x41. -/
  | opcodeReserved
  /-- Reserved bits are not 0, or `BSEL` is not permitted: cause 0x42. -/
  | fieldReserved
deriving DecidableEq, Repr

/-- The buffer a `BSEL` code selects (R61). -/
def Buf.ofCode (c : BitVec 2) : Buf :=
  match c with
  | 0#2 => .pkt
  | 1#2 => .pay
  | 2#2 => .phdr
  | _ => .str

/-- The `BSEL` code of a buffer (R61). -/
def Buf.code : Buf → BitVec 2
  | .pkt => 0
  | .pay => 1
  | .phdr => 2
  | .str => 3

/-- The classes of R63 as far as the decoder needs them: what the opcode says, before `BSEL` is looked at. -/
inductive Form where
  /-- Every `BSEL` is permitted and selects the region's buffer. -/
  | region (mk : Buf → Instr)
  /-- `BSEL` 1 only. -/
  | payOnly (i : Instr)
  /-- `BSEL` 0 only. -/
  | noRegion (i : Instr)

/-- The opcode map (R62); an opcode it does not list is unassigned (R65). -/
def formOf (opc : Byte) : Option Form :=
  match opc with
  | 0x00#8 => some (.noRegion .nop)
  | 0x01#8 => some (.region .csumAcc)
  | 0x02#8 => some (.region .csumFin)
  | 0x10#8 => some (.region .ipEnc)
  | 0x11#8 => some (.region .ipDec)
  | 0x12#8 => some (.noRegion .ipCsum)
  | 0x13#8 => some (.region .ipVfy)
  | 0x20#8 => some (.region .tcpEnc)
  | 0x21#8 => some (.region .tcpDec)
  | 0x22#8 => some (.noRegion .tcpPsh)
  | 0x23#8 => some (.region .tcpCsum)
  | 0x24#8 => some (.region .tcpVfy)
  | 0x25#8 => some (.noRegion .tcpFstr)
  | 0x30#8 => some (.payOnly .asmIp)
  | 0x31#8 => some (.payOnly .asmTcp)
  | 0x32#8 => some (.region .disasm)
  | 0x3F#8 => some (.noRegion .rst)
  | _ => none

/-- `BSEL` against the opcode's class (R63). -/
def Form.select (f : Form) (bsel : BitVec 2) : Except DecodeError Instr :=
  match f with
  | .region mk => .ok (mk (Buf.ofCode bsel))
  | .payOnly i => if bsel = 1 then .ok i else .error .fieldReserved
  | .noRegion i => if bsel = 0 then .ok i else .error .fieldReserved

/-- The decoder, with the check order of R65: `OPC` assigned, then `RSV` = 0, then `BSEL` permitted. -/
def decode (w : Half) : Except DecodeError Instr :=
  match formOf (w.extractLsb' 0 8) with
  | none => .error .opcodeReserved
  | some f =>
    if w.extractLsb' 10 6 = 0 then f.select (w.extractLsb' 8 2) else .error .fieldReserved

/-- A command word with `RSV` = 0 (R61). -/
def commandWord (bsel : BitVec 2) (opc : Byte) : Half := (0#6 ++ bsel) ++ opc

/-- The encoder: the one word of a command (R61 to R63). -/
def encode : Instr → Half
  | .csumAcc b => commandWord b.code 0x01
  | .csumFin b => commandWord b.code 0x02
  | .ipEnc b => commandWord b.code 0x10
  | .ipDec b => commandWord b.code 0x11
  | .ipCsum => commandWord 0 0x12
  | .ipVfy b => commandWord b.code 0x13
  | .tcpEnc b => commandWord b.code 0x20
  | .tcpDec b => commandWord b.code 0x21
  | .tcpPsh => commandWord 0 0x22
  | .tcpCsum b => commandWord b.code 0x23
  | .tcpVfy b => commandWord b.code 0x24
  | .tcpFstr => commandWord 0 0x25
  | .asmIp => commandWord 1 0x30
  | .asmTcp => commandWord 1 0x31
  | .disasm b => commandWord b.code 0x32
  | .nop => commandWord 0 0x00
  | .rst => commandWord 0 0x3F

/-- The command the decoder reads from the low `nbits` bits of `w`, numbered as spec/opcode_table.json numbers
them; a command is one 16-bit word, so bits above 15 are not part of it (R60, R66). -/
def decodeTableWord (nbits w : Nat) : Option Instr :=
  match decode (BitVec.ofNat 16 (w % 2 ^ nbits)) with
  | .ok i => some i
  | .error _ => none

end Sys2Proof
end

