-- ==== Sys2Proof/Config.lean ====
section
/-! DEFINITION. What is fixed for one instance (00_scope.md R5): the OPEN parameters, which the model takes as an
argument within the stated constraints, the fixed sizes, and the free value of a buffer byte that nothing has
written since hardware reset. -/

namespace Sys2Proof

/-- The OPEN parameters of R5. They are fixed for the life of an instance (10_state.md R10). -/
structure Params where
  /-- `MAX_UNIT`: the largest IP total length the assemblers will emit. -/
  maxUnit : Nat
  /-- `PKT_SIZE`: size of buffer `PKT` in bytes. -/
  pktSize : Nat
  /-- `PAY_SIZE`: size of buffer `PAY` in bytes. -/
  paySize : Nat
  /-- `PROTO_TCP`: the IP protocol number that indicates TCP. -/
  protoTcp : Byte
deriving DecidableEq, Repr

/-- The constraints R5 puts on the parameters. `PROTO_TCP` may be any byte. -/
abbrev Params.Ok (p : Params) : Prop :=
  1400 ≤ p.maxUnit ∧ p.maxUnit ≤ 1500 ∧
  p.maxUnit ≤ p.pktSize ∧ p.pktSize ≤ 65535 ∧
  p.maxUnit - 20 ≤ p.paySize ∧ p.paySize ≤ 65535

/-- The parameters `State.reset` carries: the sizes R5 suggests, `PROTO_TCP` at R5's default 6 and `MAX_UNIT` at
the value 95_test_vectors.md takes. DESIGN CHOICE, log entry 2: unsafe for a claim that rests on these numbers, so
no statement does. -/
def Params.suggested : Params := { maxUnit := 1500, pktSize := 2048, paySize := 2048, protoTcp := 6 }

/-- `PHDR_SIZE` (R5). -/
def Config.phdrSize : Nat := 12

/-- `STR_SIZE` (R5). -/
def Config.strSize : Nat := 24

/-- FREE VALUE (10_state.md R30, 93_implementation_defined.md U1, U2): what a byte of a buffer that nothing has written
since the latest hardware reset reads as. Its arguments are the number of hardware resets before that one, the
buffer and the offset, so it is stable storage, drawn afresh at every reset. Nothing in Lean can evaluate it
(log entry 3; safe). -/
opaque Config.unspecified : Nat → Buf → Nat → Byte

end Sys2Proof
end

