-- ==== Sys2Proof/Machine/State.lean ====
section
/-! DEFINITION. The state of one HCE instance as plain data (10_state.md R10), the host's steps (00_scope.md R8,
20_memory.md R46 to R49), the causes of a rejection (60_exceptions.md R203) and the state after hardware reset
(10_state.md R30). -/

namespace Sys2Proof.Machine

/-- A buffer's written bytes: (offset, byte) cells with strictly rising offsets (`Memory.wf`). An offset that is
not listed holds no byte written since hardware reset. -/
abbrev Memory := List Host.Cell

/-- The four buffers (10_state.md R27, 20_memory.md R40). -/
structure Buffers where
  /-- `PKT`, `PKT_SIZE` bytes. -/
  pkt : Memory
  /-- `PAY`, `PAY_SIZE` bytes. -/
  pay : Memory
  /-- `PHDR`, 12 bytes. -/
  phdr : Memory
  /-- `STR`, 24 bytes. -/
  str : Memory
deriving DecidableEq, Repr

/-- The ten IP field registers other than `IP_CSUM` (10_state.md R12); also the record `h` of 41_ip_codec.md R120. -/
structure IpHeader where
  /-- `IP_VER`, RN 0x10. -/
  ver : BitVec 4
  /-- `IP_IHL`, RN 0x11. -/
  ihl : BitVec 4
  /-- `IP_TOS`, RN 0x12. -/
  tos : BitVec 8
  /-- `IP_TLEN`, RN 0x13. -/
  tlen : BitVec 16
  /-- `IP_ID`, RN 0x14. -/
  ident : BitVec 16
  /-- `IP_FRAG`, RN 0x15. -/
  frag : BitVec 16
  /-- `IP_TTL`, RN 0x16. -/
  ttl : BitVec 8
  /-- `IP_PROTO`, RN 0x17. -/
  proto : BitVec 8
  /-- `IP_SRC`, RN 0x19; the first wire byte is bits 31:24. -/
  src : BitVec 32
  /-- `IP_DST`, RN 0x1A; the first wire byte is bits 31:24. -/
  dst : BitVec 32
deriving DecidableEq, Repr

/-- The nine TCP field registers other than `TCP_CSUM` (10_state.md R14); also the record `t` of 42_tcp_codec.md R140. -/
structure TcpHeader where
  /-- `TCP_SPORT`, RN 0x20. -/
  sport : BitVec 16
  /-- `TCP_DPORT`, RN 0x21. -/
  dport : BitVec 16
  /-- `TCP_SEQ`, RN 0x22. -/
  seq : BitVec 32
  /-- `TCP_ACK`, RN 0x23. -/
  ack : BitVec 32
  /-- `TCP_DOFF`, RN 0x24. -/
  doff : BitVec 4
  /-- `TCP_RSVD`, RN 0x25. -/
  rsvd : BitVec 4
  /-- `TCP_FLAGS`, RN 0x26: FIN 0, SYN 1, RST 2, PSH 3, ACK 4, URG 5; bits 7:6 have no name. -/
  flags : BitVec 8
  /-- `TCP_WIN`, RN 0x27. -/
  win : BitVec 16
  /-- `TCP_URG`, RN 0x29. -/
  urg : BitVec 16
deriving DecidableEq, Repr

/-- What the host, or the reset input, does to the block (R8, R46 to R49; 70_reset_and_hazards.md R230). -/
inductive HostStep where
  /-- `HostRegWrite(rn, v)` (R47). -/
  | regWrite (rn : BitVec 8) (v : BitVec 32)
  /-- `HostRegRead(rn)` (R46). -/
  | regRead (rn : BitVec 8)
  /-- `HostBufWrite(b, off, bs)` (R48). -/
  | bufWrite (b : Buf) (off : BitVec 16) (bs : List Byte)
  /-- `HostBufRead(b, off, n)` (R49). -/
  | bufRead (b : Buf) (off : BitVec 16) (n : Nat)
  /-- Hardware reset is applied (R230). -/
  | hardReset
deriving DecidableEq, Repr

/-- The causes of a rejection, one closed enumeration (60_exceptions.md R203). -/
inductive Cause where
  /-- 0x01 `IP_SHORT`. -/
  | ipShort
  /-- 0x02 `IP_VERSION`. -/
  | ipVersion
  /-- 0x03 `IP_IHL_MIN`. -/
  | ipIhlMin
  /-- 0x04 `IP_IHL_BUF`. -/
  | ipIhlBuf
  /-- 0x05 `IP_TLEN_MIN`. -/
  | ipTlenMin
  /-- 0x06 `IP_TLEN_BUF`. -/
  | ipTlenBuf
  /-- 0x11 `TCP_SHORT`. -/
  | tcpShort
  /-- 0x13 `TCP_DOFF_MIN`. -/
  | tcpDoffMin
  /-- 0x14 `TCP_DOFF_BUF`. -/
  | tcpDoffBuf
  /-- 0x21 `LEN_OVERFLOW`. -/
  | lenOverflow
  /-- 0x31 `REGION_RANGE`. -/
  | regionRange
  /-- 0x41 `OPCODE_RESERVED`. -/
  | opcodeReserved
  /-- 0x42 `FIELD_RESERVED`. -/
  | fieldReserved
deriving DecidableEq, Repr

/-- Why the machine stops with a fault. The block has no faults: "A faulted or stuck state does not exist in this
block" (70_reset_and_hazards.md R241), so nothing raises one and there is no constructor. -/
inductive Fault
deriving DecidableEq, Repr

/-- Why an instruction has no meaning. -/
inductive Refusal where
  /-- The instruction has no meaning in the model yet. Raised by an arm of `exec` only; no arm does any more. Safe. -/
  | notModelled (mnemonic : String)
deriving DecidableEq, Repr

/-- The state of one instance (10_state.md R10). The fields from `par` on are the model's own. -/
structure State where
  /-- `CMD`, RN 0x00, WT (R24). -/
  cmd : BitVec 16
  /-- `STATUS`, RN 0x01, RO (R19): CODE 3:0, CAUSE 11:4, MISMATCH 12. -/
  status : BitVec 13
  /-- `CFG`, RN 0x02, RW (R25): bit 0 is VMODE. -/
  cfg : BitVec 1
  /-- `OFF`, RN 0x03, RW (R16). -/
  off : BitVec 16
  /-- `LEN`, RN 0x04, RW (R16). -/
  len : BitVec 16
  /-- `ACC`, RN 0x05, RW (R20): the pre-complement running sum. -/
  acc : BitVec 16
  /-- `RESULT`, RN 0x06, RO (R17). -/
  result : BitVec 16
  /-- `VALID`, RN 0x07, RO (R18): IP_OK 0, TCP_OK 1, TCP_PRESENT 2. -/
  valid : BitVec 3
  /-- `NEXT_OFF`, RN 0x08, RO (R21). -/
  nextOff : BitVec 16
  /-- `SL_OFF`, RN 0x09, RO (R22). -/
  slOff : BitVec 16
  /-- `SL_LEN`, RN 0x0A, RO (R22). -/
  slLen : BitVec 16
  /-- `OUT_LEN`, RN 0x0B, RO (R23). -/
  outLen : BitVec 16
  /-- `STR_LEN`, RN 0x0C, RO (R23). -/
  strLen : BitVec 5
  /-- The IP field registers but `IP_CSUM`, RW (R12). -/
  ip : IpHeader
  /-- `IP_CSUM`, RN 0x18, RW (R12, R15). -/
  ipCsum : BitVec 16
  /-- The TCP field registers but `TCP_CSUM`, RW (R14). -/
  tcp : TcpHeader
  /-- `TCP_CSUM`, RN 0x28, RW (R14, R15). -/
  tcpCsum : BitVec 16
  /-- The four buffers (R27). -/
  bufs : Buffers
  /-- The model's own: the parameters of the instance (R5, log entry 2). No step changes them. -/
  par : Params
  /-- The model's own: hardware resets so far, the counter behind `Config.unspecified` (log entry 4). -/
  epoch : Nat
  /-- The model's own: the host's pending steps, oldest first (log entry 1). -/
  host : List HostStep
deriving DecidableEq, Repr

/-- IP field registers that are all 0 (R30). -/
def IpHeader.zero : IpHeader :=
  { ver := 0, ihl := 0, tos := 0, tlen := 0, ident := 0, frag := 0, ttl := 0, proto := 0, src := 0, dst := 0 }

/-- TCP field registers that are all 0 (R30). -/
def TcpHeader.zero : TcpHeader :=
  { sport := 0, dport := 0, seq := 0, ack := 0, doff := 0, rsvd := 0, flags := 0, win := 0, urg := 0 }

/-- Buffers nothing has written since hardware reset (R30). -/
def Buffers.unwritten : Buffers := { pkt := [], pay := [], phdr := [], str := [] }

/-- The state after hardware reset of an instance with the parameters `p`: every register 0, every buffer byte
UNSPECIFIED, the block idle (R30, R230). -/
def State.resetWith (p : Params) : State :=
  { cmd := 0, status := 0, cfg := 0, off := 0, len := 0, acc := 0, result := 0, valid := 0
    nextOff := 0, slOff := 0, slLen := 0, outLen := 0, strLen := 0
    ip := .zero, ipCsum := 0, tcp := .zero, tcpCsum := 0
    bufs := .unwritten, par := p, epoch := 0, host := [] }

/-- The machine right after reset (R30, R230), with the parameters of log entry 2. -/
def State.reset : State := State.resetWith Params.suggested

end Sys2Proof.Machine
end

