-- ==== Sys2Proof/Machine/Bytes.lean ====
section
/-! DEFINITION. Byte order (00_scope.md R6, 20_memory.md R41): every multi-byte quantity in a buffer is big-endian. -/

namespace Sys2Proof.Machine

/-- `be16(v)`: the two bytes of `v`, the more significant first. -/
def be16 (v : Half) : List Byte := [v.extractLsb' 8 8, v.extractLsb' 0 8]

/-- `be32(v)`: the four bytes of `v`, the most significant first. -/
def be32 (v : Word) : List Byte :=
  [v.extractLsb' 24 8, v.extractLsb' 16 8, v.extractLsb' 8 8, v.extractLsb' 0 8]

/-- `bs[i]`. The callers have checked that `bs` is long enough. -/
def rd8 (bs : List Byte) (i : Nat) : Byte := bs.getD i 0

/-- `rd16(bs, i)`: the byte at the lower index is the more significant. -/
def rd16 (bs : List Byte) (i : Nat) : Half := rd8 bs i ++ rd8 bs (i + 1)

/-- `rd32(bs, i) = (rd16(bs, i) << 16) | rd16(bs, i+2)` (R41). -/
def rd32 (bs : List Byte) (i : Nat) : Word := rd16 bs i ++ rd16 bs (i + 2)

/-- `bs[i..j)`: the subsequence of indices `i` to `j-1`. -/
def slice (bs : List Byte) (i j : Nat) : List Byte := (bs.take j).drop i

end Sys2Proof.Machine
end

