-- ==== Sys2Proof/Machine/Flags.lean ====
section
/-! DEFINITION. How `STATUS` and `VALID` are computed (10_state.md R18, R19; 60_exceptions.md R201, R203, R205). The HCE has
no arithmetic condition codes (R28). -/

namespace Sys2Proof.Machine

/-- The number `STATUS.CAUSE` records (R203). -/
def Cause.num : Cause → BitVec 8
  | .ipShort => 0x01
  | .ipVersion => 0x02
  | .ipIhlMin => 0x03
  | .ipIhlBuf => 0x04
  | .ipTlenMin => 0x05
  | .ipTlenBuf => 0x06
  | .tcpShort => 0x11
  | .tcpDoffMin => 0x13
  | .tcpDoffBuf => 0x14
  | .lenOverflow => 0x21
  | .regionRange => 0x31
  | .opcodeReserved => 0x41
  | .fieldReserved => 0x42

/-- The number `STATUS.CODE` records (R201, R203): 1 `TRUNCATED_BUFFER`, 2 `MALFORMED_HEADER`, 3 `INVALID_INPUT`,
4 `BAD_REGION`, 5 `ILLEGAL_COMMAND`. -/
def Cause.code : Cause → BitVec 4
  | .ipShort | .ipTlenBuf | .tcpShort => 1
  | .ipVersion | .ipIhlMin | .ipIhlBuf | .ipTlenMin | .tcpDoffMin | .tcpDoffBuf => 2
  | .lenOverflow => 3
  | .regionRange => 4
  | .opcodeReserved | .fieldReserved => 5

/-- The layout of `STATUS` (R19): MISMATCH bit 12, CAUSE bits 11:4, CODE bits 3:0. -/
def statusWord (mismatch : Bool) (cause : BitVec 8) (code : BitVec 4) : BitVec 13 :=
  (BitVec.ofBool mismatch ++ cause) ++ code

/-- `STATUS` after a rejection (R200). -/
def rejectedStatus (c : Cause) : BitVec 13 := statusWord false c.num c.code

/-- `STATUS` after a command that completed (R19, R205). -/
def doneStatus (mismatch : Bool) : BitVec 13 := statusWord mismatch 0 0

/-- `STATUS.CODE` (R19). -/
def statusCode (st : BitVec 13) : BitVec 4 := st.extractLsb' 0 4

/-- `STATUS.CAUSE` (R19). -/
def statusCause (st : BitVec 13) : BitVec 8 := st.extractLsb' 4 8

/-- `STATUS.MISMATCH` (R19). -/
def statusMismatch (st : BitVec 13) : Bool := st.getLsbD 12

/-- The layout of `VALID` (R18): TCP_PRESENT bit 2, TCP_OK bit 1, IP_OK bit 0. -/
def validWord (present tcpOk ipOk : Bool) : BitVec 3 :=
  (BitVec.ofBool present ++ BitVec.ofBool tcpOk) ++ BitVec.ofBool ipOk

/-- `VALID` with `IP_OK` written and bits 1 and 2 unchanged (R18). -/
def setIpOk (v : BitVec 3) (ok : Bool) : BitVec 3 := validWord (v.getLsbD 2) (v.getLsbD 1) ok

/-- `VALID` with `TCP_OK` written and bits 0 and 2 unchanged (R18). -/
def setTcpOk (v : BitVec 3) (ok : Bool) : BitVec 3 := validWord (v.getLsbD 2) ok (v.getLsbD 0)

end Sys2Proof.Machine
end

