-- ==== Sys2Proof/Machine/Ops.lean ====
section
/-! DEFINITION. The named operations over buffers and registers (00_scope.md R7): reading and writing buffer bytes, and
the two ways a command ends, `raise E(cause)` (the HCE's only exception, 60_exceptions.md R200) and `done(m)`. -/

namespace Sys2Proof.Machine

/-- The canonical form of a buffer's cells: strictly rising offsets. -/
abbrev Memory.wf (m : Memory) : Prop := m.Pairwise fun c d => c.1 < d.1

/-- The byte written at offset `a`, if one has been written since hardware reset. -/
def Memory.read : Memory → Nat → Option Byte
  | [], _ => none
  | c :: m, a => if c.1 = a then some c.2 else Memory.read m a

/-- Store one byte, keeping the offsets rising. -/
def Memory.write : Memory → Nat → Byte → Memory
  | [], a, v => [(a, v)]
  | c :: m, a, v =>
    if a < c.1 then (a, v) :: c :: m
    else if c.1 = a then (a, v) :: m
    else c :: Memory.write m a v

/-- Store the bytes `bs` at offsets `a`, `a+1`, … -/
def Memory.writeAll : Memory → Nat → List Byte → Memory
  | m, _, [] => m
  | m, a, v :: bs => Memory.writeAll (Memory.write m a v) (a + 1) bs

/-- The cells of buffer `b`. -/
def Buffers.get (bufs : Buffers) : Buf → Memory
  | .pkt => bufs.pkt
  | .pay => bufs.pay
  | .phdr => bufs.phdr
  | .str => bufs.str

/-- The buffers with the cells of `b` replaced: a write to one never changes another (20_memory.md R40). -/
def Buffers.set (bufs : Buffers) (b : Buf) (m : Memory) : Buffers :=
  match b with
  | .pkt => { bufs with pkt := m }
  | .pay => { bufs with pay := m }
  | .phdr => { bufs with phdr := m }
  | .str => { bufs with str := m }

/-- The size of buffer `b` in bytes (00_scope.md R5, 20_memory.md R40). -/
def Params.size (p : Params) : Buf → Nat
  | .pkt => p.pktSize
  | .pay => p.paySize
  | .phdr => Config.phdrSize
  | .str => Config.strSize

/-- `size(b)`. -/
def State.size (s : State) (b : Buf) : Nat := Params.size s.par b

/-- The byte of buffer `b` at offset `o`. A byte that nothing has written since hardware reset reads as the free
value `Config.unspecified` (10_state.md R30, 20_memory.md R49). -/
def State.byte (s : State) (b : Buf) (o : Nat) : Byte :=
  ((s.bufs.get b).read o).getD (Config.unspecified s.epoch b o)

/-- `MemRead(b, off, n)` (00_scope.md R7). -/
def State.memRead (s : State) (b : Buf) (off : Nat) : Nat → List Byte
  | 0 => []
  | n + 1 => s.byte b off :: State.memRead s b (off + 1) n

/-- `MemWrite(b, off, len(bs), bs)` (00_scope.md R7). -/
def State.memWrite (s : State) (b : Buf) (off : Nat) (bs : List Byte) : State :=
  { s with bufs := s.bufs.set b (Memory.writeAll (s.bufs.get b) off bs) }

/-- The state with `STATUS` written. -/
def State.setStatus (s : State) (st : BitVec 13) : State := { s with status := st }

/-- `raise E(cause)`: `STATUS` is the rejection's, and nothing else changes (60_exceptions.md R200). -/
def State.raise (s : State) (c : Cause) : State := s.setStatus (rejectedStatus c)

/-- `done(m)`: the command completed (00_scope.md R7). -/
def State.done (s : State) (mismatch : Bool) : State := s.setStatus (doneStatus mismatch)

/-- What a command comes to before `STATUS` is written: a cause of rejection, or the state with all its other
writes made, and its `MISMATCH`. A command computes everything first and then commits (60_exceptions.md R200). -/
abbrev Effect := Except Cause (State × Bool)

/-- The end of a command: exactly one of `raise` and `done` (30_encoding.md R60), so `STATUS` is written once. A
rejection leaves the state before the command, but for `STATUS`. -/
def State.conclude (s : State) : Effect → Host.Outcome State Fault Refusal
  | .error c => .next (s.raise c)
  | .ok (t, mismatch) => .next (t.done mismatch)

/-- Every register 0, `CMD`, `STATUS` and `CFG` among them (10_state.md R30). The buffers stay. -/
def State.clearRegisters (s : State) : State :=
  { s with
    cmd := 0, status := 0, cfg := 0, off := 0, len := 0, acc := 0, result := 0, valid := 0
    nextOff := 0, slOff := 0, slLen := 0, outLen := 0, strLen := 0
    ip := .zero, ipCsum := 0, tcp := .zero, tcpCsum := 0 }

/-- Hardware reset (70_reset_and_hazards.md R230): every register 0 and every buffer byte UNSPECIFIED, afresh. -/
def State.hardReset (s : State) : State :=
  { s.clearRegisters with bufs := .unwritten, epoch := s.epoch + 1 }

/-- The rejection of a word that does not decode (30_encoding.md R65). -/
def causeOfDecodeError : DecodeError → Cause
  | .opcodeReserved => .opcodeReserved
  | .fieldReserved => .fieldReserved

end Sys2Proof.Machine
end

