-- ==== Sys2Proof/Machine/Operands.lean ====
section
/-! DEFINITION. Operand assembly (30_encoding.md R63, R64): the region a command reads, the place a header is written to.
Every operand is in a fixed register, and the bounds are checked on natural numbers before anything else
(20_memory.md R43, R44). -/

namespace Sys2Proof.Machine

/-- The region (`b`, `OFF`, `LEN`) lies inside its buffer (R44). -/
abbrev State.regionInside (s : State) (b : Buf) : Prop := s.off.toNat + s.len.toNat ≤ s.size b

/-- The bytes of the region (`b`, `OFF`, `LEN`) (R43). -/
def State.regionBytes (s : State) (b : Buf) : List Byte := s.memRead b s.off.toNat s.len.toNat

/-- The region operand: its bytes, or `BadRegion(0x31)` (R43, R44). -/
def State.region (s : State) (b : Buf) : Except Cause (List Byte) :=
  if s.regionInside b then .ok (s.regionBytes b) else .error .regionRange

/-- The 20 bytes from `OFF` on lie inside buffer `b`; `LEN` is ignored (R44, R63). -/
abbrev State.headerInside (s : State) (b : Buf) : Prop := s.off.toNat + 20 ≤ s.size b

/-- The destination of a serialised header: the offset, or `BadRegion(0x31)` (R44). -/
def State.headerDest (s : State) (b : Buf) : Except Cause Nat :=
  if s.headerInside b then .ok s.off.toNat else .error .regionRange

end Sys2Proof.Machine
end

