-- ==== Sys2Proof/Machine/Checksum.lean ====
section
/-! DEFINITION. The checksum engine (40_checksum.md): one's-complement addition, the region sum, the checksum and its
validation (R90 to R92, R97), and the commands `CSUM.ACC` and `CSUM.FIN` (R100, R101). -/

namespace Sys2Proof.Machine

/-- `ocadd(a, b)`: the carry-out is added back into the low 16 bits (R90). -/
def ocadd (a b : Half) : Half :=
  let s := a.toNat + b.toNat
  BitVec.ofNat 16 (s % 0x10000 + s / 0x10000)

/-- `ocsum(bs, init)`: big-endian words paired from the first byte; a trailing odd byte is the high byte of a last
word (R91). -/
def ocsum : List Byte → Half → Half
  | [], acc => acc
  | [x], acc => ocadd acc (x ++ 0#8)
  | x :: y :: bs, acc => ocsum bs (ocadd acc (x ++ y))

/-- `cksum(bs, init) = ~ocsum(bs, init)` (R92). -/
def cksum (bs : List Byte) (init : Half) : Half := ~~~ ocsum bs init

/-- `bs` with the two bytes of the checksum field at `f` replaced by 0x00 (R97). -/
def zeroField (bs : List Byte) (f : Nat) : List Byte := (bs.set f 0).set (f + 1) 0

/-- `valid(bs, init, f, mode)`: recompute-and-compare when `mode` is 0, sum-to-all-ones when it is 1 (R97). -/
def csumValid (bs : List Byte) (init : Half) (f : Nat) (mode : BitVec 1) : Bool :=
  if mode = 0 then cksum (zeroField bs f) init == rd16 bs f
  else ocsum bs init == 0xFFFF

/-- `CSUM.ACC` (R100). -/
def csumAccEffect (b : Buf) (s : State) : Effect :=
  match s.region b with
  | .error c => .error c
  | .ok bs => .ok ({ s with acc := ocsum bs s.acc }, false)

/-- `CSUM.FIN` (R101): the pre-complement sum stays in `ACC`. -/
def csumFinEffect (b : Buf) (s : State) : Effect :=
  match s.region b with
  | .error c => .error c
  | .ok bs => .ok ({ s with acc := ocsum bs s.acc, result := ~~~ ocsum bs s.acc }, false)

/-- The meaning of `CSUM.ACC` (R100). -/
def execCsumAcc (b : Buf) (s : State) : Host.Outcome State Fault Refusal := s.conclude (csumAccEffect b s)

/-- The meaning of `CSUM.FIN` (R101). -/
def execCsumFin (b : Buf) (s : State) : Host.Outcome State Fault Refusal := s.conclude (csumFinEffect b s)

end Sys2Proof.Machine
end

