-- ==== Sys2Proof/Machine/IpCodec.lean ====
section
/-! DEFINITION. The IP header codec (41_ip_codec.md): the wire format (30_encoding.md R70, R71), `ip_ser`, `ip_parse`,
`ip_cksum` (R120 to R122), and the commands `IP.ENC`, `IP.DEC`, `IP.CSUM`, `IP.VFY` (R123, R124, R126, R127). -/

namespace Sys2Proof.Machine

/-- `ip_ser(h, c)`: always 20 bytes (R120); version is the high nibble of byte 0 (R71). -/
def ipSer (h : IpHeader) (c : Half) : List Byte :=
  [h.ver ++ h.ihl, h.tos] ++ be16 h.tlen ++ be16 h.ident ++ be16 h.frag ++ [h.ttl, h.proto]
    ++ be16 c ++ be32 h.src ++ be32 h.dst

/-- The fields at their byte offsets (R70, R71, R121). -/
def ipFields (bs : List Byte) : IpHeader :=
  { ver := (rd8 bs 0).extractLsb' 4 4
    ihl := (rd8 bs 0).extractLsb' 0 4
    tos := rd8 bs 1
    tlen := rd16 bs 2
    ident := rd16 bs 4
    frag := rd16 bs 6
    ttl := rd8 bs 8
    proto := rd8 bs 9
    src := rd32 bs 12
    dst := rd32 bs 16 }

/-- `4 * ihl`: the header's length in bytes. -/
def ipHeaderLen (h : IpHeader) : Nat := 4 * h.ihl.toNat

/-- `ip_parse(bs)`: the header and the stored checksum, or the first check that fails (R121). The payload offset it
also returns is `ipHeaderLen` of the header. -/
def ipParse (bs : List Byte) : Except Cause (IpHeader × Half) :=
  if bs.length < 20 then .error .ipShort
  else
    let h := ipFields bs
    if h.ver ≠ 4 then .error .ipVersion
    else if h.ihl.toNat < 5 then .error .ipIhlMin
    else if bs.length < ipHeaderLen h then .error .ipIhlBuf
    else .ok (h, rd16 bs 10)

/-- `ip_cksum(h)` (R122). -/
def ipCksum (h : IpHeader) : Half := cksum (ipSer h 0) 0

/-- `IP.ENC` (R123): field values are never checked. -/
def ipEncEffect (b : Buf) (s : State) : Effect :=
  match s.headerDest b with
  | .error c => .error c
  | .ok off => .ok (s.memWrite b off (ipSer s.ip s.ipCsum), false)

/-- `IP.DEC` (R124). -/
def ipDecEffect (b : Buf) (s : State) : Effect :=
  match s.region b with
  | .error c => .error c
  | .ok bs =>
    match ipParse bs with
    | .error c => .error c
    | .ok (h, c) =>
      .ok ({ s with ip := h, ipCsum := c, nextOff := BitVec.ofNat 16 (ipHeaderLen h) }, false)

/-- `IP.CSUM` (R126). -/
def ipCsumEffect (s : State) : Effect :=
  .ok ({ s with ipCsum := ipCksum s.ip, result := ipCksum s.ip }, false)

/-- `IP.VFY` (R127): a mismatch is not a rejection. -/
def ipVfyEffect (b : Buf) (s : State) : Effect :=
  match s.region b with
  | .error c => .error c
  | .ok bs =>
    if bs.length < 20 then .error .ipShort
    else
      let ok := csumValid bs 0 10 s.cfg
      .ok ({ s with valid := setIpOk s.valid ok }, !ok)

/-- The meaning of `IP.ENC` (R123). -/
def execIpEnc (b : Buf) (s : State) : Host.Outcome State Fault Refusal := s.conclude (ipEncEffect b s)

/-- The meaning of `IP.DEC` (R124). -/
def execIpDec (b : Buf) (s : State) : Host.Outcome State Fault Refusal := s.conclude (ipDecEffect b s)

/-- The meaning of `IP.CSUM` (R126). -/
def execIpCsum (s : State) : Host.Outcome State Fault Refusal := s.conclude (ipCsumEffect s)

/-- The meaning of `IP.VFY` (R127). -/
def execIpVfy (b : Buf) (s : State) : Host.Outcome State Fault Refusal := s.conclude (ipVfyEffect b s)

end Sys2Proof.Machine
end

