-- ==== Sys2Proof/Machine/TcpCodec.lean ====
section
/-! DEFINITION. The TCP header codec (42_tcp_codec.md): the wire formats (30_encoding.md R72 to R75), `tcp_ser`,
`tcp_parse`, `tcp_cksum`, `flags_str` (R140 to R142, R155), and the commands `TCP.ENC`, `TCP.DEC`, `TCP.PSH`,
`TCP.CSUM`, `TCP.VFY`, `TCP.FSTR` (R143, R144, R150, R152, R153, R156). -/

namespace Sys2Proof.Machine

/-- `tcp_ser(t, c)`: always 20 bytes (R140); the data offset is the high nibble of byte 12 (R73). -/
def tcpSer (t : TcpHeader) (c : Half) : List Byte :=
  be16 t.sport ++ be16 t.dport ++ be32 t.seq ++ be32 t.ack ++ [t.doff ++ t.rsvd, t.flags]
    ++ be16 t.win ++ be16 c ++ be16 t.urg

/-- The fields at their byte offsets (R72, R73, R141). -/
def tcpFields (bs : List Byte) : TcpHeader :=
  { sport := rd16 bs 0
    dport := rd16 bs 2
    seq := rd32 bs 4
    ack := rd32 bs 8
    doff := (rd8 bs 12).extractLsb' 4 4
    rsvd := (rd8 bs 12).extractLsb' 0 4
    flags := rd8 bs 13
    win := rd16 bs 14
    urg := rd16 bs 18 }

/-- `4 * doff`: the header's length in bytes. -/
def tcpHeaderLen (t : TcpHeader) : Nat := 4 * t.doff.toNat

/-- `tcp_parse(bs)`: the header and the stored checksum, or the first check that fails (R141). The payload offset it
also returns is `tcpHeaderLen` of the header. -/
def tcpParse (bs : List Byte) : Except Cause (TcpHeader × Half) :=
  if bs.length < 20 then .error .tcpShort
  else
    let t := tcpFields bs
    if t.doff.toNat < 5 then .error .tcpDoffMin
    else if bs.length < tcpHeaderLen t then .error .tcpDoffBuf
    else .ok (t, rd16 bs 16)

/-- `pseudo(src, dst, proto, seglen)`: 12 bytes (30_encoding.md R74). -/
def pseudo (src dst : Word) (proto : Byte) (seglen : Half) : List Byte :=
  be32 src ++ be32 dst ++ [0, proto] ++ be16 seglen

/-- `tcp_cksum(t, src, dst, pay)` (R142): the header counts as 20 bytes whatever `t.doff` holds. The protocol byte
`proto` is the instance's `PROTO_TCP`. -/
def tcpCksum (proto : Byte) (t : TcpHeader) (src dst : Word) (pay : List Byte) : Half :=
  let a := ocsum (pseudo src dst proto (BitVec.ofNat 16 (20 + pay.length))) 0
  let a := ocsum (tcpSer t 0) a
  ~~~ ocsum pay a

/-- The names of the six flags in their fixed order, ASCII, each with its bit of `TCP_FLAGS`
(30_encoding.md R75, R155). -/
def flagNames : List (Nat × List Byte) :=
  [(4, [0x41, 0x43, 0x4B]),   -- ACK
   (0, [0x46, 0x49, 0x4E]),   -- FIN
   (3, [0x50, 0x53, 0x48]),   -- PSH
   (2, [0x52, 0x53, 0x54]),   -- RST
   (1, [0x53, 0x59, 0x4E]),   -- SYN
   (5, [0x55, 0x52, 0x47])]   -- URG

/-- Join names by the single byte `+` (0x2B) (R75). -/
def joinPlus : List (List Byte) → List Byte
  | [] => []
  | [n] => n
  | n :: m :: ns => n ++ 0x2B :: joinPlus (m :: ns)

/-- `flags_str(f)` (R155). -/
def flagsStr (f : Byte) : List Byte :=
  joinPlus ((flagNames.filter fun p => f.getLsbD p.1).map fun p => p.2)

/-- `TCP.ENC` (R143): field values are never checked. -/
def tcpEncEffect (b : Buf) (s : State) : Effect :=
  match s.headerDest b with
  | .error c => .error c
  | .ok off => .ok (s.memWrite b off (tcpSer s.tcp s.tcpCsum), false)

/-- `TCP.DEC` (R144). -/
def tcpDecEffect (b : Buf) (s : State) : Effect :=
  match s.region b with
  | .error c => .error c
  | .ok bs =>
    match tcpParse bs with
    | .error c => .error c
    | .ok (t, c) =>
      .ok ({ s with tcp := t, tcpCsum := c, nextOff := BitVec.ofNat 16 (tcpHeaderLen t) }, false)

/-- `TCP.PSH` (R150): the segment length is `LEN`, the protocol `IP_PROTO`. -/
def tcpPshEffect (s : State) : Effect :=
  .ok (s.memWrite .phdr 0 (pseudo s.ip.src s.ip.dst s.ip.proto s.len), false)

/-- `TCP.CSUM` (R152): bounds before the segment length. -/
def tcpCsumEffect (b : Buf) (s : State) : Effect :=
  match s.region b with
  | .error c => .error c
  | .ok pay =>
    if 0xFFFF < 20 + s.len.toNat then .error .lenOverflow
    else
      let c := tcpCksum s.par.protoTcp s.tcp s.ip.src s.ip.dst pay
      .ok ({ s with tcpCsum := c, result := c }, false)

/-- `TCP.VFY` (R153): a mismatch is not a rejection. -/
def tcpVfyEffect (b : Buf) (s : State) : Effect :=
  match s.region b with
  | .error c => .error c
  | .ok bs =>
    if bs.length < 20 then .error .tcpShort
    else
      let init := ocsum (pseudo s.ip.src s.ip.dst s.par.protoTcp s.len) 0
      let ok := csumValid bs init 16 s.cfg
      .ok ({ s with valid := setTcpOk s.valid ok }, !ok)

/-- `TCP.FSTR` (R156): `STR` is rewritten whole, zeros after the string. -/
def tcpFstrEffect (s : State) : Effect :=
  let str := flagsStr s.tcp.flags
  .ok ({ s.memWrite .str 0 (str ++ List.replicate (Config.strSize - str.length) 0) with
         strLen := BitVec.ofNat 5 str.length }, false)

/-- The meaning of `TCP.ENC` (R143). -/
def execTcpEnc (b : Buf) (s : State) : Host.Outcome State Fault Refusal := s.conclude (tcpEncEffect b s)

/-- The meaning of `TCP.DEC` (R144). -/
def execTcpDec (b : Buf) (s : State) : Host.Outcome State Fault Refusal := s.conclude (tcpDecEffect b s)

/-- The meaning of `TCP.PSH` (R150). -/
def execTcpPsh (s : State) : Host.Outcome State Fault Refusal := s.conclude (tcpPshEffect s)

/-- The meaning of `TCP.CSUM` (R152). -/
def execTcpCsum (b : Buf) (s : State) : Host.Outcome State Fault Refusal := s.conclude (tcpCsumEffect b s)

/-- The meaning of `TCP.VFY` (R153). -/
def execTcpVfy (b : Buf) (s : State) : Host.Outcome State Fault Refusal := s.conclude (tcpVfyEffect b s)

/-- The meaning of `TCP.FSTR` (R156). -/
def execTcpFstr (s : State) : Host.Outcome State Fault Refusal := s.conclude (tcpFstrEffect s)

end Sys2Proof.Machine
end

