-- ==== Sys2Proof/Machine/Packet.lean ====
section
/-! DEFINITION. The packet assembler and disassembler (43_packet.md): `ASM.IP`, `ASM.TCP`, `DISASM` (R172, R174, R176). -/

namespace Sys2Proof.Machine

/-- The IP header an assembler sends: version 4, header length 5, the given protocol and total length, the other
fields as the host supplied them (R172, R174). -/
def outboundIp (h : IpHeader) (proto : Byte) (tlen : Half) : IpHeader :=
  { h with ver := 4, ihl := 5, proto := proto, tlen := tlen }

/-- Write the IP header and the payload `pay` to `PKT` from offset 0, and the fields the assembler sets to the
registers (R172). `ASM.TCP` delegates to it (R174). -/
def State.emitIp (s : State) (proto : Byte) (pay : List Byte) : State :=
  let total := BitVec.ofNat 16 (20 + pay.length)
  let h := outboundIp s.ip proto total
  { (s.memWrite .pkt 0 (ipSer h (ipCksum h))).memWrite .pkt 20 pay with
    ip := h, ipCsum := ipCksum h, outLen := total }

/-- `ASM.IP` (R172): bounds before size, both before any byte is emitted. -/
def asmIpEffect (s : State) : Effect :=
  match s.region .pay with
  | .error c => .error c
  | .ok pay =>
    if s.par.maxUnit < 20 + s.len.toNat then .error .lenOverflow
    else .ok (s.emitIp s.ip.proto pay, false)

/-- `ASM.TCP` (R174): the TCP checksum first, then the segment as the payload of an IP packet. -/
def asmTcpEffect (s : State) : Effect :=
  match s.region .pay with
  | .error c => .error c
  | .ok pay =>
    if s.par.maxUnit < 40 + s.len.toNat then .error .lenOverflow
    else
      let t := { s.tcp with doff := 5 }
      let tc := tcpCksum s.par.protoTcp t s.ip.src s.ip.dst pay
      .ok ({ s.emitIp s.par.protoTcp (tcpSer t tc ++ pay) with tcp := t, tcpCsum := tc }, false)

/-- What `DISASM` does once the IP header `h` with stored checksum `c` is accepted and its protocol is not TCP
(R176): the TCP registers stay. -/
def disasmOther (s : State) (h : IpHeader) (c : Half) (ipOk : Bool) : State × Bool :=
  ({ s with
     ip := h, ipCsum := c
     slOff := BitVec.ofNat 16 (s.off.toNat + ipHeaderLen h)
     slLen := BitVec.ofNat 16 (h.tlen.toNat - ipHeaderLen h)
     valid := validWord false false ipOk }, !ipOk)

/-- What `DISASM` does once the IP header `h` and the TCP header `t`, with stored checksums `c` and `tc`, are accepted
(R176). -/
def disasmTcp (s : State) (h : IpHeader) (c : Half) (t : TcpHeader) (tc : Half) (ipOk tcpOk : Bool) : State × Bool :=
  ({ s with
     ip := h, ipCsum := c, tcp := t, tcpCsum := tc
     slOff := BitVec.ofNat 16 (s.off.toNat + ipHeaderLen h + tcpHeaderLen t)
     slLen := BitVec.ofNat 16 (h.tlen.toNat - ipHeaderLen h - tcpHeaderLen t)
     valid := validWord true tcpOk ipOk }, !ipOk || !tcpOk)

/-- `DISASM` (R176): the total length bounds everything above the IP header (R170), and all writes are made only if
no check failed. -/
def disasmEffect (b : Buf) (s : State) : Effect :=
  match s.region b with
  | .error c => .error c
  | .ok bs =>
    match ipParse bs with
    | .error c => .error c
    | .ok (h, c) =>
      let hl := ipHeaderLen h
      if h.tlen.toNat < hl then .error .ipTlenMin
      else if bs.length < h.tlen.toNat then .error .ipTlenBuf
      else
        let ipOk := csumValid (slice bs 0 hl) 0 10 s.cfg
        if h.proto = s.par.protoTcp then
          let seg := slice bs hl h.tlen.toNat
          match tcpParse seg with
          | .error c => .error c
          | .ok (t, tc) =>
            let init := ocsum (pseudo h.src h.dst h.proto (BitVec.ofNat 16 (h.tlen.toNat - hl))) 0
            .ok (disasmTcp s h c t tc ipOk (csumValid seg init 16 s.cfg))
        else .ok (disasmOther s h c ipOk)

/-- The meaning of `ASM.IP` (R172). -/
def execAsmIp (s : State) : Host.Outcome State Fault Refusal := s.conclude (asmIpEffect s)

/-- The meaning of `ASM.TCP` (R174). -/
def execAsmTcp (s : State) : Host.Outcome State Fault Refusal := s.conclude (asmTcpEffect s)

/-- The meaning of `DISASM` (R176). -/
def execDisasm (b : Buf) (s : State) : Host.Outcome State Fault Refusal := s.conclude (disasmEffect b s)

end Sys2Proof.Machine
end

