-- ==== Sys2Proof/Machine/System.lean ====
section
/-! DEFINITION. The system commands (44_system.md): `NOP` and `RST` (R190, R192). -/

namespace Sys2Proof.Machine

/-- `NOP` (R190). -/
def nopEffect (s : State) : Effect := .ok (s, false)

/-- `RST` (R192): every register, `CMD` among them; the buffers stay. -/
def rstEffect (s : State) : Effect := .ok (s.clearRegisters, false)

/-- The meaning of `NOP` (R190). -/
def execNop (s : State) : Host.Outcome State Fault Refusal := s.conclude (nopEffect s)

/-- The meaning of `RST` (R192). -/
def execRst (s : State) : Host.Outcome State Fault Refusal := s.conclude (rstEffect s)

end Sys2Proof.Machine
end

