-- ==== Sys2Proof/Machine/Dispatch.lean ====
section
/-! DEFINITION. One arm per command (30_encoding.md R62). -/

namespace Sys2Proof.Machine

/-- Execute one decoded command (30_encoding.md R60). -/
def exec (i : Instr) (s : State) : Host.Outcome State Fault Refusal :=
  match i with
  | .csumAcc b => Sys2Proof.Machine.execCsumAcc b s
  | .csumFin b => Sys2Proof.Machine.execCsumFin b s
  | .ipEnc b => Sys2Proof.Machine.execIpEnc b s
  | .ipDec b => Sys2Proof.Machine.execIpDec b s
  | .ipCsum => Sys2Proof.Machine.execIpCsum s
  | .ipVfy b => Sys2Proof.Machine.execIpVfy b s
  | .tcpEnc b => Sys2Proof.Machine.execTcpEnc b s
  | .tcpDec b => Sys2Proof.Machine.execTcpDec b s
  | .tcpPsh => Sys2Proof.Machine.execTcpPsh s
  | .tcpCsum b => Sys2Proof.Machine.execTcpCsum b s
  | .tcpVfy b => Sys2Proof.Machine.execTcpVfy b s
  | .tcpFstr => Sys2Proof.Machine.execTcpFstr s
  | .asmIp => Sys2Proof.Machine.execAsmIp s
  | .asmTcp => Sys2Proof.Machine.execAsmTcp s
  | .disasm b => Sys2Proof.Machine.execDisasm b s
  | .nop => Sys2Proof.Machine.execNop s
  | .rst => Sys2Proof.Machine.execRst s

end Sys2Proof.Machine
end

