-- ==== Sys2Proof/Machine/Registers.lean ====
section
/-! DEFINITION. The register file as the host sees it (10_state.md R11, R26): register numbers, widths, access rights, and
reading and writing a register by name. -/

namespace Sys2Proof.Machine

/-- The registers of R26, in the order of its table. -/
inductive Reg where
  | cmd | status | cfg | off | len | acc | result | valid | nextOff | slOff | slLen | outLen | strLen
  | ipVer | ipIhl | ipTos | ipTlen | ipId | ipFrag | ipTtl | ipProto | ipCsum | ipSrc | ipDst
  | tcpSport | tcpDport | tcpSeq | tcpAck | tcpDoff | tcpRsvd | tcpFlags | tcpWin | tcpCsum | tcpUrg
deriving DecidableEq, Repr

/-- Access rights (R11). -/
inductive Access where
  /-- The host may read and write. -/
  | rw
  /-- The host may read; a host write is ignored. -/
  | ro
  /-- Write-trigger: `CMD` only. -/
  | wt
deriving DecidableEq, Repr

/-- All registers, in the order of R26. -/
def Reg.all : List Reg :=
  [.cmd, .status, .cfg, .off, .len, .acc, .result, .valid, .nextOff, .slOff, .slLen, .outLen, .strLen,
   .ipVer, .ipIhl, .ipTos, .ipTlen, .ipId, .ipFrag, .ipTtl, .ipProto, .ipCsum, .ipSrc, .ipDst,
   .tcpSport, .tcpDport, .tcpSeq, .tcpAck, .tcpDoff, .tcpRsvd, .tcpFlags, .tcpWin, .tcpCsum, .tcpUrg]

/-- The register number (R26). -/
def Reg.num : Reg → BitVec 8
  | .cmd => 0x00 | .status => 0x01 | .cfg => 0x02 | .off => 0x03 | .len => 0x04 | .acc => 0x05
  | .result => 0x06 | .valid => 0x07 | .nextOff => 0x08 | .slOff => 0x09 | .slLen => 0x0A
  | .outLen => 0x0B | .strLen => 0x0C
  | .ipVer => 0x10 | .ipIhl => 0x11 | .ipTos => 0x12 | .ipTlen => 0x13 | .ipId => 0x14
  | .ipFrag => 0x15 | .ipTtl => 0x16 | .ipProto => 0x17 | .ipCsum => 0x18 | .ipSrc => 0x19 | .ipDst => 0x1A
  | .tcpSport => 0x20 | .tcpDport => 0x21 | .tcpSeq => 0x22 | .tcpAck => 0x23 | .tcpDoff => 0x24
  | .tcpRsvd => 0x25 | .tcpFlags => 0x26 | .tcpWin => 0x27 | .tcpCsum => 0x28 | .tcpUrg => 0x29

/-- The width in bits (R26). -/
def Reg.width : Reg → Nat
  | .status => 13 | .cfg => 1 | .valid => 3 | .strLen => 5
  | .ipVer | .ipIhl | .tcpDoff | .tcpRsvd => 4
  | .ipTos | .ipTtl | .ipProto | .tcpFlags => 8
  | .ipSrc | .ipDst | .tcpSeq | .tcpAck => 32
  | .cmd | .off | .len | .acc | .result | .nextOff | .slOff | .slLen | .outLen
  | .ipTlen | .ipId | .ipFrag | .ipCsum | .tcpSport | .tcpDport | .tcpWin | .tcpCsum | .tcpUrg => 16

/-- The access right (R26). -/
def Reg.access : Reg → Access
  | .cmd => .wt
  | .status | .result | .valid | .nextOff | .slOff | .slLen | .outLen | .strLen => .ro
  | .cfg | .off | .len | .acc
  | .ipVer | .ipIhl | .ipTos | .ipTlen | .ipId | .ipFrag | .ipTtl | .ipProto | .ipCsum | .ipSrc | .ipDst
  | .tcpSport | .tcpDport | .tcpSeq | .tcpAck | .tcpDoff | .tcpRsvd | .tcpFlags | .tcpWin | .tcpCsum
  | .tcpUrg => .rw

/-- The register of a register number; unassigned numbers have none (R26). -/
def Reg.ofNum (rn : BitVec 8) : Option Reg := Reg.all.find? fun r => r.num == rn

/-- `zext_32(x[r])` (R11). -/
def State.get (s : State) : Reg → Word
  | .cmd => s.cmd.setWidth 32
  | .status => s.status.setWidth 32
  | .cfg => s.cfg.setWidth 32
  | .off => s.off.setWidth 32
  | .len => s.len.setWidth 32
  | .acc => s.acc.setWidth 32
  | .result => s.result.setWidth 32
  | .valid => s.valid.setWidth 32
  | .nextOff => s.nextOff.setWidth 32
  | .slOff => s.slOff.setWidth 32
  | .slLen => s.slLen.setWidth 32
  | .outLen => s.outLen.setWidth 32
  | .strLen => s.strLen.setWidth 32
  | .ipVer => s.ip.ver.setWidth 32
  | .ipIhl => s.ip.ihl.setWidth 32
  | .ipTos => s.ip.tos.setWidth 32
  | .ipTlen => s.ip.tlen.setWidth 32
  | .ipId => s.ip.ident.setWidth 32
  | .ipFrag => s.ip.frag.setWidth 32
  | .ipTtl => s.ip.ttl.setWidth 32
  | .ipProto => s.ip.proto.setWidth 32
  | .ipCsum => s.ipCsum.setWidth 32
  | .ipSrc => s.ip.src
  | .ipDst => s.ip.dst
  | .tcpSport => s.tcp.sport.setWidth 32
  | .tcpDport => s.tcp.dport.setWidth 32
  | .tcpSeq => s.tcp.seq
  | .tcpAck => s.tcp.ack
  | .tcpDoff => s.tcp.doff.setWidth 32
  | .tcpRsvd => s.tcp.rsvd.setWidth 32
  | .tcpFlags => s.tcp.flags.setWidth 32
  | .tcpWin => s.tcp.win.setWidth 32
  | .tcpCsum => s.tcpCsum.setWidth 32
  | .tcpUrg => s.tcp.urg.setWidth 32

/-- `x[r] <- trunc_W(v)` for the register's width W (R11). Whether the host may do it is `Reg.access`. -/
def State.put (s : State) (r : Reg) (v : Word) : State :=
  match r with
  | .cmd => { s with cmd := v.setWidth 16 }
  | .status => { s with status := v.setWidth 13 }
  | .cfg => { s with cfg := v.setWidth 1 }
  | .off => { s with off := v.setWidth 16 }
  | .len => { s with len := v.setWidth 16 }
  | .acc => { s with acc := v.setWidth 16 }
  | .result => { s with result := v.setWidth 16 }
  | .valid => { s with valid := v.setWidth 3 }
  | .nextOff => { s with nextOff := v.setWidth 16 }
  | .slOff => { s with slOff := v.setWidth 16 }
  | .slLen => { s with slLen := v.setWidth 16 }
  | .outLen => { s with outLen := v.setWidth 16 }
  | .strLen => { s with strLen := v.setWidth 5 }
  | .ipVer => { s with ip := { s.ip with ver := v.setWidth 4 } }
  | .ipIhl => { s with ip := { s.ip with ihl := v.setWidth 4 } }
  | .ipTos => { s with ip := { s.ip with tos := v.setWidth 8 } }
  | .ipTlen => { s with ip := { s.ip with tlen := v.setWidth 16 } }
  | .ipId => { s with ip := { s.ip with ident := v.setWidth 16 } }
  | .ipFrag => { s with ip := { s.ip with frag := v.setWidth 16 } }
  | .ipTtl => { s with ip := { s.ip with ttl := v.setWidth 8 } }
  | .ipProto => { s with ip := { s.ip with proto := v.setWidth 8 } }
  | .ipCsum => { s with ipCsum := v.setWidth 16 }
  | .ipSrc => { s with ip := { s.ip with src := v } }
  | .ipDst => { s with ip := { s.ip with dst := v } }
  | .tcpSport => { s with tcp := { s.tcp with sport := v.setWidth 16 } }
  | .tcpDport => { s with tcp := { s.tcp with dport := v.setWidth 16 } }
  | .tcpSeq => { s with tcp := { s.tcp with seq := v } }
  | .tcpAck => { s with tcp := { s.tcp with ack := v } }
  | .tcpDoff => { s with tcp := { s.tcp with doff := v.setWidth 4 } }
  | .tcpRsvd => { s with tcp := { s.tcp with rsvd := v.setWidth 4 } }
  | .tcpFlags => { s with tcp := { s.tcp with flags := v.setWidth 8 } }
  | .tcpWin => { s with tcp := { s.tcp with win := v.setWidth 16 } }
  | .tcpCsum => { s with tcpCsum := v.setWidth 16 }
  | .tcpUrg => { s with tcp := { s.tcp with urg := v.setWidth 16 } }

end Sys2Proof.Machine
end

