-- ==== Sys2Proof/Machine/HostAccess.lean ====
section
/-! DEFINITION. The host's access primitives (20_memory.md R46 to R49; 10_state.md R11, R24), the execution of a command
word (30_encoding.md R60) and hardware reset (70_reset_and_hazards.md R230), as the steps of the whole machine. -/

namespace Sys2Proof.Machine

/-- `HostRegRead(rn)`: what the host is given (R46). It changes no state. -/
def State.hostRegRead (s : State) (rn : BitVec 8) : Word :=
  match Reg.ofNum rn with
  | some r => s.get r
  | none => 0

/-- `HostBufRead(b, off, n)`: what the host is given, or nothing where the access is not performed (R49). It changes
no state. -/
def State.hostBufRead (s : State) (b : Buf) (off : Half) (n : Nat) : Option (List Byte) :=
  if off.toNat + n ≤ s.size b then some (s.memRead b off.toNat n) else none

/-- `HostBufWrite(b, off, bs)`: outside the buffer the access is not performed (R48). -/
def State.hostBufWrite (s : State) (b : Buf) (off : Half) (bs : List Byte) : State :=
  if off.toNat + bs.length ≤ s.size b then s.memWrite b off.toNat bs else s

/-- Execute the command word `w` (R60): store it in `CMD`, decode it, and run the command or reject the word. -/
def runCommandWord (w : Half) (s : State) : Host.Outcome State Fault Refusal :=
  match decode w with
  | .ok i => exec i { s with cmd := w }
  | .error e => .next (State.raise { s with cmd := w } (causeOfDecodeError e))

/-- `HostRegWrite(rn, v)` (R47): `RW` truncates, `RO` and unassigned numbers ignore the write, `CMD` executes. -/
def hostRegWrite (rn : BitVec 8) (v : Word) (s : State) : Host.Outcome State Fault Refusal :=
  match Reg.ofNum rn with
  | none => .next s
  | some r =>
    match r.access with
    | .ro => .next s
    | .wt => runCommandWord (v.setWidth 16) s
    | .rw => .next (s.put r v)

/-- One step of the host or of the reset input (R8, R46 to R49, R230). -/
def runHostStep (h : HostStep) (s : State) : Host.Outcome State Fault Refusal :=
  match h with
  | .regWrite rn v => hostRegWrite rn v s
  | .regRead _ => .next s
  | .bufWrite b off bs => .next (s.hostBufWrite b off bs)
  | .bufRead _ _ _ => .next s
  | .hardReset => .next s.hardReset

/-- A run is a sequence of host steps (R241): take the oldest pending one. With none pending the block is idle and
nothing changes (R230; log entry 5). -/
def runPending (s : State) : Host.Outcome State Fault Refusal :=
  match s.host with
  | [] => .next s
  | h :: rest => runHostStep h { s with host := rest }

/-- The host step that starts the command whose word is the low `nbits` bits of `w`: a write to `CMD` (R24). -/
def commandWrite (nbits w : Nat) : HostStep :=
  .regWrite (Reg.num .cmd) (BitVec.ofNat 32 (w % 2 ^ nbits % 2 ^ 16))

end Sys2Proof.Machine
end

