-- ==== Sys2Proof/Machine/Step.lean ====
section
/-! DEFINITION. One step of the machine: the oldest pending host step, with the command it starts, if it starts one
(00_scope.md R8, 70_reset_and_hazards.md R236). -/

namespace Sys2Proof.Machine

/-- One step. It never faults and never refuses: every host step leads to an idle block (60_exceptions.md R207). -/
def step (s : State) : Host.Outcome State Fault Refusal := runPending s

/-- `s` with a host write of the command word to `CMD` as the next step (10_state.md R24). Log entry 6: a command comes
from outside the machine. -/
def State.withFetchWord (s : State) (nbits w : Nat) : State :=
  { s with host := commandWrite nbits w :: s.host }

end Sys2Proof.Machine
end

