-- ==== Sys2Proof/Machine/HostProgram.lean ====
section
/-! DEFINITION. Host programs (30_encoding.md R67, R68): the lines `WR`, `RD`, `WRB`, `RDB`, `CMD` and the four
pseudo-instructions, each a fixed sequence of host steps. -/

namespace Sys2Proof.Machine

/-- `WR <reg>, <value>` (R67). -/
def lineWr (r : Reg) (v : Word) : HostStep := .regWrite r.num v

/-- `RD <reg>` (R67). -/
def lineRd (r : Reg) : HostStep := .regRead r.num

/-- `WRB <buf>, <off>, <bytes>` (R67). -/
def lineWrb (b : Buf) (off : Half) (bs : List Byte) : HostStep := .bufWrite b off bs

/-- `RDB <buf>, <off>, <n>` (R67). -/
def lineRdb (b : Buf) (off : Half) (n : Nat) : HostStep := .bufRead b off n

/-- `CMD <mnemonic>[, <buf>]` (R67): the command's word is written to `CMD`. -/
def lineCmd (i : Instr) : HostStep := lineWr .cmd ((encode i).setWidth 32)

/-- `REGION <off>, <len>` (R68). -/
def pseudoRegion (off len : Word) : List HostStep := [lineWr .off off, lineWr .len len]

/-- `CHECKSUM <buf>, <off>, <len>, <init>` (R68). -/
def pseudoChecksum (b : Buf) (off len init : Word) : List HostStep :=
  [lineWr .acc init, lineWr .off off, lineWr .len len, lineCmd (.csumFin b)]

/-- `SETIP <tos>, <id>, <frag>, <ttl>, <proto>, <src>, <dst>` (R68). -/
def pseudoSetIp (tos ident frag ttl proto src dst : Word) : List HostStep :=
  [lineWr .ipTos tos, lineWr .ipId ident, lineWr .ipFrag frag, lineWr .ipTtl ttl, lineWr .ipProto proto,
   lineWr .ipSrc src, lineWr .ipDst dst]

/-- `SETTCP <sport>, <dport>, <seq>, <ack>, <flags>, <win>, <urg>` (R68); `TCP_RSVD` is not touched. -/
def pseudoSetTcp (sport dport seq ack flags win urg : Word) : List HostStep :=
  [lineWr .tcpSport sport, lineWr .tcpDport dport, lineWr .tcpSeq seq, lineWr .tcpAck ack, lineWr .tcpFlags flags,
   lineWr .tcpWin win, lineWr .tcpUrg urg]

end Sys2Proof.Machine
end

