-- ==== Sys2Proof/Safety.lean ====
section
/-! DEFINITION. The terms the statements use: the machine's invariant, and the spec's own tables (10_state.md R26,
30_encoding.md R62 to R64, 60_exceptions.md R203, R204) written as data, apart from the meanings. -/

namespace Sys2Proof.Machine

/-! ### The invariant -/

/-- Every value of `STATUS` the block ever writes (R19, R203): completed, completed with a mismatch, and the thirteen
rejections, as numbers. -/
def legalStatuses : List (BitVec 13) :=
  [0x0000, 0x1000, 0x0011, 0x0022, 0x0032, 0x0042, 0x0052, 0x0061, 0x0111, 0x0132, 0x0142, 0x0213, 0x0314,
   0x0415, 0x0425]

/-- A buffer's cells are in canonical form and lie inside the buffer. -/
abbrev State.bufferOk (s : State) (b : Buf) : Prop :=
  Memory.wf (s.bufs.get b) ∧ ∀ c ∈ s.bufs.get b, c.1 < s.size b

/-- What every reachable state satisfies: the parameters meet R5, every buffer is in canonical form and inside its
size (R44), `STATUS` is one of the values of R203, `NEXT_OFF` is 0 or a header length (R21), the payload slice lies below
65536 (R22), `OUT_LEN` is at most `MAX_UNIT` and `STR_LEN` at most 23 (R23). -/
structure State.Inv (s : State) : Prop where
  par : s.par.Ok
  buffers : ∀ b, s.bufferOk b
  status : s.status ∈ legalStatuses
  nextOff : s.nextOff = 0 ∨ (20 ≤ s.nextOff.toNat ∧ s.nextOff.toNat ≤ 60 ∧ s.nextOff.toNat % 4 = 0)
  slice : s.slOff.toNat + s.slLen.toNat ≤ 65535
  outLen : s.outLen.toNat ≤ s.par.maxUnit
  strLen : s.strLen.toNat ≤ 23

/-! ### Stores -/

/-- `t` differs from `s` in `STATUS`, which is `st`, and at most in the buffers. -/
abbrev onlyBuffersChanged (s t : State) (st : BitVec 13) : Prop := t = { s with status := st, bufs := t.bufs }

/-- In `t` the bytes `bs` stand in buffer `b` from offset `off` on, and every other byte of every buffer is as in
`s` (20_memory.md R58). -/
abbrev storesAt (s t : State) (b : Buf) (off : Nat) (bs : List Byte) : Prop :=
  (∀ k < bs.length, t.byte b (off + k) = rd8 bs k) ∧
  ∀ b' a, (b' ≠ b ∨ a < off ∨ off + bs.length ≤ a) → t.byte b' a = s.byte b' a

/-! ### Encodings -/

/-- The buffer a `BSEL` number selects (30_encoding.md R61). -/
def bufNumbered (n : Nat) : Buf :=
  if n = 0 then .pkt else if n = 1 then .pay else if n = 2 then .phdr else .str

/-- The words whose `OPC` is `opc` decode as R61, R63 and R65 say: to the command that `cmd` gives for the selected
buffer, and to `FIELD_RESERVED` when `RSV` is not 0 or `cmd` permits no such `BSEL`. -/
def CommandEncoding (opc : Nat) (cmd : Buf → Option Instr) : Prop :=
  ∀ w : Half, wordOpc w = opc →
    decode w =
      if wordRsv w = 0 then
        match cmd (bufNumbered (wordBsel w)) with
        | some i => .ok i
        | none => .error .fieldReserved
      else .error .fieldReserved

/-- A command whose `BSEL` must select one buffer (R63). -/
def onlyWith (b : Buf) (i : Instr) (b' : Buf) : Option Instr := if b' = b then some i else none

/-! ### The rows of R26 and R64 -/

/-- The width of an `RW` register by its number (10_state.md R26); `none` for every number whose host write has no
effect on a register or triggers a command. -/
def rwWidth (rn : BitVec 8) : Option Nat :=
  (([(0x02, 1), (0x03, 16), (0x04, 16), (0x05, 16),
     (0x10, 4), (0x11, 4), (0x12, 8), (0x13, 16), (0x14, 16), (0x15, 16), (0x16, 8), (0x17, 8), (0x18, 16),
     (0x19, 32), (0x1A, 32),
     (0x20, 16), (0x21, 16), (0x22, 32), (0x23, 32), (0x24, 4), (0x25, 4), (0x26, 8), (0x27, 16), (0x28, 16),
     (0x29, 16)] : List (BitVec 8 × Nat)).find? fun p => p.1 == rn).map fun p => p.2

/-- The ten non-checksum IP registers with `IP_CSUM` (R12). -/
def ipRegs : List Reg :=
  [.ipVer, .ipIhl, .ipTos, .ipTlen, .ipId, .ipFrag, .ipTtl, .ipProto, .ipCsum, .ipSrc, .ipDst]

/-- The nine non-checksum TCP registers with `TCP_CSUM` (R14). -/
def tcpRegs : List Reg :=
  [.tcpSport, .tcpDport, .tcpSeq, .tcpAck, .tcpDoff, .tcpRsvd, .tcpFlags, .tcpWin, .tcpCsum, .tcpUrg]

/-- R64, "writes registers". -/
def writesRegs : Instr → List Reg
  | .nop => [.status]
  | .csumAcc _ => [.acc, .status]
  | .csumFin _ => [.acc, .result, .status]
  | .ipEnc _ => [.status]
  | .ipDec _ => ipRegs ++ [.nextOff, .status]
  | .ipCsum => [.ipCsum, .result, .status]
  | .ipVfy _ => [.valid, .status]
  | .tcpEnc _ => [.status]
  | .tcpDec _ => tcpRegs ++ [.nextOff, .status]
  | .tcpPsh => [.status]
  | .tcpCsum _ => [.tcpCsum, .result, .status]
  | .tcpVfy _ => [.valid, .status]
  | .tcpFstr => [.strLen, .status]
  | .asmIp => [.ipVer, .ipIhl, .ipTlen, .ipCsum, .outLen, .status]
  | .asmTcp => [.ipVer, .ipIhl, .ipTlen, .ipProto, .ipCsum, .tcpDoff, .tcpCsum, .outLen, .status]
  | .disasm _ => ipRegs ++ tcpRegs ++ [.valid, .slOff, .slLen, .status]
  | .rst => Reg.all

/-- R64, "writes buffer": buffer, first offset and number of bytes, computed from the state before the command. -/
def writesBytes (i : Instr) (s : State) : Option (Buf × Nat × Nat) :=
  match i with
  | .ipEnc b | .tcpEnc b => some (b, s.off.toNat, 20)
  | .tcpPsh => some (.phdr, 0, 12)
  | .tcpFstr => some (.str, 0, 24)
  | .asmIp => some (.pkt, 0, 20 + s.len.toNat)
  | .asmTcp => some (.pkt, 0, 40 + s.len.toNat)
  | .csumAcc _ | .csumFin _ | .ipDec _ | .ipCsum | .ipVfy _ | .tcpDec _ | .tcpCsum _ | .tcpVfy _
  | .disasm _ | .nop | .rst => none

/-- Offset `a` of buffer `b` is one of the bytes the command writes. -/
def inWrittenBytes (i : Instr) (s : State) (b : Buf) (a : Nat) : Bool :=
  match writesBytes i s with
  | some (b', off, n) => decide (b = b') && decide (off ≤ a) && decide (a < off + n)
  | none => false

/-- R64, "reads registers". -/
def readsRegs : Instr → List Reg
  | .nop | .rst => []
  | .csumAcc _ | .csumFin _ => [.off, .len, .acc]
  | .ipEnc _ => .off :: ipRegs
  | .ipDec _ | .tcpDec _ => [.off, .len]
  | .ipCsum => ipRegs.erase .ipCsum
  | .ipVfy _ => [.off, .len, .cfg]
  | .tcpEnc _ => .off :: tcpRegs
  | .tcpPsh => [.ipSrc, .ipDst, .ipProto, .len]
  | .tcpCsum _ => [.off, .len, .ipSrc, .ipDst] ++ tcpRegs.erase .tcpCsum
  | .tcpVfy _ => [.off, .len, .cfg, .ipSrc, .ipDst]
  | .tcpFstr => [.tcpFlags]
  | .asmIp => [.off, .len, .ipTos, .ipId, .ipFrag, .ipTtl, .ipProto, .ipSrc, .ipDst]
  | .asmTcp => [.off, .len, .ipTos, .ipId, .ipFrag, .ipTtl, .ipSrc, .ipDst, .tcpSport, .tcpDport, .tcpSeq, .tcpAck,
      .tcpRsvd, .tcpFlags, .tcpWin, .tcpUrg]
  | .disasm _ => [.off, .len, .cfg]

/-- R64, "reads buffer": the buffer whose region (`OFF`, `LEN`) the command reads. -/
def readsRegionOf : Instr → Option Buf
  | .csumAcc b | .csumFin b | .ipDec b | .ipVfy b | .tcpDec b | .tcpCsum b | .tcpVfy b | .disasm b => some b
  | .asmIp | .asmTcp => some .pay
  | .ipEnc _ | .ipCsum | .tcpEnc _ | .tcpPsh | .tcpFstr | .nop | .rst => none

/-- `s` and `t` agree on everything R64 lists as read by the command, and are instances with the same parameters. -/
structure SameInputs (i : Instr) (s t : State) : Prop where
  par : s.par = t.par
  regs : ∀ r ∈ readsRegs i, s.get r = t.get r
  bytes : ∀ b, readsRegionOf i = some b →
    ∀ k < s.len.toNat, s.byte b (s.off.toNat + k) = t.byte b (s.off.toNat + k)

/-- The bits of a written register that the command determines: `IP.VFY` and `TCP.VFY` write one bit of `VALID`
(10_state.md R18); every other register a command writes, it writes whole. -/
def determinedBits : Instr → Reg → Word
  | .ipVfy _, .valid => 0x1
  | .tcpVfy _, .valid => 0x2
  | _, _ => 0xFFFFFFFF

/-- `DISASM` writes the TCP registers only when it finds a TCP header (43_packet.md R176). -/
def skippedByDisasm (i : Instr) (r : Reg) (t : State) : Bool :=
  match i with
  | .disasm _ => tcpRegs.contains r && !t.valid.getLsbD 2
  | _ => false

/-! ### Rejections -/

/-- R204: the values of `STATUS` with which a decoded command can be rejected. -/
def rejections : Instr → List (BitVec 13)
  | .nop | .rst | .ipCsum | .tcpPsh | .tcpFstr => []
  | .csumAcc _ | .csumFin _ | .ipEnc _ | .tcpEnc _ => [0x0314]
  | .ipDec _ => [0x0314, 0x0011, 0x0022, 0x0032, 0x0042]
  | .ipVfy _ => [0x0314, 0x0011]
  | .tcpDec _ => [0x0314, 0x0111, 0x0132, 0x0142]
  | .tcpCsum _ => [0x0314, 0x0213]
  | .tcpVfy _ => [0x0314, 0x0111]
  | .asmIp | .asmTcp => [0x0314, 0x0213]
  | .disasm _ => [0x0314, 0x0011, 0x0022, 0x0032, 0x0042, 0x0052, 0x0061, 0x0111, 0x0132, 0x0142]

/-- The `STATUS` the checks of `ip_parse` (41_ip_codec.md R121) lead to, in their order; 0 when all pass. -/
def ipVerdict (bs : List Byte) : BitVec 13 :=
  if bs.length < 20 then 0x0011
  else if (rd8 bs 0).toNat / 16 ≠ 4 then 0x0022
  else if (rd8 bs 0).toNat % 16 < 5 then 0x0032
  else if bs.length < 4 * ((rd8 bs 0).toNat % 16) then 0x0042
  else 0

/-- The `STATUS` the checks of `tcp_parse` (42_tcp_codec.md R141) lead to, in their order; 0 when all pass. -/
def tcpVerdict (bs : List Byte) : BitVec 13 :=
  if bs.length < 20 then 0x0111
  else if (rd8 bs 12).toNat / 16 < 5 then 0x0132
  else if bs.length < 4 * ((rd8 bs 12).toNat / 16) then 0x0142
  else 0

/-- The `STATUS` of a validation that completed (10_state.md R19). -/
def vfyStatus (ok : Bool) : BitVec 13 := if ok then 0 else 0x1000

/-! ### Checksum arithmetic on natural numbers -/

/-- The 16-bit words of a region, a trailing odd byte padded with a zero low byte (40_checksum.md R91). -/
def paddedWords : List Byte → List Half
  | [] => []
  | [x] => [x ++ 0#8]
  | x :: y :: bs => (x ++ y) :: paddedWords bs

/-- The plain sum of the padded words (R93, R95). -/
def plainSum (bs : List Byte) : Nat := ((paddedWords bs).map fun w => w.toNat).sum

/-- Fold at the end: `while s >> 16 != 0: s = (s & 0xFFFF) + (s >> 16)` (R93), with at most `fuel` rounds. -/
def foldCarries : Nat → Nat → Nat
  | 0, s => s
  | fuel + 1, s => if s / 0x10000 = 0 then s else foldCarries fuel (s % 0x10000 + s / 0x10000)

/-- The sum over several regions, threaded (R94). -/
def threadedSum (regions : List (List Byte)) (init : Half) : Half := regions.foldl (fun a r => ocsum r a) init

/-- `bs` with bit `k` of the byte at index `i` flipped (R99). -/
def flipBit (bs : List Byte) (i k : Nat) : List Byte := bs.set i (rd8 bs i ^^^ BitVec.twoPow 8 k)

end Sys2Proof.Machine
end

