-- ==== Sys2Proof/Certificates/Slice0/Obligations.lean ====
section
/-! DEFINITION. The statements for the provers, each named for what it says. They come from the spec's numbered rules;
`exec i s = .next t` says that command `i` completes from `s` (by `done` or by a rejection) in `t`. -/

open Sys2Proof Sys2Proof.Machine

/-! ### Reset, the step, the host -/

/-- 10_state.md R30, 70_reset_and_hazards.md R230, R231: after hardware reset and after `RST` every register is 0; `RST`
leaves the buffers as they were; after hardware reset every buffer byte is UNSPECIFIED. That an UNSPECIFIED byte is the
free value `Config.unspecified`, drawn afresh at each reset, is the model's form of it (log entries 3 and 4). -/
def Obligations.ResetLeavesEveryRegisterZero : Prop :=
  (∀ (s : State) (rest : List HostStep), s.host = .hardReset :: rest →
    ∃ t, step s = .next t ∧ (∀ r, t.get r = 0) ∧ t.epoch ≠ s.epoch ∧
      (∀ b a, t.byte b a = Config.unspecified t.epoch b a) ∧ t.par = s.par ∧ t.host = rest) ∧
  (∀ s : State, ∃ t, exec .rst s = .next t ∧ (∀ r, t.get r = 0) ∧ ∀ b a, t.byte b a = s.byte b a) ∧
  (∀ (p : Params) (r : Reg), (State.resetWith p).get r = 0) ∧
  ∀ (p : Params) (b : Buf) (a : Nat), (State.resetWith p).byte b a = Config.unspecified (State.resetWith p).epoch b a

/-- The invariant holds after hardware reset, for every choice of the parameters that meets 00_scope.md R5. -/
def Obligations.ResetMeetsTheInvariant : Prop :=
  ∀ p : Params, p.Ok → (State.resetWith p).Inv

/-- Every step keeps the invariant: the buffers stay in canonical form and inside their sizes (20_memory.md R44, R58),
`STATUS` stays one of the values of 60_exceptions.md R203, `NEXT_OFF`, `SL_OFF`, `SL_LEN`, `OUT_LEN` and `STR_LEN` stay in
the ranges of 10_state.md R21 to R23. -/
def Obligations.StepKeepsTheInvariant : Prop :=
  ∀ s t : State, s.Inv → step s = .next t → t.Inv

/-- A host write to `CMD` executes the command its word decodes to, from the state with the word stored in `CMD` and the
host step taken (30_encoding.md R60, 10_state.md R24). A word that does not decode is rejected. -/
def Obligations.StepRunsTheDecodedCommand : Prop :=
  ∀ (s : State) (v : Word) (rest : List HostStep), s.host = .regWrite 0x00 v :: rest →
    (∀ i, decode (v.setWidth 16) = .ok i → step s = exec i { s with host := rest, cmd := v.setWidth 16 }) ∧
    (∀ e, decode (v.setWidth 16) = .error e →
      step s = .next { s with
        host := rest, cmd := v.setWidth 16, status := if e = .opcodeReserved then 0x0415 else 0x0425 })

/-- With no host step pending the block is idle, and a host read changes nothing but the list of pending steps
(70_reset_and_hazards.md R230, 20_memory.md R45, R46, R49). -/
def Obligations.IdleBlockAndReadsChangeNothing : Prop :=
  (∀ s : State, s.host = [] → step s = .next s) ∧
  (∀ (s : State) (rn : BitVec 8) (rest : List HostStep), s.host = .regRead rn :: rest →
    step s = .next { s with host := rest }) ∧
  ∀ (s : State) (b : Buf) (off : Half) (n : Nat) (rest : List HostStep), s.host = .bufRead b off n :: rest →
    step s = .next { s with host := rest }

/-- From every state every command and every step leads to a next state: there is no fault, no stuck state and no
refusal. That every command word does is 60_exceptions.md R207 and 70_reset_and_hazards.md R241, in the form of log
entry 12 (a rejection is a next state). That every step does rests on choices of the model beside them: it goes on after
a host buffer access that does not fit, which 20_memory.md R48 lets a model refuse (log entry 7), and it idles when no
host step is pending (log entry 5). -/
def Obligations.NothingEverStops : Prop :=
  (∀ (i : Instr) (s : State), ∃ t, exec i s = .next t) ∧ ∀ s : State, ∃ t, step s = .next t

/-- The parameters are fixed for the life of an instance (10_state.md R10). -/
def Obligations.StepKeepsTheParameters : Prop :=
  ∀ s t : State, step s = .next t → t.par = s.par

/-- 10_state.md R24: a write to `CMD` stores the low 16 bits, and a host read afterwards gives them back, except that
`RST` clears the register; the command's outcome is in `STATUS`. -/
def Obligations.CmdHoldsTheLastWord : Prop :=
  ∀ (s : State) (v : Word) (rest : List HostStep), s.host = .regWrite 0x00 v :: rest →
    ∃ t, step s = .next t ∧ t.host = rest ∧ t.status ∈ legalStatuses ∧
      t.hostRegRead 0x00 = if decode (v.setWidth 16) = .ok .rst then 0 else (v.setWidth 16).setWidth 32

/-- 10_state.md R11, 20_memory.md R46: a host write to a register other than `CMD` stores the value truncated to the
register's width if the register is `RW`, and does nothing to a register that is `RO` or to an unassigned number; no
other register, no buffer and no parameter changes; a read gives the register's value, below 2 to its width, and changes
nothing; unassigned numbers read 0. -/
def Obligations.HostRegisterAccess : Prop :=
  (∀ (s : State) (rn : BitVec 8) (v : Word) (rest : List HostStep), s.host = .regWrite rn v :: rest → rn ≠ 0x00 →
    ∃ t, step s = .next t ∧ t.host = rest ∧ t.bufs = s.bufs ∧ t.par = s.par ∧ t.epoch = s.epoch ∧
      ∀ rn', t.hostRegRead rn' =
        if rn' = rn then
          match rwWidth rn with
          | some w => BitVec.ofNat 32 (v.toNat % 2 ^ w)
          | none => s.hostRegRead rn'
        else s.hostRegRead rn') ∧
  (∀ (s : State) (r : Reg), s.hostRegRead r.num = s.get r ∧ (s.get r).toNat < 2 ^ r.width) ∧
  (∀ (s : State) (rn : BitVec 8) (rest : List HostStep), s.host = .regRead rn :: rest →
    step s = .next { s with host := rest }) ∧
  ∀ (s : State) (rn : BitVec 8),
    (0x0D ≤ rn.toNat ∧ rn.toNat ≤ 0x0F ∨ 0x1B ≤ rn.toNat ∧ rn.toNat ≤ 0x1F ∨ 0x2A ≤ rn.toNat) → s.hostRegRead rn = 0

/-- 20_memory.md R48, R49: a host buffer write inside the buffer stores its bytes and changes no other byte; one that
does not fit changes nothing; a read inside the buffer gives its bytes, one that does not fit is not performed, and
neither changes anything. That an access which does not fit is a next state with nothing changed is the model's choice
(log entry 7, DEDUCED): R48 lets a model refuse it and 70_reset_and_hazards.md R241 leaves it to the platform. -/
def Obligations.HostBufferAccess : Prop :=
  (∀ (s : State) (b : Buf) (off : Half) (bs : List Byte) (rest : List HostStep),
    s.host = .bufWrite b off bs :: rest →
      (off.toNat + bs.length ≤ s.size b →
        ∃ t, step s = .next t ∧ t = { s with host := rest, bufs := t.bufs } ∧ storesAt s t b off.toNat bs) ∧
      (s.size b < off.toNat + bs.length → step s = .next { s with host := rest })) ∧
  ∀ (s : State) (b : Buf) (off : Half) (n : Nat),
    (off.toNat + n ≤ s.size b →
      ∃ bs, s.hostBufRead b off n = some bs ∧ bs.length = n ∧ ∀ k < n, rd8 bs k = s.byte b (off.toNat + k)) ∧
    (s.size b < off.toNat + n → s.hostBufRead b off n = none) ∧
    ∀ rest, s.host = .bufRead b off n :: rest → step s = .next { s with host := rest }

/-! ### Decoding -/

/-- Decoding and encoding are inverse: a word decodes to a command exactly if it is that command's encoding
(30_encoding.md R61 to R65). -/
def Obligations.DecodeEncodeAgree : Prop :=
  ∀ (w : Half) (i : Instr), decode w = .ok i ↔ w = encode i

/-- 30_encoding.md R65: every word that is not well formed is illegal, with cause 0x41 if its opcode is unassigned and
0x42 otherwise, and nothing but `STATUS` (beside `CMD` itself) changes; every well-formed word decodes. -/
def Obligations.IllegalWordsAreRejectedByCause : Prop :=
  ∀ w : Half,
    (opcAssigned (wordOpc w) = false → decode w = .error .opcodeReserved) ∧
    (opcAssigned (wordOpc w) = true → wordWellFormed w = false → decode w = .error .fieldReserved) ∧
    (wordWellFormed w = true → ∃ i, decode w = .ok i) ∧
    ∀ (s : State) (rest : List HostStep), s.host = .regWrite 0x00 (w.setWidth 32) :: rest → wordWellFormed w = false →
      step s = .next { s with
        host := rest, cmd := w, status := if opcAssigned (wordOpc w) then 0x0425 else 0x0415 }

/-- A few words written out from 30_encoding.md R61 to R63, with the commands they stand for. -/
def Obligations.SampleWordsDecode : Prop :=
  decode 0b0000001000000001 = .ok (.csumAcc .phdr) ∧ decode 0b0000000100000010 = .ok (.csumFin .pay) ∧
  decode 0b0000001100010000 = .ok (.ipEnc .str) ∧ decode 0b0000000000010010 = .ok .ipCsum ∧
  decode 0b0000000100100001 = .ok (.tcpDec .pay) ∧ decode 0b0000000000100101 = .ok .tcpFstr ∧
  decode 0b0000000100110001 = .ok .asmTcp ∧ decode 0b0000000000110010 = .ok (.disasm .pkt) ∧
  decode 0b0000000000000000 = .ok .nop ∧ decode 0b0000000000111111 = .ok .rst

/-! ### What holds of every command -/

/-- 60_exceptions.md R200: a command that ends with `CODE` ≠ 0 has changed nothing but `STATUS`, whose `MISMATCH` is 0 and
whose `CODE` and `CAUSE` are one of the pairs of R203; so has a command word that does not decode, beside `CMD`. -/
def Obligations.RejectionWritesStatusOnly : Prop :=
  (∀ (i : Instr) (s t : State), exec i s = .next t → statusCode t.status ≠ 0 →
    t = { s with status := t.status } ∧ statusMismatch t.status = false ∧ ∃ c : Cause,
      statusCause t.status = c.num ∧ statusCode t.status = c.code) ∧
  ∀ (w : Half) (e : DecodeError) (s : State), decode w = .error e →
    ∃ t, runCommandWord w s = .next t ∧ t = { s with cmd := w, status := t.status } ∧
      statusMismatch t.status = false ∧ statusCode t.status = 5 ∧
      statusCause t.status = if e = .opcodeReserved then 0x41 else 0x42

/-- 60_exceptions.md R204: a command is rejected only with the codes and causes listed for it, and a command that is not
rejected leaves 0 or `MISMATCH` alone in `STATUS`. -/
def Obligations.RejectionsAreThoseListed : Prop :=
  ∀ (i : Instr) (s t : State), exec i s = .next t →
    (statusCode t.status ≠ 0 → t.status ∈ rejections i) ∧
    (statusCode t.status = 0 → t.status = 0x0000 ∨ t.status = 0x1000)

/-- 60_exceptions.md R205: only `IP.VFY`, `TCP.VFY` and `DISASM` set `MISMATCH`; it comes with `CODE` = 0, and it says that a
checksum the command validated failed, as `VALID` shows in detail. -/
def Obligations.MismatchOnlyFromValidation : Prop :=
  ∀ (i : Instr) (s t : State), exec i s = .next t →
    (statusMismatch t.status = true →
      statusCode t.status = 0 ∧ statusCause t.status = 0 ∧
      ∃ b, i = .ipVfy b ∨ i = .tcpVfy b ∨ i = .disasm b) ∧
    (statusCode t.status = 0 → ∀ b,
      (i = .ipVfy b → statusMismatch t.status = !t.valid.getLsbD 0) ∧
      (i = .tcpVfy b → statusMismatch t.status = !t.valid.getLsbD 1) ∧
      (i = .disasm b →
        statusMismatch t.status = (!t.valid.getLsbD 0 || (t.valid.getLsbD 2 && !t.valid.getLsbD 1))))

/-- 10_state.md R19, R28: `STATUS` is overwritten whole by every command and read by none. -/
def Obligations.StatusIsOverwrittenAndNeverRead : Prop :=
  ∀ (i : Instr) (s : State) (st : BitVec 13), exec i { s with status := st } = exec i s

/-- 20_memory.md R58, 30_encoding.md R64, the frame of all 17 commands: a register the command's row does not list, and a
buffer byte outside the bytes the row names, keep their values; `DISASM` without a TCP header keeps the TCP registers; a
rejected command writes no buffer byte; the parameters and the host's pending steps stay. -/
def Obligations.CommandsWriteOnlyWhatTheyName : Prop :=
  ∀ (i : Instr) (s t : State), exec i s = .next t →
    (∀ r, r ∉ writesRegs i → t.get r = s.get r) ∧
    (∀ r, skippedByDisasm i r t = true → t.get r = s.get r) ∧
    (∀ b a, inWrittenBytes i s b a = false → t.byte b a = s.byte b a) ∧
    (statusCode t.status ≠ 0 → ∀ b a, t.byte b a = s.byte b a) ∧
    t.par = s.par ∧ t.epoch = s.epoch ∧ t.host = s.host

/-- 10_state.md R39: each command is a function of its listed inputs only. Two states that agree on the registers and
buffer bytes 30_encoding.md R64 lists as read give the same `STATUS`, and, when the command completes, the same values in
every register and buffer byte it writes. -/
def Obligations.CommandsDependOnListedInputsOnly : Prop :=
  ∀ (i : Instr) (s t s' t' : State), SameInputs i s t → exec i s = .next s' → exec i t = .next t' →
    s'.status = t'.status ∧
    (statusCode s'.status = 0 →
      (∀ r ∈ writesRegs i, skippedByDisasm i r s' = false →
        s'.get r &&& determinedBits i r = t'.get r &&& determinedBits i r) ∧
      ∀ b a, inWrittenBytes i s b a = true → s'.byte b a = t'.byte b a)

/-! ### The checksum engine -/

/-- 40_checksum.md R90: the carry-out is added back once, and the result fits 16 bits. -/
def Obligations.OcaddAddsTheCarryBack : Prop :=
  ∀ a b : Half, (ocadd a b).toNat =
    if a.toNat + b.toNat < 0x10000 then a.toNat + b.toNat else a.toNat + b.toNat - 0x10000 + 1

/-- 40_checksum.md R91: the region sum is the loop over the even indices, then the trailing byte of an odd region as the
high byte of a last word. -/
def Obligations.OcsumIsTheLoopOverWords : Prop :=
  ∀ (bs : List Byte) (init : Half),
    ocsum bs init =
      let acc := (List.range (bs.length / 2)).foldl (fun a k => ocadd a (rd16 bs (2 * k))) init
      if bs.length % 2 = 1 then ocadd acc (rd8 bs (bs.length - 1) ++ 0#8) else acc

/-- 40_checksum.md R92: the checksum is the complement of the sum. -/
def Obligations.CksumIsTheComplement : Prop :=
  (∀ (bs : List Byte) (init : Half), (cksum bs init).toNat = 0xFFFF - (ocsum bs init).toNat) ∧
  (cksum [] 0).toNat = 0xFFFF

/-- 40_checksum.md R97: the two formulations of validation. -/
def Obligations.ValidationHasTwoFormulations : Prop :=
  ∀ (bs : List Byte) (init : Half) (f : Nat), f % 2 = 0 → f + 2 ≤ bs.length →
    (∃ bz : List Byte, bz.length = bs.length ∧
      (∀ k, rd8 bz k = if k = f ∨ k = f + 1 then 0 else rd8 bs k) ∧
      (csumValid bs init f 0 = true ↔ (ocsum bz init).toNat + (rd16 bs f).toNat = 0xFFFF)) ∧
    (csumValid bs init f 1 = true ↔ ocsum bs init = 0xFFFF)

/-- 40_checksum.md R95: the eight laws of one's-complement addition and of the region sum. -/
def Obligations.OnesComplementLaws : Prop :=
  (∀ a b : Half, ocadd a b = ocadd b a) ∧
  (∀ a b c : Half, ocadd (ocadd a b) c = ocadd a (ocadd b c)) ∧
  (∀ a : Half, ocadd a 0 = a) ∧
  (∀ a : Half, ocadd a 0xFFFF = if a = 0 then 0xFFFF else a) ∧
  (∀ a b : Half, ocadd a b = 0 ↔ a = 0 ∧ b = 0) ∧
  (∀ a : Half, ocadd a (~~~ a) = 0xFFFF ∧ a.toNat + (~~~ a).toNat < 0x10000) ∧
  (∀ (bs : List Byte) (init : Half),
    (ocsum bs init = 0 ↔ init = 0 ∧ ∀ x ∈ bs, x = 0) ∧
    (ocsum bs init ≠ 0 → ∀ v : Nat, 1 ≤ v → v ≤ 0xFFFF →
      (v % 0xFFFF = (init.toNat + plainSum bs) % 0xFFFF ↔ v = (ocsum bs init).toNat))) ∧
  (∀ (ws ws' : List Half) (init : Half), ws.Perm ws' → ws.foldl ocadd init = ws'.foldl ocadd init) ∧
  (∀ (bs : List Byte) (init : Half),
    ocsum bs init = (paddedWords bs).foldl ocadd init ∧ ocsum bs init = ocadd (ocsum bs 0) init) ∧
  ∀ (r1 r2 : List Byte) (init : Half), ocsum r1 (ocsum r2 init) = ocsum r2 (ocsum r1 init)

/-- 40_checksum.md R93: adding everything first and folding at the end gives the same sum. -/
def Obligations.DeferredFoldingIsEquivalent : Prop :=
  ∀ (bs : List Byte) (init : Half),
    foldCarries (init.toNat + plainSum bs) (init.toNat + plainSum bs) = (ocsum bs init).toNat

/-- 40_checksum.md R94: threading the sum over regions is the sum of the concatenation if every region but the last has
even length, and not in general. -/
def Obligations.ThreadedSumOverRegions : Prop :=
  (∀ (rs : List (List Byte)) (last : List Byte) (init : Half), (∀ r ∈ rs, r.length % 2 = 0) →
    threadedSum (rs ++ [last]) init = ocsum (rs.flatten ++ last) init) ∧
  threadedSum [[0x01, 0x02, 0x03], [0x04, 0x05]] 0 = 0x0807 ∧ ocsum [0x01, 0x02, 0x03, 0x04, 0x05] 0 = 0x0906

/-- 40_checksum.md R98: how the two formulations relate. Recompute-and-compare implies sum-to-all-ones, and the one case
where only the latter accepts is a sum of 0xFFFF with a stored field of 0xFFFF. -/
def Obligations.ValidationModesDifferAtOnePoint : Prop :=
  ∀ (bs : List Byte) (init : Half) (f : Nat), f % 2 = 0 → f + 2 ≤ bs.length →
    (csumValid bs init f 0 = true ↔ rd16 bs f = ~~~ ocsum (zeroField bs f) init) ∧
    (csumValid bs init f 1 = true ↔ ocadd (ocsum (zeroField bs f) init) (rd16 bs f) = 0xFFFF) ∧
    (csumValid bs init f 0 = true → csumValid bs init f 1 = true) ∧
    (csumValid bs init f 1 = true ∧ csumValid bs init f 0 = false ↔
      ocsum (zeroField bs f) init = 0xFFFF ∧ rd16 bs f = 0xFFFF)

/-- 40_checksum.md R99: flipping one bit of the summed bytes outside the checksum field always changes the sum, and makes
a region that validated fail, in both modes. -/
def Obligations.SingleBitFlipIsDetected : Prop :=
  ∀ (bs : List Byte) (init : Half) (f i k : Nat) (mode : BitVec 1),
    f % 2 = 0 → f + 2 ≤ bs.length → i < bs.length → k < 8 → i ≠ f → i ≠ f + 1 →
    ocsum (flipBit bs i k) init ≠ ocsum bs init ∧
    (csumValid bs init f mode = true → csumValid (flipBit bs i k) init f mode = false)

/-- 40_checksum.md R100, `CSUM.ACC`. -/
def Obligations.CsumAccAddsTheRegionToAcc : Prop :=
  CommandEncoding 0x01 (fun b => some (.csumAcc b)) ∧
  ∀ (b : Buf) (s : State),
    (s.off.toNat + s.len.toNat ≤ s.size b →
      exec (.csumAcc b) s =
        .next { s with acc := ocsum (s.memRead b s.off.toNat s.len.toNat) s.acc, status := 0 }) ∧
    (s.size b < s.off.toNat + s.len.toNat → exec (.csumAcc b) s = .next { s with status := 0x0314 })

/-- 40_checksum.md R101, `CSUM.FIN`. -/
def Obligations.CsumFinDeliversTheChecksum : Prop :=
  CommandEncoding 0x02 (fun b => some (.csumFin b)) ∧
  ∀ (b : Buf) (s : State),
    (s.off.toNat + s.len.toNat ≤ s.size b →
      exec (.csumFin b) s =
        .next { s with
          acc := ocsum (s.memRead b s.off.toNat s.len.toNat) s.acc
          result := ~~~ ocsum (s.memRead b s.off.toNat s.len.toNat) s.acc
          status := 0 }) ∧
    (s.size b < s.off.toNat + s.len.toNat → exec (.csumFin b) s = .next { s with status := 0x0314 })

/-- 30_encoding.md R68: the pseudo-instruction `CHECKSUM` leaves the source's `checksum(bytes, initial)` in `RESULT`. -/
def Obligations.ChecksumPseudoInstruction : Prop :=
  ∀ (s : State) (b : Buf) (off len init : Half) (rest : List HostStep),
    s.host = pseudoChecksum b (off.setWidth 32) (len.setWidth 32) (init.setWidth 32) ++ rest →
    off.toNat + len.toNat ≤ s.size b →
    ∃ t : State, Host.Core.run Sys2Proof.core 4 s = .next t ∧
      t.result = cksum (s.memRead b off.toNat len.toNat) init ∧
      t.acc = ocsum (s.memRead b off.toNat len.toNat) init ∧
      t.status = 0 ∧ t.bufs = s.bufs ∧ t.host = rest

/-! ### The IP header codec -/

/-- 30_encoding.md R70, 41_ip_codec.md R120: the 20 bytes of a serialised IP header, field by field in big-endian order,
whatever the field values are; reading the fields back restores them. That version is the high nibble of byte 0 is the
spec's own addition, "from general knowledge, not in source" (30_encoding.md R71, log entry 10). -/
def Obligations.IpHeaderWireFormat : Prop :=
  ∀ (h : IpHeader) (c : Half),
    let bs := ipSer h c
    let n := fun k => (rd8 bs k).toNat
    bs.length = 20 ∧
    n 0 = 16 * h.ver.toNat + h.ihl.toNat ∧ n 1 = h.tos.toNat ∧
    256 * n 2 + n 3 = h.tlen.toNat ∧ 256 * n 4 + n 5 = h.ident.toNat ∧ 256 * n 6 + n 7 = h.frag.toNat ∧
    n 8 = h.ttl.toNat ∧ n 9 = h.proto.toNat ∧ 256 * n 10 + n 11 = c.toNat ∧
    0x1000000 * n 12 + 0x10000 * n 13 + 256 * n 14 + n 15 = h.src.toNat ∧
    0x1000000 * n 16 + 0x10000 * n 17 + 256 * n 18 + n 19 = h.dst.toNat ∧
    ipFields bs = h ∧ rd16 bs 10 = c

/-- 41_ip_codec.md R123, `IP.ENC`. -/
def Obligations.IpEncStoresTheHeader : Prop :=
  CommandEncoding 0x10 (fun b => some (.ipEnc b)) ∧
  ∀ (b : Buf) (s : State),
    (s.off.toNat + 20 ≤ s.size b →
      ∃ t, exec (.ipEnc b) s = .next t ∧ onlyBuffersChanged s t 0 ∧
        storesAt s t b s.off.toNat (ipSer s.ip s.ipCsum)) ∧
    (s.size b < s.off.toNat + 20 → exec (.ipEnc b) s = .next { s with status := 0x0314 })

/-- 41_ip_codec.md R124, `IP.DEC`, with the checks of R121 in their order. That version is the high nibble of byte 0 and
header length the low one, which `ipVerdict` and `NEXT_OFF` write out, is the spec's own addition, "from general
knowledge, not in source" (30_encoding.md R71), and a choice the model carries as PRESUMED (log entry 10). -/
def Obligations.IpDecLoadsTheHeader : Prop :=
  CommandEncoding 0x11 (fun b => some (.ipDec b)) ∧
  ∀ (b : Buf) (s : State),
    let bs := s.memRead b s.off.toNat s.len.toNat
    (s.off.toNat + s.len.toNat ≤ s.size b → ipVerdict bs = 0 →
      exec (.ipDec b) s =
        .next { s with
          ip := ipFields bs
          ipCsum := rd16 bs 10
          nextOff := BitVec.ofNat 16 (4 * ((rd8 bs 0).toNat % 16))
          status := 0 }) ∧
    (s.off.toNat + s.len.toNat ≤ s.size b → ipVerdict bs ≠ 0 →
      exec (.ipDec b) s = .next { s with status := ipVerdict bs }) ∧
    (s.size b < s.off.toNat + s.len.toNat → exec (.ipDec b) s = .next { s with status := 0x0314 })

/-- 41_ip_codec.md R126, `IP.CSUM`. -/
def Obligations.IpCsumComputesTheHeaderChecksum : Prop :=
  CommandEncoding 0x12 (onlyWith .pkt .ipCsum) ∧
  ∀ s : State, exec .ipCsum s =
    .next { s with
      ipCsum := ~~~ ocsum (ipSer s.ip 0) 0
      result := ~~~ ocsum (ipSer s.ip 0) 0
      status := 0 }

/-- 41_ip_codec.md R127, `IP.VFY`. -/
def Obligations.IpVfyReportsTheVerdict : Prop :=
  CommandEncoding 0x13 (fun b => some (.ipVfy b)) ∧
  ∀ (b : Buf) (s : State),
    let ok := csumValid (s.memRead b s.off.toNat s.len.toNat) 0 10 s.cfg
    (s.off.toNat + s.len.toNat ≤ s.size b → 20 ≤ s.len.toNat →
      exec (.ipVfy b) s =
        .next { s with valid := (s.valid &&& 6) ||| (if ok then 1 else 0), status := vfyStatus ok }) ∧
    (s.off.toNat + s.len.toNat ≤ s.size b → s.len.toNat < 20 →
      exec (.ipVfy b) s = .next { s with status := 0x0011 }) ∧
    (s.size b < s.off.toNat + s.len.toNat → exec (.ipVfy b) s = .next { s with status := 0x0314 })

/-- 41_ip_codec.md R125: encoding then decoding restores every IP register, for option-free headers and for any header
length the supplied length allows; a header that breaks the decoder's checks is encoded and then rejected; and decoding an
accepted 20-byte header then encoding it reproduces every byte. -/
def Obligations.IpHeaderRoundTrip : Prop :=
  (∀ (b : Buf) (s : State) (n : Half),
    s.off.toNat + 20 ≤ s.size b → 20 ≤ n.toNat → s.off.toNat + n.toNat ≤ s.size b →
    ∃ t, exec (.ipEnc b) s = .next t ∧ t.ip = s.ip ∧ t.ipCsum = s.ipCsum ∧
      (s.ip.ver = 4 → 5 ≤ s.ip.ihl.toNat → 4 * s.ip.ihl.toNat ≤ n.toNat →
        exec (.ipDec b) { t with len := n } =
          .next { t with len := n, nextOff := BitVec.ofNat 16 (4 * s.ip.ihl.toNat), status := 0 }) ∧
      (s.ip.ver = 4 → n.toNat < 4 * s.ip.ihl.toNat →
        exec (.ipDec b) { t with len := n } = .next { t with len := n, status := 0x0042 }) ∧
      (s.ip.ver ≠ 4 → exec (.ipDec b) { t with len := n } = .next { t with len := n, status := 0x0022 }) ∧
      (s.ip.ver = 4 → s.ip.ihl.toNat < 5 →
        exec (.ipDec b) { t with len := n } = .next { t with len := n, status := 0x0032 })) ∧
  ∀ (b : Buf) (s : State), s.off.toNat + 20 ≤ s.size b → s.len = 20 →
    ipVerdict (s.memRead b s.off.toNat 20) = 0 →
    ∃ t u, exec (.ipDec b) s = .next t ∧ exec (.ipEnc b) t = .next u ∧ ∀ b' a, u.byte b' a = s.byte b' a

/-! ### The TCP header codec -/

/-- 30_encoding.md R72, 42_tcp_codec.md R140: the 20 bytes of a serialised TCP header, field by field in big-endian order;
reading the fields back restores them, flags byte and reserved bits included. That the data offset is the high nibble of
byte 12 is the spec's own addition, "from general knowledge, not in source" (30_encoding.md R73, log entry 10). -/
def Obligations.TcpHeaderWireFormat : Prop :=
  ∀ (h : TcpHeader) (c : Half),
    let bs := tcpSer h c
    let n := fun k => (rd8 bs k).toNat
    bs.length = 20 ∧
    256 * n 0 + n 1 = h.sport.toNat ∧ 256 * n 2 + n 3 = h.dport.toNat ∧
    0x1000000 * n 4 + 0x10000 * n 5 + 256 * n 6 + n 7 = h.seq.toNat ∧
    0x1000000 * n 8 + 0x10000 * n 9 + 256 * n 10 + n 11 = h.ack.toNat ∧
    n 12 = 16 * h.doff.toNat + h.rsvd.toNat ∧ n 13 = h.flags.toNat ∧
    256 * n 14 + n 15 = h.win.toNat ∧ 256 * n 16 + n 17 = c.toNat ∧ 256 * n 18 + n 19 = h.urg.toNat ∧
    tcpFields bs = h ∧ rd16 bs 16 = c

/-- 30_encoding.md R74: the 12 bytes of the pseudo-header. -/
def Obligations.PseudoHeaderFormat : Prop :=
  ∀ (src dst : Word) (proto : Byte) (seglen : Half),
    let bs := pseudo src dst proto seglen
    let n := fun k => (rd8 bs k).toNat
    bs.length = 12 ∧
    0x1000000 * n 0 + 0x10000 * n 1 + 256 * n 2 + n 3 = src.toNat ∧
    0x1000000 * n 4 + 0x10000 * n 5 + 256 * n 6 + n 7 = dst.toNat ∧
    n 8 = 0 ∧ n 9 = proto.toNat ∧ 256 * n 10 + n 11 = seglen.toNat

/-- 42_tcp_codec.md R155, 30_encoding.md R75: the string is the names of the set flags in alphabetical order joined by
`+`, empty if none is set; bits 7:6 contribute nothing; its length is four times the number of names, less one. -/
def Obligations.FlagStringListsTheSetFlags : Prop :=
  ∀ f : Byte,
    let names := ([("ACK", 0x10#8), ("FIN", 0x01#8), ("PSH", 0x08#8), ("RST", 0x04#8), ("SYN", 0x02#8),
        ("URG", 0x20#8)] : List (String × Byte)).filter fun p => f &&& p.2 != 0
    flagsStr f =
      (List.intercalate ['+'] (names.map fun p => p.1.toList)).map (fun ch => BitVec.ofNat 8 ch.toNat) ∧
    (flagsStr f).length = 4 * names.length - 1 ∧
    flagsStr f = flagsStr (f &&& 0x3F)

/-- 42_tcp_codec.md R143, `TCP.ENC`. -/
def Obligations.TcpEncStoresTheHeader : Prop :=
  CommandEncoding 0x20 (fun b => some (.tcpEnc b)) ∧
  ∀ (b : Buf) (s : State),
    (s.off.toNat + 20 ≤ s.size b →
      ∃ t, exec (.tcpEnc b) s = .next t ∧ onlyBuffersChanged s t 0 ∧
        storesAt s t b s.off.toNat (tcpSer s.tcp s.tcpCsum)) ∧
    (s.size b < s.off.toNat + 20 → exec (.tcpEnc b) s = .next { s with status := 0x0314 })

/-- 42_tcp_codec.md R144, `TCP.DEC`, with the checks of R141 in their order. That the data offset is the high nibble of
byte 12, which `tcpVerdict` and `NEXT_OFF` write out, is the spec's own addition, "from general knowledge, not in source"
(30_encoding.md R73), and a choice the model carries as PRESUMED (log entry 10). -/
def Obligations.TcpDecLoadsTheHeader : Prop :=
  CommandEncoding 0x21 (fun b => some (.tcpDec b)) ∧
  ∀ (b : Buf) (s : State),
    let bs := s.memRead b s.off.toNat s.len.toNat
    (s.off.toNat + s.len.toNat ≤ s.size b → tcpVerdict bs = 0 →
      exec (.tcpDec b) s =
        .next { s with
          tcp := tcpFields bs
          tcpCsum := rd16 bs 16
          nextOff := BitVec.ofNat 16 (4 * ((rd8 bs 12).toNat / 16))
          status := 0 }) ∧
    (s.off.toNat + s.len.toNat ≤ s.size b → tcpVerdict bs ≠ 0 →
      exec (.tcpDec b) s = .next { s with status := tcpVerdict bs }) ∧
    (s.size b < s.off.toNat + s.len.toNat → exec (.tcpDec b) s = .next { s with status := 0x0314 })

/-- 42_tcp_codec.md R150, `TCP.PSH`. -/
def Obligations.TcpPshStoresThePseudoHeader : Prop :=
  CommandEncoding 0x22 (onlyWith .pkt .tcpPsh) ∧
  ∀ s : State, ∃ t, exec .tcpPsh s = .next t ∧ onlyBuffersChanged s t 0 ∧
    storesAt s t .phdr 0 (pseudo s.ip.src s.ip.dst s.ip.proto s.len)

/-- 42_tcp_codec.md R152, `TCP.CSUM`, with `tcp_cksum` of R142 written out: pseudo-header, header with its checksum field
zeroed, payload. -/
def Obligations.TcpCsumComputesTheSegmentChecksum : Prop :=
  CommandEncoding 0x23 (fun b => some (.tcpCsum b)) ∧
  ∀ (b : Buf) (s : State),
    let c := ~~~ ocsum (s.memRead b s.off.toNat s.len.toNat)
      (ocsum (tcpSer s.tcp 0)
        (ocsum (pseudo s.ip.src s.ip.dst s.par.protoTcp (BitVec.ofNat 16 (20 + s.len.toNat))) 0))
    (s.off.toNat + s.len.toNat ≤ s.size b → 20 + s.len.toNat ≤ 0xFFFF →
      exec (.tcpCsum b) s = .next { s with tcpCsum := c, result := c, status := 0 }) ∧
    (s.off.toNat + s.len.toNat ≤ s.size b → 0xFFFF < 20 + s.len.toNat →
      exec (.tcpCsum b) s = .next { s with status := 0x0213 }) ∧
    (s.size b < s.off.toNat + s.len.toNat → exec (.tcpCsum b) s = .next { s with status := 0x0314 })

/-- 42_tcp_codec.md R153, `TCP.VFY`. -/
def Obligations.TcpVfyReportsTheVerdict : Prop :=
  CommandEncoding 0x24 (fun b => some (.tcpVfy b)) ∧
  ∀ (b : Buf) (s : State),
    let init := ocsum (pseudo s.ip.src s.ip.dst s.par.protoTcp s.len) 0
    let ok := csumValid (s.memRead b s.off.toNat s.len.toNat) init 16 s.cfg
    (s.off.toNat + s.len.toNat ≤ s.size b → 20 ≤ s.len.toNat →
      exec (.tcpVfy b) s =
        .next { s with valid := (s.valid &&& 5) ||| (if ok then 2 else 0), status := vfyStatus ok }) ∧
    (s.off.toNat + s.len.toNat ≤ s.size b → s.len.toNat < 20 →
      exec (.tcpVfy b) s = .next { s with status := 0x0111 }) ∧
    (s.size b < s.off.toNat + s.len.toNat → exec (.tcpVfy b) s = .next { s with status := 0x0314 })

/-- 42_tcp_codec.md R156, `TCP.FSTR`. -/
def Obligations.TcpFstrStoresTheFlagString : Prop :=
  CommandEncoding 0x25 (onlyWith .pkt .tcpFstr) ∧
  ∀ s : State,
    let str := flagsStr s.tcp.flags
    str.length ≤ 23 ∧
    ∃ t, exec .tcpFstr s = .next t ∧
      t = { s with strLen := BitVec.ofNat 5 str.length, status := 0, bufs := t.bufs } ∧
      storesAt s t .str 0 (str ++ List.replicate (24 - str.length) 0)

/-- 42_tcp_codec.md R145: encoding then decoding restores every TCP register, flags and reserved bits included; a data
offset below 5, or beyond the supplied length, is encoded and then rejected; and decoding an accepted 20-byte header then
encoding it reproduces every byte. -/
def Obligations.TcpHeaderRoundTrip : Prop :=
  (∀ (b : Buf) (s : State) (n : Half),
    s.off.toNat + 20 ≤ s.size b → 20 ≤ n.toNat → s.off.toNat + n.toNat ≤ s.size b →
    ∃ t, exec (.tcpEnc b) s = .next t ∧ t.tcp = s.tcp ∧ t.tcpCsum = s.tcpCsum ∧
      (5 ≤ s.tcp.doff.toNat → 4 * s.tcp.doff.toNat ≤ n.toNat →
        exec (.tcpDec b) { t with len := n } =
          .next { t with len := n, nextOff := BitVec.ofNat 16 (4 * s.tcp.doff.toNat), status := 0 }) ∧
      (n.toNat < 4 * s.tcp.doff.toNat →
        exec (.tcpDec b) { t with len := n } = .next { t with len := n, status := 0x0142 }) ∧
      (s.tcp.doff.toNat < 5 →
        exec (.tcpDec b) { t with len := n } = .next { t with len := n, status := 0x0132 })) ∧
  ∀ (b : Buf) (s : State), s.off.toNat + 20 ≤ s.size b → s.len = 20 →
    tcpVerdict (s.memRead b s.off.toNat 20) = 0 →
    ∃ t u, exec (.tcpDec b) s = .next t ∧ exec (.tcpEnc b) t = .next u ∧ ∀ b' a, u.byte b' a = s.byte b' a

/-! ### The packet assembler and disassembler -/

/-- 43_packet.md R172, `ASM.IP`. -/
def Obligations.AsmIpAssemblesThePacket : Prop :=
  CommandEncoding 0x30 (onlyWith .pay .asmIp) ∧
  ∀ s : State,
    let n := s.len.toNat
    let h := { s.ip with ver := 4, ihl := 5, tlen := BitVec.ofNat 16 (20 + n) }
    let c := ~~~ ocsum (ipSer h 0) 0
    (s.off.toNat + n ≤ s.par.paySize → 20 + n ≤ s.par.maxUnit →
      ∃ t, exec .asmIp s = .next t ∧
        t = { s with ip := h, ipCsum := c, outLen := BitVec.ofNat 16 (20 + n), status := 0, bufs := t.bufs } ∧
        storesAt s t .pkt 0 (ipSer h c ++ s.memRead .pay s.off.toNat n) ∧
        (s.par.Ok → 20 + n ≤ s.size .pkt)) ∧
    (s.off.toNat + n ≤ s.par.paySize → s.par.maxUnit < 20 + n →
      exec .asmIp s = .next { s with status := 0x0213 }) ∧
    (s.par.paySize < s.off.toNat + n → exec .asmIp s = .next { s with status := 0x0314 })

/-- 43_packet.md R174, `ASM.TCP`: the segment, with its checksum computed first, is the payload of an IP packet. -/
def Obligations.AsmTcpAssemblesTheSegmentInAPacket : Prop :=
  CommandEncoding 0x31 (onlyWith .pay .asmTcp) ∧
  ∀ s : State,
    let n := s.len.toNat
    let pay := s.memRead .pay s.off.toNat n
    let t := { s.tcp with doff := 5 }
    let tc := ~~~ ocsum pay (ocsum (tcpSer t 0)
      (ocsum (pseudo s.ip.src s.ip.dst s.par.protoTcp (BitVec.ofNat 16 (20 + n))) 0))
    let h := { s.ip with ver := 4, ihl := 5, proto := s.par.protoTcp, tlen := BitVec.ofNat 16 (40 + n) }
    let c := ~~~ ocsum (ipSer h 0) 0
    (s.off.toNat + n ≤ s.par.paySize → 40 + n ≤ s.par.maxUnit →
      ∃ u, exec .asmTcp s = .next u ∧
        u = { s with
          tcp := t, tcpCsum := tc, ip := h, ipCsum := c, outLen := BitVec.ofNat 16 (40 + n), status := 0,
          bufs := u.bufs } ∧
        storesAt s u .pkt 0 (ipSer h c ++ tcpSer t tc ++ pay) ∧
        (s.par.Ok → 40 + n ≤ s.size .pkt)) ∧
    (s.off.toNat + n ≤ s.par.paySize → s.par.maxUnit < 40 + n →
      exec .asmTcp s = .next { s with status := 0x0213 }) ∧
    (s.par.paySize < s.off.toNat + n → exec .asmTcp s = .next { s with status := 0x0314 })

/-- 43_packet.md R176, the rejections of `DISASM` in their order, each leaving everything but `STATUS` as it was, with its
encoding. The nibble order of bytes 0 and 12, which `ipVerdict` and `tcpVerdict` write out, is the spec's own addition,
"from general knowledge, not in source" (30_encoding.md R71, R73), and a choice the model carries as PRESUMED (log
entry 10). -/
def Obligations.DisasmRejectsInOrder : Prop :=
  CommandEncoding 0x32 (fun b => some (.disasm b)) ∧
  ∀ (b : Buf) (s : State),
    let n := s.len.toNat
    let bs := s.memRead b s.off.toNat n
    let h := ipFields bs
    let hl := 4 * h.ihl.toNat
    (s.size b < s.off.toNat + n → exec (.disasm b) s = .next { s with status := 0x0314 }) ∧
    (s.off.toNat + n ≤ s.size b → ipVerdict bs ≠ 0 → exec (.disasm b) s = .next { s with status := ipVerdict bs }) ∧
    (s.off.toNat + n ≤ s.size b → ipVerdict bs = 0 → h.tlen.toNat < hl →
      exec (.disasm b) s = .next { s with status := 0x0052 }) ∧
    (s.off.toNat + n ≤ s.size b → ipVerdict bs = 0 → hl ≤ h.tlen.toNat → n < h.tlen.toNat →
      exec (.disasm b) s = .next { s with status := 0x0061 }) ∧
    (s.off.toNat + n ≤ s.size b → ipVerdict bs = 0 → hl ≤ h.tlen.toNat → h.tlen.toNat ≤ n →
      h.proto = s.par.protoTcp → tcpVerdict (slice bs hl h.tlen.toNat) ≠ 0 →
      exec (.disasm b) s = .next { s with status := tcpVerdict (slice bs hl h.tlen.toNat) })

/-- 43_packet.md R176, `DISASM` of a packet whose protocol is not TCP: the TCP registers stay. The premise `ipVerdict`
writes out the nibble order of byte 0, general knowledge carried as PRESUMED (30_encoding.md R71, log entry 10). -/
def Obligations.DisasmDeliversAnotherProtocol : Prop :=
  ∀ (b : Buf) (s : State),
    let bs := s.memRead b s.off.toNat s.len.toNat
    let h := ipFields bs
    let hl := 4 * h.ihl.toNat
    let ipOk := csumValid (slice bs 0 hl) 0 10 s.cfg
    s.off.toNat + s.len.toNat ≤ s.size b → ipVerdict bs = 0 → hl ≤ h.tlen.toNat → h.tlen.toNat ≤ s.len.toNat →
    h.proto ≠ s.par.protoTcp →
    exec (.disasm b) s =
      .next { s with
        ip := h
        ipCsum := rd16 bs 10
        slOff := BitVec.ofNat 16 (s.off.toNat + hl)
        slLen := BitVec.ofNat 16 (h.tlen.toNat - hl)
        valid := BitVec.ofNat 3 ipOk.toNat
        status := vfyStatus ipOk }

/-- 43_packet.md R176, `DISASM` of a TCP packet: both headers, both verdicts and the payload slice. The premises
`ipVerdict` and `tcpVerdict` write out the nibble order of bytes 0 and 12, general knowledge carried as PRESUMED
(30_encoding.md R71, R73, log entry 10). -/
def Obligations.DisasmDeliversTcp : Prop :=
  ∀ (b : Buf) (s : State),
    let bs := s.memRead b s.off.toNat s.len.toNat
    let h := ipFields bs
    let hl := 4 * h.ihl.toNat
    let seg := slice bs hl h.tlen.toNat
    let t := tcpFields seg
    let dl := 4 * t.doff.toNat
    let ipOk := csumValid (slice bs 0 hl) 0 10 s.cfg
    let init := ocsum (pseudo h.src h.dst h.proto (BitVec.ofNat 16 (h.tlen.toNat - hl))) 0
    let tcpOk := csumValid seg init 16 s.cfg
    s.off.toNat + s.len.toNat ≤ s.size b → ipVerdict bs = 0 → hl ≤ h.tlen.toNat → h.tlen.toNat ≤ s.len.toNat →
    h.proto = s.par.protoTcp → tcpVerdict seg = 0 →
    exec (.disasm b) s =
      .next { s with
        ip := h
        ipCsum := rd16 bs 10
        tcp := t
        tcpCsum := rd16 seg 16
        slOff := BitVec.ofNat 16 (s.off.toNat + hl + dl)
        slLen := BitVec.ofNat 16 (h.tlen.toNat - hl - dl)
        valid := BitVec.ofNat 3 (4 + 2 * tcpOk.toNat + ipOk.toNat)
        status := vfyStatus (ipOk && tcpOk) }

/-- 43_packet.md R170: the bytes of the region at index `total_length` and beyond are padding. Two states that differ only
in the region's length and in bytes outside the first `total_length` bytes of the region are taken apart alike. -/
def Obligations.DisasmIgnoresPadding : Prop :=
  ∀ (b : Buf) (s t : State),
    let bs := s.memRead b s.off.toNat s.len.toNat
    let tlen := (ipFields bs).tlen.toNat
    t = { s with len := t.len, bufs := t.bufs } →
    s.off.toNat + s.len.toNat ≤ s.size b → s.off.toNat + t.len.toNat ≤ s.size b →
    ipVerdict bs = 0 → 4 * (ipFields bs).ihl.toNat ≤ tlen → tlen ≤ s.len.toNat → tlen ≤ t.len.toNat →
    (∀ k < tlen, t.byte b (s.off.toNat + k) = s.byte b (s.off.toNat + k)) →
    ∃ u, exec (.disasm b) s = .next u ∧ exec (.disasm b) t = .next { u with len := t.len, bufs := t.bufs }

/-- 43_packet.md R178, end to end: what `ASM.TCP` assembles, `DISASM` takes apart, in either mode and with any padding:
both checksums valid, every header register restored, the slice equal to the payload. Likewise `ASM.IP` with another
protocol. -/
def Obligations.AssembledPacketsDisassemble : Prop :=
  ∀ s : State, s.par.Ok → s.off.toNat + s.len.toNat ≤ s.par.paySize →
    (40 + s.len.toNat ≤ s.par.maxUnit →
      ∃ t, exec .asmTcp s = .next t ∧ ∀ n : Half, t.outLen.toNat ≤ n.toNat → n.toNat ≤ s.par.pktSize →
        ∃ u, exec (.disasm .pkt) { t with off := 0, len := n } = .next u ∧
          u.status = 0 ∧ u.valid = 7 ∧ u.ip.tlen.toNat = 20 + 20 + s.len.toNat ∧
          u.ip = t.ip ∧ u.ipCsum = t.ipCsum ∧ u.tcp = t.tcp ∧ u.tcpCsum = t.tcpCsum ∧
          u.slOff = 40 ∧ u.slLen = s.len ∧
          u.memRead .pkt 40 s.len.toNat = s.memRead .pay s.off.toNat s.len.toNat) ∧
    (20 + s.len.toNat ≤ s.par.maxUnit → s.ip.proto ≠ s.par.protoTcp →
      ∃ t, exec .asmIp s = .next t ∧ ∀ n : Half, t.outLen.toNat ≤ n.toNat → n.toNat ≤ s.par.pktSize →
        ∃ u, exec (.disasm .pkt) { t with off := 0, len := n } = .next u ∧
          u.status = 0 ∧ u.valid = 1 ∧ u.ip = t.ip ∧ u.ipCsum = t.ipCsum ∧ u.slOff = 20 ∧ u.slLen = s.len ∧
          u.memRead .pkt 20 s.len.toNat = s.memRead .pay s.off.toNat s.len.toNat)

/-- 43_packet.md R179: a header encoded with its computed checksum validates in both modes. For TCP the payload region is
(`bp`, `OFF`, `LEN`), the header is encoded at offset `o` of buffer `b`, and the payload is placed directly after it. -/
def Obligations.GeneratedChecksumsValidate : Prop :=
  (∀ (b : Buf) (s : State), s.off.toNat + 20 ≤ s.size b →
    ∃ t1 t2 t3, exec .ipCsum s = .next t1 ∧ exec (.ipEnc b) t1 = .next t2 ∧
      exec (.ipVfy b) { t2 with len := 20 } = .next t3 ∧ t3.valid.getLsbD 0 = true ∧ t3.status = 0) ∧
  ∀ (b bp : Buf) (s : State) (o : Half),
    s.off.toNat + s.len.toNat ≤ s.size bp → o.toNat + 20 + s.len.toNat ≤ s.size b → 20 + s.len.toNat ≤ 0xFFFF →
    ∃ t1 t2 t3, exec (.tcpCsum bp) s = .next t1 ∧ exec (.tcpEnc b) { t1 with off := o } = .next t2 ∧
      exec (.tcpVfy b)
        { t2.memWrite b (o.toNat + 20) (s.memRead bp s.off.toNat s.len.toNat) with
          len := BitVec.ofNat 16 (20 + s.len.toNat) } = .next t3 ∧
      t3.valid.getLsbD 1 = true ∧ t3.status = 0

/-! ### The system commands -/

/-- 44_system.md R190, `NOP`: it clears `STATUS` and changes no other state. -/
def Obligations.NopClearsStatusOnly : Prop :=
  CommandEncoding 0x00 (onlyWith .pkt .nop) ∧ ∀ s : State, exec .nop s = .next { s with status := 0 }

/-- 44_system.md R192, `RST`: every register is 0, `CMD` and `CFG` among them; the buffers are not changed. -/
def Obligations.RstZeroesRegistersAndKeepsBuffers : Prop :=
  CommandEncoding 0x3F (onlyWith .pkt .rst) ∧
  ∀ s : State, ∃ t, exec .rst s = .next t ∧ (∀ rn, t.hostRegRead rn = 0) ∧
    t.bufs = s.bufs ∧ t.par = s.par ∧ t.epoch = s.epoch ∧ t.host = s.host
end

