-- ==== Sys2Proof/Laws/Decode.lean ====
section
/-! SUPPORT. The fields of a command word as the decoder and as the well-formedness checks name them, and everything the
decoder can answer. -/

namespace Sys2Proof

theorem toNat_opc (w : Half) : (w.extractLsb' 0 8).toNat = wordOpc w := by
  simp only [BitVec.extractLsb'_toNat, Nat.shiftRight_eq_div_pow, wordOpc]; omega

theorem toNat_bsel (w : Half) : (w.extractLsb' 8 2).toNat = wordBsel w := by
  simp only [BitVec.extractLsb'_toNat, Nat.shiftRight_eq_div_pow, wordBsel]

theorem rsv_eq_zero (w : Half) : w.extractLsb' 10 6 = 0 ↔ wordRsv w = 0 := by
  have h : (w.extractLsb' 10 6).toNat = wordRsv w := by
    simp only [BitVec.extractLsb'_toNat, Nat.shiftRight_eq_div_pow, wordRsv]; omega
  rw [← h, ← BitVec.toNat_inj]
  rfl

/-- A word is its three fields (30_encoding.md R61). -/
theorem word_eq_fields (w : Half) : (w.extractLsb' 10 6 ++ w.extractLsb' 8 2) ++ w.extractLsb' 0 8 = w := by
  apply BitVec.eq_of_toNat_eq
  rw [BitVec.toNat_append, ← Nat.shiftLeft_add_eq_or_of_lt (BitVec.isLt _), Nat.shiftLeft_eq, BitVec.toNat_append,
    ← Nat.shiftLeft_add_eq_or_of_lt (BitVec.isLt _), Nat.shiftLeft_eq]
  simp only [BitVec.extractLsb'_toNat, Nat.shiftRight_eq_div_pow]
  omega

@[simp] theorem Buf.ofCode_code (b : Buf) : Buf.ofCode b.code = b := by cases b <;> rfl

@[simp] theorem Buf.code_ofCode (c : BitVec 2) : (Buf.ofCode c).code = c := by revert c; decide

/-- Everything the decoder can answer, in the order of its checks (30_encoding.md R65). -/
theorem decode_cases (w : Half) :
    (formOf (w.extractLsb' 0 8) = none ∧ decode w = .error .opcodeReserved) ∨
    ∃ f, formOf (w.extractLsb' 0 8) = some f ∧
      ((w.extractLsb' 10 6 ≠ 0 ∧ decode w = .error .fieldReserved) ∨
       (w.extractLsb' 10 6 = 0 ∧ decode w = f.select (w.extractLsb' 8 2))) := by
  unfold decode
  cases formOf (w.extractLsb' 0 8) with
  | none => exact .inl ⟨rfl, rfl⟩
  | some f =>
    refine .inr ⟨f, rfl, ?_⟩
    by_cases h : w.extractLsb' 10 6 = 0
    · exact .inr ⟨h, if_pos h⟩
    · exact .inl ⟨h, if_neg h⟩

end Sys2Proof
end

