-- ==== Sys2Proof/Laws/State.lean ====
section
/-! SUPPORT. What each named update of `State` does to each field, so that no later proof unfolds a record update. -/

namespace Sys2Proof.Machine

/-! ### `setStatus` -/

@[simp] theorem State.setStatus_cmd (s : State) (st : BitVec 13) : (s.setStatus st).cmd = s.cmd := rfl
@[simp] theorem State.setStatus_status (s : State) (st : BitVec 13) : (s.setStatus st).status = st := rfl
@[simp] theorem State.setStatus_cfg (s : State) (st : BitVec 13) : (s.setStatus st).cfg = s.cfg := rfl
@[simp] theorem State.setStatus_off (s : State) (st : BitVec 13) : (s.setStatus st).off = s.off := rfl
@[simp] theorem State.setStatus_len (s : State) (st : BitVec 13) : (s.setStatus st).len = s.len := rfl
@[simp] theorem State.setStatus_acc (s : State) (st : BitVec 13) : (s.setStatus st).acc = s.acc := rfl
@[simp] theorem State.setStatus_result (s : State) (st : BitVec 13) : (s.setStatus st).result = s.result := rfl
@[simp] theorem State.setStatus_valid (s : State) (st : BitVec 13) : (s.setStatus st).valid = s.valid := rfl
@[simp] theorem State.setStatus_nextOff (s : State) (st : BitVec 13) : (s.setStatus st).nextOff = s.nextOff := rfl
@[simp] theorem State.setStatus_slOff (s : State) (st : BitVec 13) : (s.setStatus st).slOff = s.slOff := rfl
@[simp] theorem State.setStatus_slLen (s : State) (st : BitVec 13) : (s.setStatus st).slLen = s.slLen := rfl
@[simp] theorem State.setStatus_outLen (s : State) (st : BitVec 13) : (s.setStatus st).outLen = s.outLen := rfl
@[simp] theorem State.setStatus_strLen (s : State) (st : BitVec 13) : (s.setStatus st).strLen = s.strLen := rfl
@[simp] theorem State.setStatus_ip (s : State) (st : BitVec 13) : (s.setStatus st).ip = s.ip := rfl
@[simp] theorem State.setStatus_ipCsum (s : State) (st : BitVec 13) : (s.setStatus st).ipCsum = s.ipCsum := rfl
@[simp] theorem State.setStatus_tcp (s : State) (st : BitVec 13) : (s.setStatus st).tcp = s.tcp := rfl
@[simp] theorem State.setStatus_tcpCsum (s : State) (st : BitVec 13) : (s.setStatus st).tcpCsum = s.tcpCsum := rfl
@[simp] theorem State.setStatus_bufs (s : State) (st : BitVec 13) : (s.setStatus st).bufs = s.bufs := rfl
@[simp] theorem State.setStatus_par (s : State) (st : BitVec 13) : (s.setStatus st).par = s.par := rfl
@[simp] theorem State.setStatus_epoch (s : State) (st : BitVec 13) : (s.setStatus st).epoch = s.epoch := rfl
@[simp] theorem State.setStatus_host (s : State) (st : BitVec 13) : (s.setStatus st).host = s.host := rfl

@[simp] theorem State.setStatus_setStatus (s : State) (st st' : BitVec 13) :
    (s.setStatus st).setStatus st' = s.setStatus st' := rfl

/-! ### `memWrite` -/

@[simp] theorem State.memWrite_cmd (s : State) (b : Buf) (a : Nat) (bs : List Byte) : (s.memWrite b a bs).cmd = s.cmd := rfl
@[simp] theorem State.memWrite_status (s : State) (b : Buf) (a : Nat) (bs : List Byte) : (s.memWrite b a bs).status = s.status := rfl
@[simp] theorem State.memWrite_cfg (s : State) (b : Buf) (a : Nat) (bs : List Byte) : (s.memWrite b a bs).cfg = s.cfg := rfl
@[simp] theorem State.memWrite_off (s : State) (b : Buf) (a : Nat) (bs : List Byte) : (s.memWrite b a bs).off = s.off := rfl
@[simp] theorem State.memWrite_len (s : State) (b : Buf) (a : Nat) (bs : List Byte) : (s.memWrite b a bs).len = s.len := rfl
@[simp] theorem State.memWrite_acc (s : State) (b : Buf) (a : Nat) (bs : List Byte) : (s.memWrite b a bs).acc = s.acc := rfl
@[simp] theorem State.memWrite_result (s : State) (b : Buf) (a : Nat) (bs : List Byte) : (s.memWrite b a bs).result = s.result := rfl
@[simp] theorem State.memWrite_valid (s : State) (b : Buf) (a : Nat) (bs : List Byte) : (s.memWrite b a bs).valid = s.valid := rfl
@[simp] theorem State.memWrite_nextOff (s : State) (b : Buf) (a : Nat) (bs : List Byte) : (s.memWrite b a bs).nextOff = s.nextOff := rfl
@[simp] theorem State.memWrite_slOff (s : State) (b : Buf) (a : Nat) (bs : List Byte) : (s.memWrite b a bs).slOff = s.slOff := rfl
@[simp] theorem State.memWrite_slLen (s : State) (b : Buf) (a : Nat) (bs : List Byte) : (s.memWrite b a bs).slLen = s.slLen := rfl
@[simp] theorem State.memWrite_outLen (s : State) (b : Buf) (a : Nat) (bs : List Byte) : (s.memWrite b a bs).outLen = s.outLen := rfl
@[simp] theorem State.memWrite_strLen (s : State) (b : Buf) (a : Nat) (bs : List Byte) : (s.memWrite b a bs).strLen = s.strLen := rfl
@[simp] theorem State.memWrite_ip (s : State) (b : Buf) (a : Nat) (bs : List Byte) : (s.memWrite b a bs).ip = s.ip := rfl
@[simp] theorem State.memWrite_ipCsum (s : State) (b : Buf) (a : Nat) (bs : List Byte) : (s.memWrite b a bs).ipCsum = s.ipCsum := rfl
@[simp] theorem State.memWrite_tcp (s : State) (b : Buf) (a : Nat) (bs : List Byte) : (s.memWrite b a bs).tcp = s.tcp := rfl
@[simp] theorem State.memWrite_tcpCsum (s : State) (b : Buf) (a : Nat) (bs : List Byte) : (s.memWrite b a bs).tcpCsum = s.tcpCsum := rfl
@[simp] theorem State.memWrite_bufs (s : State) (b : Buf) (a : Nat) (bs : List Byte) : (s.memWrite b a bs).bufs = s.bufs.set b (Memory.writeAll (s.bufs.get b) a bs) := rfl
@[simp] theorem State.memWrite_par (s : State) (b : Buf) (a : Nat) (bs : List Byte) : (s.memWrite b a bs).par = s.par := rfl
@[simp] theorem State.memWrite_epoch (s : State) (b : Buf) (a : Nat) (bs : List Byte) : (s.memWrite b a bs).epoch = s.epoch := rfl
@[simp] theorem State.memWrite_host (s : State) (b : Buf) (a : Nat) (bs : List Byte) : (s.memWrite b a bs).host = s.host := rfl

/-! ### `clearRegisters` -/

@[simp] theorem State.clearRegisters_cmd (s : State) : (s.clearRegisters).cmd = 0 := rfl
@[simp] theorem State.clearRegisters_status (s : State) : (s.clearRegisters).status = 0 := rfl
@[simp] theorem State.clearRegisters_cfg (s : State) : (s.clearRegisters).cfg = 0 := rfl
@[simp] theorem State.clearRegisters_off (s : State) : (s.clearRegisters).off = 0 := rfl
@[simp] theorem State.clearRegisters_len (s : State) : (s.clearRegisters).len = 0 := rfl
@[simp] theorem State.clearRegisters_acc (s : State) : (s.clearRegisters).acc = 0 := rfl
@[simp] theorem State.clearRegisters_result (s : State) : (s.clearRegisters).result = 0 := rfl
@[simp] theorem State.clearRegisters_valid (s : State) : (s.clearRegisters).valid = 0 := rfl
@[simp] theorem State.clearRegisters_nextOff (s : State) : (s.clearRegisters).nextOff = 0 := rfl
@[simp] theorem State.clearRegisters_slOff (s : State) : (s.clearRegisters).slOff = 0 := rfl
@[simp] theorem State.clearRegisters_slLen (s : State) : (s.clearRegisters).slLen = 0 := rfl
@[simp] theorem State.clearRegisters_outLen (s : State) : (s.clearRegisters).outLen = 0 := rfl
@[simp] theorem State.clearRegisters_strLen (s : State) : (s.clearRegisters).strLen = 0 := rfl
@[simp] theorem State.clearRegisters_ip (s : State) : (s.clearRegisters).ip = .zero := rfl
@[simp] theorem State.clearRegisters_ipCsum (s : State) : (s.clearRegisters).ipCsum = 0 := rfl
@[simp] theorem State.clearRegisters_tcp (s : State) : (s.clearRegisters).tcp = .zero := rfl
@[simp] theorem State.clearRegisters_tcpCsum (s : State) : (s.clearRegisters).tcpCsum = 0 := rfl
@[simp] theorem State.clearRegisters_bufs (s : State) : (s.clearRegisters).bufs = s.bufs := rfl
@[simp] theorem State.clearRegisters_par (s : State) : (s.clearRegisters).par = s.par := rfl
@[simp] theorem State.clearRegisters_epoch (s : State) : (s.clearRegisters).epoch = s.epoch := rfl
@[simp] theorem State.clearRegisters_host (s : State) : (s.clearRegisters).host = s.host := rfl

/-! ### `hardReset` -/

@[simp] theorem State.hardReset_cmd (s : State) : (s.hardReset).cmd = 0 := rfl
@[simp] theorem State.hardReset_status (s : State) : (s.hardReset).status = 0 := rfl
@[simp] theorem State.hardReset_cfg (s : State) : (s.hardReset).cfg = 0 := rfl
@[simp] theorem State.hardReset_off (s : State) : (s.hardReset).off = 0 := rfl
@[simp] theorem State.hardReset_len (s : State) : (s.hardReset).len = 0 := rfl
@[simp] theorem State.hardReset_acc (s : State) : (s.hardReset).acc = 0 := rfl
@[simp] theorem State.hardReset_result (s : State) : (s.hardReset).result = 0 := rfl
@[simp] theorem State.hardReset_valid (s : State) : (s.hardReset).valid = 0 := rfl
@[simp] theorem State.hardReset_nextOff (s : State) : (s.hardReset).nextOff = 0 := rfl
@[simp] theorem State.hardReset_slOff (s : State) : (s.hardReset).slOff = 0 := rfl
@[simp] theorem State.hardReset_slLen (s : State) : (s.hardReset).slLen = 0 := rfl
@[simp] theorem State.hardReset_outLen (s : State) : (s.hardReset).outLen = 0 := rfl
@[simp] theorem State.hardReset_strLen (s : State) : (s.hardReset).strLen = 0 := rfl
@[simp] theorem State.hardReset_ip (s : State) : (s.hardReset).ip = .zero := rfl
@[simp] theorem State.hardReset_ipCsum (s : State) : (s.hardReset).ipCsum = 0 := rfl
@[simp] theorem State.hardReset_tcp (s : State) : (s.hardReset).tcp = .zero := rfl
@[simp] theorem State.hardReset_tcpCsum (s : State) : (s.hardReset).tcpCsum = 0 := rfl
@[simp] theorem State.hardReset_bufs (s : State) : (s.hardReset).bufs = .unwritten := rfl
@[simp] theorem State.hardReset_par (s : State) : (s.hardReset).par = s.par := rfl
@[simp] theorem State.hardReset_epoch (s : State) : (s.hardReset).epoch = s.epoch + 1 := rfl
@[simp] theorem State.hardReset_host (s : State) : (s.hardReset).host = s.host := rfl

/-! ### `raise` and `done` are writes of `STATUS` -/

@[simp] theorem State.raise_eq (s : State) (c : Cause) : s.raise c = s.setStatus (rejectedStatus c) := rfl
@[simp] theorem State.done_eq (s : State) (m : Bool) : s.done m = s.setStatus (doneStatus m) := rfl

/-! ### The buffers -/

@[simp] theorem Buffers.get_set_same (bufs : Buffers) (b : Buf) (m : Memory) : (bufs.set b m).get b = m := by
  cases b <;> rfl

@[simp] theorem Buffers.get_set_other (bufs : Buffers) (b b' : Buf) (m : Memory) (h : b' ≠ b) :
    (bufs.set b m).get b' = bufs.get b' := by
  cases b <;> cases b' <;> first | rfl | exact absurd rfl h

@[simp] theorem Buffers.get_unwritten (b : Buf) : Buffers.unwritten.get b = [] := by cases b <;> rfl

/-! ### What `size`, `byte` and `memRead` depend on -/

/-- `size` reads the parameters only. -/
theorem State.size_congr {s t : State} (h : s.par = t.par) (b : Buf) : s.size b = t.size b := by
  simp only [State.size, h]

/-- `byte` reads the buffers and the reset counter only. -/
theorem State.byte_congr {s t : State} (hb : s.bufs = t.bufs) (he : s.epoch = t.epoch) (b : Buf) (o : Nat) :
    s.byte b o = t.byte b o := by
  simp only [State.byte, hb, he]

@[simp] theorem State.setStatus_size (s : State) (st : BitVec 13) (b : Buf) : (s.setStatus st).size b = s.size b := rfl
@[simp] theorem State.memWrite_size (s : State) (b' : Buf) (a : Nat) (bs : List Byte) (b : Buf) :
    (s.memWrite b' a bs).size b = s.size b := rfl
@[simp] theorem State.setStatus_byte (s : State) (st : BitVec 13) (b : Buf) (o : Nat) :
    (s.setStatus st).byte b o = s.byte b o := rfl

end Sys2Proof.Machine
end

