-- ==== Sys2Proof/Laws/Memory.lean ====
section
/-! SUPPORT. The laws of the buffers: a read after a write, a write leaves every other byte alone, every operation keeps
the canonical form, and what a command's reads and stores come to byte by byte. -/

namespace Sys2Proof.Machine

/-! ### One byte -/

@[simp] theorem Memory.read_write_same (m : Memory) (a : Nat) (v : Byte) : Memory.read (Memory.write m a v) a = some v := by
  induction m with
  | nil => simp [Memory.write, Memory.read]
  | cons c m ih =>
    unfold Memory.write
    split
    · simp [Memory.read]
    · split
      · simp [Memory.read]
      · rename_i h
        simpa [Memory.read, h] using ih

theorem Memory.read_write_other (m : Memory) {a a' : Nat} (v : Byte) (h : a' ≠ a) :
    Memory.read (Memory.write m a v) a' = Memory.read m a' := by
  have h' : a ≠ a' := fun e => h e.symm
  induction m with
  | nil => simp [Memory.write, Memory.read, h']
  | cons c m ih =>
    unfold Memory.write
    split
    · simp [Memory.read, h']
    · split
      · rename_i hc
        simp [Memory.read, h', hc]
      · simp only [Memory.read, ih]

/-! ### A run of bytes -/

/-- A store of `bs` at `a`, read back: the stored byte inside, the old one outside. -/
theorem Memory.read_writeAll (m : Memory) (a : Nat) (bs : List Byte) (x : Nat) :
    Memory.read (Memory.writeAll m a bs) x =
      if a ≤ x ∧ x < a + bs.length then bs[x - a]? else Memory.read m x := by
  induction bs generalizing m a with
  | nil =>
    have : ¬(a ≤ x ∧ x < a + ([] : List Byte).length) := by simp only [List.length_nil]; omega
    rw [if_neg this, Memory.writeAll]
  | cons v bs ih =>
    simp only [Memory.writeAll, ih, List.length_cons]
    by_cases hx : x = a
    · subst hx
      rw [if_neg (by omega), if_pos (by omega), Memory.read_write_same]
      simp
    · rw [Memory.read_write_other _ _ hx]
      by_cases h : a + 1 ≤ x ∧ x < a + 1 + bs.length
      · rw [if_pos h, if_pos (by omega)]
        obtain ⟨k, rfl⟩ : ∃ k, x = a + 1 + k := ⟨x - (a + 1), by omega⟩
        rw [show a + 1 + k - a = k + 1 by omega, show a + 1 + k - (a + 1) = k by omega, List.getElem?_cons_succ]
      · rw [if_neg h, if_neg (by omega)]

/-- Two stores one after the other are one store of both runs. -/
theorem Memory.writeAll_append (m : Memory) (a : Nat) (xs ys : List Byte) :
    Memory.writeAll (Memory.writeAll m a xs) (a + xs.length) ys = Memory.writeAll m a (xs ++ ys) := by
  induction xs generalizing m a with
  | nil => rfl
  | cons x xs ih =>
    simp only [Memory.writeAll, List.cons_append, List.length_cons]
    rw [← ih, show a + 1 + xs.length = a + (xs.length + 1) by omega]

/-! ### The canonical form -/

theorem Memory.mem_write {m : Memory} {a : Nat} {v : Byte} {c : Host.Cell} (h : c ∈ Memory.write m a v) :
    c = (a, v) ∨ c ∈ m := by
  induction m with
  | nil => simpa [Memory.write] using h
  | cons d m ih =>
    unfold Memory.write at h
    split at h
    · simpa using h
    · split at h
      · rcases List.mem_cons.mp h with h | h
        · exact .inl h
        · exact .inr (List.mem_cons_of_mem _ h)
      · rcases List.mem_cons.mp h with h | h
        · exact .inr (by simp [h])
        · exact (ih h).imp_right (List.mem_cons_of_mem _)

theorem Memory.wf_nil : Memory.wf [] := List.Pairwise.nil

theorem Memory.wf_write {m : Memory} (h : Memory.wf m) (a : Nat) (v : Byte) : Memory.wf (Memory.write m a v) := by
  induction m with
  | nil => simp [Memory.write, Memory.wf]
  | cons c m ih =>
    have ⟨hc, hm⟩ := List.pairwise_cons.mp h
    unfold Memory.write
    split
    · rename_i hlt
      refine List.pairwise_cons.mpr ⟨?_, h⟩
      intro d hd
      rcases List.mem_cons.mp hd with rfl | hd
      · exact hlt
      · exact Nat.lt_trans hlt (hc d hd)
    · split
      · rename_i he
        exact List.pairwise_cons.mpr ⟨fun d hd => he ▸ hc d hd, hm⟩
      · refine List.pairwise_cons.mpr ⟨?_, ih hm⟩
        intro d hd
        rcases Memory.mem_write hd with rfl | hd
        · simp only; omega
        · exact hc d hd

theorem Memory.wf_writeAll {m : Memory} (h : Memory.wf m) (a : Nat) (bs : List Byte) :
    Memory.wf (Memory.writeAll m a bs) := by
  induction bs generalizing m a with
  | nil => exact h
  | cons v bs ih => exact ih (Memory.wf_write h a v) (a + 1)

/-- A store inside the first `n` bytes leaves every cell among them. -/
theorem Memory.bound_writeAll {m : Memory} {n : Nat} (h : ∀ c ∈ m, c.1 < n) {a : Nat} {bs : List Byte}
    (ha : a + bs.length ≤ n) : ∀ c ∈ Memory.writeAll m a bs, c.1 < n := by
  induction bs generalizing m a with
  | nil => exact h
  | cons v bs ih =>
    simp only [List.length_cons] at ha
    refine ih (fun c hc => ?_) (by omega)
    rcases Memory.mem_write hc with rfl | hc
    · simp only; omega
    · exact h c hc

/-! ### Bytes of the state -/

/-- Everything `memWrite` can do to a byte: stored inside, unchanged outside. -/
theorem State.byte_memWrite (s : State) (b : Buf) (a : Nat) (bs : List Byte) (b' : Buf) (x : Nat) :
    (s.memWrite b a bs).byte b' x =
      if b' = b ∧ a ≤ x ∧ x < a + bs.length then rd8 bs (x - a) else s.byte b' x := by
  unfold State.byte
  by_cases hb : b' = b
  · subst hb
    simp only [State.memWrite_bufs, Buffers.get_set_same, Memory.read_writeAll, State.memWrite_epoch, true_and]
    split
    · rename_i h
      rw [List.getElem?_eq_getElem (by omega), Option.getD_some, rd8, List.getD_eq_getElem _ _ (by omega)]
    · rfl
  · simp [State.memWrite_bufs, Buffers.get_set_other _ _ _ _ hb, hb]

theorem State.byte_memWrite_inside (s : State) (b : Buf) (a : Nat) (bs : List Byte) {k : Nat} (h : k < bs.length) :
    (s.memWrite b a bs).byte b (a + k) = rd8 bs k := by
  rw [State.byte_memWrite, if_pos (by simp; omega), Nat.add_sub_cancel_left]

theorem State.byte_memWrite_outside (s : State) (b : Buf) (a : Nat) (bs : List Byte) {b' : Buf} {x : Nat}
    (h : b' ≠ b ∨ x < a ∨ a + bs.length ≤ x) : (s.memWrite b a bs).byte b' x = s.byte b' x := by
  rw [State.byte_memWrite, if_neg]
  rintro ⟨rfl, h1, h2⟩
  rcases h with h | h | h
  · exact h rfl
  · omega
  · omega

/-- Two adjacent stores to one buffer are one store. -/
theorem State.memWrite_append (s : State) (b : Buf) (a : Nat) (xs ys : List Byte) :
    (s.memWrite b a xs).memWrite b (a + xs.length) ys = s.memWrite b a (xs ++ ys) := by
  cases b <;> simp only [State.memWrite, Buffers.set, Buffers.get, Memory.writeAll_append]

/-! ### `MemRead` -/

@[simp] theorem State.memRead_length (s : State) (b : Buf) (off n : Nat) : (s.memRead b off n).length = n := by
  induction n generalizing off with
  | zero => rfl
  | succ n ih => simp [State.memRead, ih]

theorem State.memRead_getElem? (s : State) (b : Buf) (off n k : Nat) (h : k < n) :
    (s.memRead b off n)[k]? = some (s.byte b (off + k)) := by
  induction n generalizing off k with
  | zero => omega
  | succ n ih =>
    cases k with
    | zero => simp [State.memRead]
    | succ k =>
      simp only [State.memRead, List.getElem?_cons_succ]
      rw [ih (off + 1) k (by omega), show off + 1 + k = off + (k + 1) by omega]

/-- The byte of a region at index `k` is the buffer's byte at offset `off + k` (20_memory.md R43). -/
theorem State.rd8_memRead (s : State) (b : Buf) (off n k : Nat) (h : k < n) :
    rd8 (s.memRead b off n) k = s.byte b (off + k) := by
  rw [rd8, List.getD_eq_getElem?_getD, State.memRead_getElem? s b off n k h, Option.getD_some]

/-- Two runs of bytes that agree byte by byte are one list. -/
theorem State.memRead_congr {s t : State} {b b' : Buf} {off off' n : Nat}
    (h : ∀ k < n, s.byte b (off + k) = t.byte b' (off' + k)) : s.memRead b off n = t.memRead b' off' n := by
  apply List.ext_getElem?
  intro k
  by_cases hk : k < n
  · rw [State.memRead_getElem? _ _ _ _ _ hk, State.memRead_getElem? _ _ _ _ _ hk, h k hk]
  · rw [List.getElem?_eq_none (by simp; omega), List.getElem?_eq_none (by simp; omega)]

/-- A run that is a given list byte by byte is that list. -/
theorem State.memRead_eq_of_bytes {s : State} {b : Buf} {off : Nat} {bs : List Byte}
    (h : ∀ k < bs.length, s.byte b (off + k) = rd8 bs k) : s.memRead b off bs.length = bs := by
  apply List.ext_getElem?
  intro k
  by_cases hk : k < bs.length
  · rw [State.memRead_getElem? _ _ _ _ _ hk, h k hk, rd8, List.getD_eq_getElem _ _ hk, List.getElem?_eq_getElem hk]
  · rw [List.getElem?_eq_none (by simp; omega), List.getElem?_eq_none (by omega)]

/-- Reading back what `MemWrite` stored. -/
theorem State.memRead_memWrite (s : State) (b : Buf) (off : Nat) (bs : List Byte) :
    (s.memWrite b off bs).memRead b off bs.length = bs :=
  State.memRead_eq_of_bytes fun _ hk => State.byte_memWrite_inside s b off bs hk

/-- A run splits where it is cut. -/
theorem State.memRead_append (s : State) (b : Buf) (off m n : Nat) :
    s.memRead b off (m + n) = s.memRead b off m ++ s.memRead b (off + m) n := by
  induction m generalizing off with
  | zero => simp [State.memRead]
  | succ m ih =>
    rw [show m + 1 + n = (m + n) + 1 by omega]
    simp only [State.memRead, ih, List.cons_append]
    rw [show off + 1 + m = off + (m + 1) by omega]

@[simp] theorem State.setStatus_memRead (s : State) (st : BitVec 13) (b : Buf) (off n : Nat) :
    (s.setStatus st).memRead b off n = s.memRead b off n :=
  State.memRead_congr fun _ _ => rfl

@[simp] theorem State.regionBytes_length (s : State) (b : Buf) : (s.regionBytes b).length = s.len.toNat :=
  State.memRead_length s b _ _

/-! ### The canonical form of the state's buffers -/

/-- A store inside a buffer keeps every buffer in canonical form and inside its size. -/
theorem State.memWrite_keeps_buffers {s : State} (h : ∀ b, Memory.wf (s.bufs.get b) ∧ ∀ c ∈ s.bufs.get b, c.1 < s.size b)
    {b : Buf} {off : Nat} {bs : List Byte} (hin : off + bs.length ≤ s.size b) (b' : Buf) :
    Memory.wf ((s.memWrite b off bs).bufs.get b') ∧
      ∀ c ∈ (s.memWrite b off bs).bufs.get b', c.1 < (s.memWrite b off bs).size b' := by
  simp only [State.memWrite_bufs, State.memWrite_size]
  by_cases hb : b' = b
  · subst hb
    rw [Buffers.get_set_same]
    exact ⟨Memory.wf_writeAll (h b').1 _ _, Memory.bound_writeAll (h b').2 hin⟩
  · rw [Buffers.get_set_other _ _ _ _ hb]
    exact h b'

/-- The buffers after hardware reset are in canonical form. -/
theorem State.reset_buffers_wf (b : Buf) : Memory.wf (State.reset.bufs.get b) := by
  cases b <;> exact Memory.wf_nil

end Sys2Proof.Machine
end

