-- ==== Sys2Proof/Laws/Ops.lean ====
section
/-! SUPPORT. What each shared operation can do: the operands, the end of a command, the parsers against the spec's order
of checks. -/

namespace Sys2Proof.Machine

/-! ### Operands -/

theorem State.region_inside {s : State} {b : Buf} (h : s.regionInside b) :
    s.region b = .ok (s.memRead b s.off.toNat s.len.toNat) := if_pos h

theorem State.region_outside {s : State} {b : Buf} (h : ¬s.regionInside b) : s.region b = .error .regionRange := if_neg h

/-- Everything the region operand can come to. -/
theorem State.region_cases (s : State) (b : Buf) :
    (s.regionInside b ∧ s.region b = .ok (s.memRead b s.off.toNat s.len.toNat)) ∨
    (¬s.regionInside b ∧ s.region b = .error .regionRange) := by
  by_cases h : s.regionInside b
  · exact .inl ⟨h, State.region_inside h⟩
  · exact .inr ⟨h, State.region_outside h⟩

theorem State.headerDest_inside {s : State} {b : Buf} (h : s.headerInside b) : s.headerDest b = .ok s.off.toNat := if_pos h

theorem State.headerDest_outside {s : State} {b : Buf} (h : ¬s.headerInside b) : s.headerDest b = .error .regionRange :=
  if_neg h

/-- Everything the destination of a serialised header can come to. -/
theorem State.headerDest_cases (s : State) (b : Buf) :
    (s.headerInside b ∧ s.headerDest b = .ok s.off.toNat) ∨
    (¬s.headerInside b ∧ s.headerDest b = .error .regionRange) := by
  by_cases h : s.headerInside b
  · exact .inl ⟨h, State.headerDest_inside h⟩
  · exact .inr ⟨h, State.headerDest_outside h⟩

/-! ### The end of a command -/

@[simp] theorem State.conclude_error (s : State) (c : Cause) :
    s.conclude (.error c) = .next { s with status := rejectedStatus c } := rfl

@[simp] theorem State.conclude_ok (s t : State) (m : Bool) :
    s.conclude (.ok (t, m)) = .next { t with status := doneStatus m } := rfl

@[simp] theorem doneStatus_false : doneStatus false = 0 := by decide

@[simp] theorem doneStatus_true : doneStatus true = 0x1000 := by decide

theorem doneStatus_not (ok : Bool) : doneStatus (!ok) = vfyStatus ok := by cases ok <;> decide

@[simp] theorem statusCode_doneStatus (m : Bool) : statusCode (doneStatus m) = 0 := by cases m <;> decide

@[simp] theorem statusCode_rejectedStatus (c : Cause) : statusCode (rejectedStatus c) = c.code := by cases c <;> decide

@[simp] theorem statusCause_rejectedStatus (c : Cause) : statusCause (rejectedStatus c) = c.num := by cases c <;> decide

@[simp] theorem statusMismatch_rejectedStatus (c : Cause) : statusMismatch (rejectedStatus c) = false := by
  cases c <;> decide

theorem Cause.code_ne_zero (c : Cause) : c.code ≠ 0 := by cases c <;> decide

theorem doneStatus_legal (m : Bool) : doneStatus m ∈ legalStatuses := by cases m <;> decide

theorem rejectedStatus_legal (c : Cause) : rejectedStatus c ∈ legalStatuses := by cases c <;> decide

/-- What the command computes before `STATUS` is written, for every command. -/
def effectOf (i : Instr) (s : State) : Effect :=
  match i with
  | .csumAcc b => csumAccEffect b s
  | .csumFin b => csumFinEffect b s
  | .ipEnc b => ipEncEffect b s
  | .ipDec b => ipDecEffect b s
  | .ipCsum => ipCsumEffect s
  | .ipVfy b => ipVfyEffect b s
  | .tcpEnc b => tcpEncEffect b s
  | .tcpDec b => tcpDecEffect b s
  | .tcpPsh => tcpPshEffect s
  | .tcpCsum b => tcpCsumEffect b s
  | .tcpVfy b => tcpVfyEffect b s
  | .tcpFstr => tcpFstrEffect s
  | .asmIp => asmIpEffect s
  | .asmTcp => asmTcpEffect s
  | .disasm b => disasmEffect b s
  | .nop => nopEffect s
  | .rst => rstEffect s

/-- Every command is its effect followed by one write of `STATUS`. -/
theorem exec_eq_conclude (i : Instr) (s : State) : exec i s = s.conclude (effectOf i s) := by cases i <;> rfl

/-- Everything a command can do: be rejected, or complete with what its effect computed. -/
theorem exec_cases (i : Instr) (s : State) :
    (∃ c, effectOf i s = .error c ∧ exec i s = .next { s with status := rejectedStatus c }) ∨
    (∃ t m, effectOf i s = .ok (t, m) ∧ exec i s = .next { t with status := doneStatus m }) := by
  rw [exec_eq_conclude]
  rcases effectOf i s with c | ⟨t, m⟩
  · exact .inl ⟨c, rfl, rfl⟩
  · exact .inr ⟨t, m, rfl, rfl⟩

/-! ### Bytes and fields -/

theorem toNat_append_byte (a b : Byte) : (a ++ b : Half).toNat = 256 * a.toNat + b.toNat := by
  rw [BitVec.toNat_append, ← Nat.shiftLeft_add_eq_or_of_lt b.isLt, Nat.shiftLeft_eq]; omega

theorem toNat_append_half (a b : Half) : (a ++ b : Word).toNat = 0x10000 * a.toNat + b.toNat := by
  rw [BitVec.toNat_append, ← Nat.shiftLeft_add_eq_or_of_lt b.isLt, Nat.shiftLeft_eq]; omega

theorem toNat_append_nibble (a b : BitVec 4) : (a ++ b : Byte).toNat = 16 * a.toNat + b.toNat := by
  rw [BitVec.toNat_append, ← Nat.shiftLeft_add_eq_or_of_lt b.isLt, Nat.shiftLeft_eq]; omega

theorem toNat_highNibble (x : Byte) : (x.extractLsb' 4 4).toNat = x.toNat / 16 := by
  simp only [BitVec.extractLsb'_toNat, Nat.shiftRight_eq_div_pow]; omega

theorem toNat_lowNibble (x : Byte) : (x.extractLsb' 0 4).toNat = x.toNat % 16 := by
  simp only [BitVec.extractLsb'_toNat, Nat.shiftRight_eq_div_pow]; omega

theorem be16_append (v : Half) : (v.extractLsb' 8 8 ++ v.extractLsb' 0 8 : Half) = v := by
  apply BitVec.eq_of_toNat_eq
  rw [toNat_append_byte]
  simp only [BitVec.extractLsb'_toNat, Nat.shiftRight_eq_div_pow]; omega

theorem be32_append (v : Word) :
    ((v.extractLsb' 24 8 ++ v.extractLsb' 16 8 : Half) ++ (v.extractLsb' 8 8 ++ v.extractLsb' 0 8 : Half) : Word) = v := by
  apply BitVec.eq_of_toNat_eq
  rw [toNat_append_half, toNat_append_byte, toNat_append_byte]
  simp only [BitVec.extractLsb'_toNat, Nat.shiftRight_eq_div_pow]; omega

theorem nibbles_append (x : Byte) : (x.extractLsb' 4 4 ++ x.extractLsb' 0 4 : Byte) = x := by
  apply BitVec.eq_of_toNat_eq
  rw [toNat_append_nibble, toNat_highNibble, toNat_lowNibble]; omega

@[simp] theorem highNibble_append (a b : BitVec 4) : (a ++ b : Byte).extractLsb' 4 4 = a := by
  apply BitVec.eq_of_toNat_eq
  rw [toNat_highNibble, toNat_append_nibble]; omega

@[simp] theorem lowNibble_append (a b : BitVec 4) : (a ++ b : Byte).extractLsb' 0 4 = b := by
  apply BitVec.eq_of_toNat_eq
  rw [toNat_lowNibble, toNat_append_nibble]; omega

@[simp] theorem ipSer_length (h : IpHeader) (c : Half) : (ipSer h c).length = 20 := rfl

@[simp] theorem tcpSer_length (t : TcpHeader) (c : Half) : (tcpSer t c).length = 20 := rfl

@[simp] theorem pseudo_length (src dst : Word) (proto : Byte) (n : Half) : (pseudo src dst proto n).length = 12 := rfl

/-- An index below the first part's length reads the first part. -/
theorem rd8_append_left {xs ys : List Byte} {k : Nat} (h : k < xs.length) : rd8 (xs ++ ys) k = rd8 xs k := by
  simp only [rd8, List.getD_eq_getElem?_getD, List.getElem?_append_left h]

/-- An index from the first part's length on reads the second part. -/
theorem rd8_append_right {xs ys : List Byte} {k : Nat} (h : xs.length ≤ k) :
    rd8 (xs ++ ys) k = rd8 ys (k - xs.length) := by
  simp only [rd8, List.getD_eq_getElem?_getD, List.getElem?_append_right h]

/-- A byte of `bs[i..j)`. -/
theorem rd8_slice {bs : List Byte} {i j k : Nat} (h : i + k < j) : rd8 (slice bs i j) k = rd8 bs (i + k) := by
  simp only [rd8, slice, List.getD_eq_getElem?_getD, List.getElem?_drop]
  rw [List.getElem?_take_of_lt h]

theorem slice_length {bs : List Byte} {i j : Nat} (h : j ≤ bs.length) : (slice bs i j).length = j - i := by
  simp only [slice, List.length_drop, List.length_take]; omega

/-! ### Registers under a store and under the end of a command -/

/-- A store to a buffer changes no register. -/
@[simp] theorem State.memWrite_get (s : State) (b : Buf) (a : Nat) (bs : List Byte) (r : Reg) :
    (s.memWrite b a bs).get r = s.get r := by
  cases r <;> rfl

/-- The end of a command changes no register but `STATUS`. -/
theorem State.setStatus_get (s : State) (st : BitVec 13) {r : Reg} (h : r ≠ .status) :
    (s.setStatus st).get r = s.get r := by
  cases r <;> first | rfl | exact absurd rfl h

/-! ### What the assemblers write -/

/-- Header and payload are one store to `PKT` from offset 0, beside the registers (43_packet.md R172). -/
theorem State.emitIp_eq (s : State) (proto : Byte) (pay : List Byte) :
    s.emitIp proto pay =
      let h := outboundIp s.ip proto (BitVec.ofNat 16 (20 + pay.length))
      { s.memWrite .pkt 0 (ipSer h (ipCksum h) ++ pay) with
        ip := h, ipCsum := ipCksum h, outLen := BitVec.ofNat 16 (20 + pay.length) } := by
  dsimp only
  rw [← State.memWrite_append]
  rfl

/-- The bytes of `PKT` the assemblers write, and no other byte. -/
theorem State.emitIp_byte (s : State) (proto : Byte) (pay : List Byte) (b : Buf) (a : Nat) :
    (s.emitIp proto pay).byte b a =
      let h := outboundIp s.ip proto (BitVec.ofNat 16 (20 + pay.length))
      if b = .pkt ∧ a < 20 + pay.length then rd8 (ipSer h (ipCksum h) ++ pay) a else s.byte b a := by
  dsimp only
  rw [State.emitIp_eq]
  have e := State.byte_memWrite s .pkt 0
    (ipSer (outboundIp s.ip proto (BitVec.ofNat 16 (20 + pay.length)))
      (ipCksum (outboundIp s.ip proto (BitVec.ofNat 16 (20 + pay.length)))) ++ pay) b a
  simp only [List.length_append, ipSer_length, Nat.zero_le, true_and, Nat.zero_add, Nat.sub_zero] at e
  rw [← e]
  rfl

/-- The registers `emitIp` leaves alone. -/
theorem State.emitIp_get (s : State) (proto : Byte) (pay : List Byte) {r : Reg}
    (h : r ∉ [.ipVer, .ipIhl, .ipTlen, .ipProto, .ipCsum, .outLen]) : (s.emitIp proto pay).get r = s.get r := by
  rw [State.emitIp_eq, ← State.memWrite_get s .pkt 0 (ipSer _ (ipCksum _) ++ pay) r]
  have key : ∀ (u : State) (hd : IpHeader) (c n : Half), hd = outboundIp u.ip hd.proto hd.tlen →
      State.get { u with ip := hd, ipCsum := c, outLen := n } r = u.get r := by
    intro u hd c n e
    have e1 : hd.tos = u.ip.tos := by rw [e]; rfl
    have e2 : hd.ident = u.ip.ident := by rw [e]; rfl
    have e3 : hd.frag = u.ip.frag := by rw [e]; rfl
    have e4 : hd.ttl = u.ip.ttl := by rw [e]; rfl
    have e5 : hd.src = u.ip.src := by rw [e]; rfl
    have e6 : hd.dst = u.ip.dst := by rw [e]; rfl
    cases r <;> first | rfl | exact absurd (by decide) h | simp only [State.get, e1, e2, e3, e4, e5, e6]
  exact key _ _ _ _ rfl

/-! ### The parsers -/

theorem ipFields_ver (bs : List Byte) : (ipFields bs).ver = 4 ↔ (rd8 bs 0).toNat / 16 = 4 := by
  rw [← BitVec.toNat_inj, ← toNat_highNibble]; rfl

theorem ipFields_ihl (bs : List Byte) : (ipFields bs).ihl.toNat = (rd8 bs 0).toNat % 16 := toNat_lowNibble _

theorem tcpFields_doff (bs : List Byte) : (tcpFields bs).doff.toNat = (rd8 bs 12).toNat / 16 := toNat_highNibble _

/-- `ip_parse` accepts exactly when all checks of 41_ip_codec.md R121 pass, and otherwise reports the first that fails. -/
theorem ipParse_cases (bs : List Byte) :
    (ipVerdict bs = 0 ∧ ipParse bs = .ok (ipFields bs, rd16 bs 10)) ∨
    (ipVerdict bs ≠ 0 ∧ ∃ c, ipParse bs = .error c ∧ rejectedStatus c = ipVerdict bs) := by
  unfold ipVerdict ipParse
  simp only [ipHeaderLen, ne_eq, ipFields_ver, ipFields_ihl]
  by_cases h1 : bs.length < 20
  · simp only [if_pos h1]
    exact .inr ⟨by decide, .ipShort, rfl, by decide⟩
  simp only [if_neg h1]
  by_cases h2 : (rd8 bs 0).toNat / 16 = 4
  · simp only [if_neg (not_not_intro h2)]
    by_cases h3 : (rd8 bs 0).toNat % 16 < 5
    · simp only [if_pos h3]
      exact .inr ⟨by decide, .ipIhlMin, rfl, by decide⟩
    · simp only [if_neg h3]
      by_cases h4 : bs.length < 4 * ((rd8 bs 0).toNat % 16)
      · simp only [if_pos h4]
        exact .inr ⟨by decide, .ipIhlBuf, rfl, by decide⟩
      · simp only [if_neg h4]
        exact .inl ⟨trivial, trivial⟩
  · simp only [if_pos h2]
    exact .inr ⟨by decide, .ipVersion, rfl, by decide⟩

theorem ipParse_ok {bs : List Byte} (h : ipVerdict bs = 0) : ipParse bs = .ok (ipFields bs, rd16 bs 10) :=
  ((ipParse_cases bs).resolve_right fun h' => h'.1 h).2

theorem ipParse_error {bs : List Byte} (h : ipVerdict bs ≠ 0) :
    ∃ c, ipParse bs = .error c ∧ rejectedStatus c = ipVerdict bs :=
  ((ipParse_cases bs).resolve_left fun h' => h h'.1).2

/-- `tcp_parse` accepts exactly when all checks of 42_tcp_codec.md R141 pass, and otherwise reports the first that fails. -/
theorem tcpParse_cases (bs : List Byte) :
    (tcpVerdict bs = 0 ∧ tcpParse bs = .ok (tcpFields bs, rd16 bs 16)) ∨
    (tcpVerdict bs ≠ 0 ∧ ∃ c, tcpParse bs = .error c ∧ rejectedStatus c = tcpVerdict bs) := by
  unfold tcpVerdict tcpParse
  simp only [tcpHeaderLen, ne_eq, tcpFields_doff]
  by_cases h1 : bs.length < 20
  · simp only [if_pos h1]
    exact .inr ⟨by decide, .tcpShort, rfl, by decide⟩
  simp only [if_neg h1]
  by_cases h3 : (rd8 bs 12).toNat / 16 < 5
  · simp only [if_pos h3]
    exact .inr ⟨by decide, .tcpDoffMin, rfl, by decide⟩
  · simp only [if_neg h3]
    by_cases h4 : bs.length < 4 * ((rd8 bs 12).toNat / 16)
    · simp only [if_pos h4]
      exact .inr ⟨by decide, .tcpDoffBuf, rfl, by decide⟩
    · simp only [if_neg h4]
      exact .inl ⟨trivial, trivial⟩

theorem tcpParse_ok {bs : List Byte} (h : tcpVerdict bs = 0) : tcpParse bs = .ok (tcpFields bs, rd16 bs 16) :=
  ((tcpParse_cases bs).resolve_right fun h' => h'.1 h).2

theorem tcpParse_error {bs : List Byte} (h : tcpVerdict bs ≠ 0) :
    ∃ c, tcpParse bs = .error c ∧ rejectedStatus c = tcpVerdict bs :=
  ((tcpParse_cases bs).resolve_left fun h' => h h'.1).2

/-- What an accepted IP header guarantees (41_ip_codec.md R121). -/
theorem ipVerdict_zero {bs : List Byte} (h : ipVerdict bs = 0) :
    20 ≤ bs.length ∧ (ipFields bs).ver = 4 ∧ 5 ≤ (ipFields bs).ihl.toNat ∧ 4 * (ipFields bs).ihl.toNat ≤ bs.length := by
  unfold ipVerdict at h
  rw [ipFields_ver, ipFields_ihl]
  split at h
  · cases h
  · split at h
    · cases h
    · split at h
      · cases h
      · split at h
        · cases h
        · omega

/-- What an accepted TCP header guarantees (42_tcp_codec.md R141). -/
theorem tcpVerdict_zero {bs : List Byte} (h : tcpVerdict bs = 0) :
    20 ≤ bs.length ∧ 5 ≤ (tcpFields bs).doff.toNat ∧ 4 * (tcpFields bs).doff.toNat ≤ bs.length := by
  unfold tcpVerdict at h
  rw [tcpFields_doff]
  split at h
  · cases h
  · split at h
    · cases h
    · split at h
      · cases h
      · omega

end Sys2Proof.Machine
end

