-- ==== Sys2Proof/Laws/Host.lean ====
section
/-! SUPPORT. What the host's primitives and a step can do (20_memory.md R46 to R49, 70_reset_and_hazards.md R241). -/

namespace Sys2Proof.Machine

/-! ### The register file -/

@[simp] theorem Reg.ofNum_num (r : Reg) : Reg.ofNum r.num = some r := by cases r <;> rfl

/-- A number that has a register is that register's number. -/
theorem Reg.num_of_ofNum {rn : BitVec 8} {r : Reg} (h : Reg.ofNum rn = some r) : r.num = rn := by
  have h' := List.find?_some h
  simpa using h'

/-- A write to a register changes no other register. -/
theorem State.put_get_other (s : State) {r r' : Reg} (v : Word) (h : r' ≠ r) : (s.put r v).get r' = s.get r' := by
  cases r <;> cases r' <;> first | rfl | exact absurd rfl h

@[simp] theorem State.put_bufs (s : State) (r : Reg) (v : Word) : (s.put r v).bufs = s.bufs := by cases r <;> rfl
@[simp] theorem State.put_par (s : State) (r : Reg) (v : Word) : (s.put r v).par = s.par := by cases r <;> rfl
@[simp] theorem State.put_epoch (s : State) (r : Reg) (v : Word) : (s.put r v).epoch = s.epoch := by cases r <;> rfl
@[simp] theorem State.put_host (s : State) (r : Reg) (v : Word) : (s.put r v).host = s.host := by cases r <;> rfl

/-! ### The step -/

theorem step_idle {s : State} (h : s.host = []) : step s = .next s := by
  simp only [step, runPending, h]

theorem step_host {s : State} {x : HostStep} {rest : List HostStep} (h : s.host = x :: rest) :
    step s = runHostStep x { s with host := rest } := by
  simp only [step, runPending, h]

/-- Everything a host write to a register can do: nothing, run a command word, or store. -/
theorem hostRegWrite_cases (rn : BitVec 8) (v : Word) (s : State) :
    (Reg.ofNum rn = none ∧ hostRegWrite rn v s = .next s) ∨
    ∃ r, Reg.ofNum rn = some r ∧
      ((r.access = .ro ∧ hostRegWrite rn v s = .next s) ∨
       (r.access = .wt ∧ hostRegWrite rn v s = runCommandWord (v.setWidth 16) s) ∨
       (r.access = .rw ∧ hostRegWrite rn v s = .next (s.put r v))) := by
  unfold hostRegWrite
  cases Reg.ofNum rn with
  | none => exact .inl ⟨rfl, rfl⟩
  | some r =>
    refine .inr ⟨r, rfl, ?_⟩
    dsimp only
    cases r.access
    · exact .inr (.inr ⟨rfl, rfl⟩)
    · exact .inl ⟨rfl, rfl⟩
    · exact .inr (.inl ⟨rfl, rfl⟩)

/-- Everything the execution of a command word can do (30_encoding.md R60). -/
theorem runCommandWord_cases (w : Half) (s : State) :
    (∃ i, decode w = .ok i ∧ runCommandWord w s = exec i { s with cmd := w }) ∨
    (∃ e, decode w = .error e ∧
      runCommandWord w s = .next { s with cmd := w, status := rejectedStatus (causeOfDecodeError e) }) := by
  unfold runCommandWord
  cases decode w with
  | ok i => exact .inl ⟨i, rfl, rfl⟩
  | error e => exact .inr ⟨e, rfl, rfl⟩

/-- A host buffer write is a store, or nothing (20_memory.md R48). -/
theorem State.hostBufWrite_cases (s : State) (b : Buf) (off : Half) (bs : List Byte) :
    (off.toNat + bs.length ≤ s.size b ∧ s.hostBufWrite b off bs = s.memWrite b off.toNat bs) ∨
    (s.size b < off.toNat + bs.length ∧ s.hostBufWrite b off bs = s) := by
  unfold State.hostBufWrite
  by_cases h : off.toNat + bs.length ≤ s.size b
  · exact .inl ⟨h, if_pos h⟩
  · exact .inr ⟨by omega, if_neg h⟩

end Sys2Proof.Machine
end

