-- ==== Sys2Proof/Laws/PerInstr.lean ====
section
/-! SUPPORT. Statements about every command as syntax, one lemma per constructor. -/

namespace Sys2Proof.Laws

/-- `EncodeWellFormed`: the encoder writes only words that 30_encoding.md R61 to R63 accept. -/
def EncodeWellFormed.Statement (i : Instr) : Prop := wordWellFormed (encode i) = true

theorem EncodeWellFormed.csumAcc (b : Buf) : EncodeWellFormed.Statement (.csumAcc b) := by cases b <;> rfl
theorem EncodeWellFormed.csumFin (b : Buf) : EncodeWellFormed.Statement (.csumFin b) := by cases b <;> rfl
theorem EncodeWellFormed.ipEnc (b : Buf) : EncodeWellFormed.Statement (.ipEnc b) := by cases b <;> rfl
theorem EncodeWellFormed.ipDec (b : Buf) : EncodeWellFormed.Statement (.ipDec b) := by cases b <;> rfl
theorem EncodeWellFormed.ipCsum : EncodeWellFormed.Statement .ipCsum := rfl
theorem EncodeWellFormed.ipVfy (b : Buf) : EncodeWellFormed.Statement (.ipVfy b) := by cases b <;> rfl
theorem EncodeWellFormed.tcpEnc (b : Buf) : EncodeWellFormed.Statement (.tcpEnc b) := by cases b <;> rfl
theorem EncodeWellFormed.tcpDec (b : Buf) : EncodeWellFormed.Statement (.tcpDec b) := by cases b <;> rfl
theorem EncodeWellFormed.tcpPsh : EncodeWellFormed.Statement .tcpPsh := rfl
theorem EncodeWellFormed.tcpCsum (b : Buf) : EncodeWellFormed.Statement (.tcpCsum b) := by cases b <;> rfl
theorem EncodeWellFormed.tcpVfy (b : Buf) : EncodeWellFormed.Statement (.tcpVfy b) := by cases b <;> rfl
theorem EncodeWellFormed.tcpFstr : EncodeWellFormed.Statement .tcpFstr := rfl
theorem EncodeWellFormed.asmIp : EncodeWellFormed.Statement .asmIp := rfl
theorem EncodeWellFormed.asmTcp : EncodeWellFormed.Statement .asmTcp := rfl
theorem EncodeWellFormed.disasm (b : Buf) : EncodeWellFormed.Statement (.disasm b) := by cases b <;> rfl
theorem EncodeWellFormed.nop : EncodeWellFormed.Statement .nop := rfl
theorem EncodeWellFormed.rst : EncodeWellFormed.Statement .rst := rfl

end Sys2Proof.Laws
end

