-- ==== Sys2Proof/Tests/Slice0.lean ====
section
/-! SUPPORT. Tests of one step each on small states, with expected values from 95_test_vectors.md or from the tables of the
rule a test names, and for every obligation with hypotheses a witness (`test_<Obligation>_met`) that meets them. -/

namespace Sys2Proof.Tests

open Sys2Proof Sys2Proof.Machine

/-! ### States and data -/

/-- What `f` says of the next state; `none` if the outcome is no next state. -/
def got {α : Type} (o : Host.Outcome State Fault Refusal) (f : State → α) : Option α :=
  match o with
  | .next t => some (f t)
  | .fault _ => none
  | .refused _ => none

/-- The reset state with `OFF` and `LEN` set. -/
def region (off len : Half) : State := { State.reset with off := off, len := len }

/-- `region off len` with `bs` stored in buffer `b` from `OFF` on. -/
def holding (b : Buf) (bs : List Byte) (off len : Half) : State := (region off len).memWrite b off.toNat bs

/-- Header H1 of 95_test_vectors.md section 4. -/
def h1 : List Byte :=
  [0x45, 0xa5, 0x00, 0x28, 0x1c, 0x46, 0x40, 0x00, 0x40, 0x06, 0xb1, 0xe6, 0xac, 0x10, 0x0a, 0x63, 0xac, 0x10, 0x0a, 0x0c]

/-- The registers of V-IP-1. -/
def h1Regs : IpHeader :=
  { ver := 4, ihl := 5, tos := 0xA5, tlen := 0x0028, ident := 0x1C46, frag := 0x4000, ttl := 0x40, proto := 6
    src := 0xAC100A63, dst := 0xAC100A0C }

/-- Header T1 of section 5. -/
def t1 : List Byte :=
  [0x12, 0x34, 0x00, 0x50, 0xde, 0xad, 0xbe, 0xef, 0x01, 0x02, 0x03, 0x04, 0x50, 0x18, 0x20, 0x00, 0xab, 0xcd, 0x00, 0x01]

/-- The registers of V-TCP-1. -/
def t1Regs : TcpHeader :=
  { sport := 0x1234, dport := 0x0050, seq := 0xDEADBEEF, ack := 0x01020304, doff := 5, rsvd := 0, flags := 0x18
    win := 0x2000, urg := 0x0001 }

/-- The IP header of packet K1 of section 6. -/
def k1Ip : List Byte :=
  [0x45, 0x00, 0x00, 0x2d, 0x00, 0x01, 0x00, 0x00, 0x40, 0x06, 0x66, 0xc8, 0x0a, 0x00, 0x00, 0x01, 0x0a, 0x00, 0x00, 0x02]

/-- The TCP segment of packet K1: header and "hello". -/
def k1Segment : List Byte :=
  [0x30, 0x39, 0x00, 0x50, 0x00, 0x00, 0x03, 0xe8, 0x00, 0x00, 0x00, 0x00, 0x50, 0x02, 0xff, 0xff, 0x23, 0x98, 0x00, 0x00,
   0x68, 0x65, 0x6c, 0x6c, 0x6f]

/-- Packet K1 of section 6. -/
def k1 : List Byte := k1Ip ++ k1Segment

/-- The payload "hello" in `PAY`, and the registers of V-PK-5. -/
def helloState : State :=
  { holding .pay [0x68, 0x65, 0x6c, 0x6c, 0x6f] 0 5 with
    ip := { IpHeader.zero with ident := 1, ttl := 64, src := 0x0A000001, dst := 0x0A000002 }
    tcp := { TcpHeader.zero with sport := 12345, dport := 80, seq := 1000, flags := 0x02, win := 65535 } }

/-- Only the two addresses set, 10.0.0.1 and 10.0.0.2 (V-TCP-8 to V-TCP-13). -/
def addresses (s : State) : State := { s with ip := { s.ip with proto := 6, src := 0x0A000001, dst := 0x0A000002 } }

/-! ### Well-formed words and parameters -/

/-- A word of each class is accepted; one that breaks each check alone is refused (30_encoding.md R62, R63, R65): an
unassigned opcode, reserved bits, a `BSEL` for a command without region, a `BSEL` other than 1 for an assembler. -/
theorem test_wellFormed_smoke :
    wordWellFormed 0x0301 = true ∧ wordWellFormed 0x0131 = true ∧ wordWellFormed 0x003F = true ∧
    wordWellFormed 0x0003 = false ∧ wordWellFormed 0x00FF = false ∧ wordWellFormed 0x0400 = false ∧
    wordWellFormed 0x8000 = false ∧ wordWellFormed 0x0112 = false ∧ wordWellFormed 0x0030 = false ∧
    wordWellFormed 0x0230 = false := by decide

/-- 00_scope.md R5: each constraint refuses a value just outside it. -/
theorem test_params_smoke :
    Params.Ok { maxUnit := 1400, pktSize := 1400, paySize := 1380, protoTcp := 17 } ∧
    Params.Ok { maxUnit := 1500, pktSize := 65535, paySize := 65535, protoTcp := 6 } ∧
    ¬ Params.Ok { maxUnit := 1399, pktSize := 2048, paySize := 2048, protoTcp := 6 } ∧
    ¬ Params.Ok { maxUnit := 1501, pktSize := 2048, paySize := 2048, protoTcp := 6 } ∧
    ¬ Params.Ok { maxUnit := 1500, pktSize := 1499, paySize := 2048, protoTcp := 6 } ∧
    ¬ Params.Ok { maxUnit := 1500, pktSize := 65536, paySize := 2048, protoTcp := 6 } ∧
    ¬ Params.Ok { maxUnit := 1500, pktSize := 2048, paySize := 1479, protoTcp := 6 } ∧
    ¬ Params.Ok { maxUnit := 1500, pktSize := 2048, paySize := 65536, protoTcp := 6 } := by decide

/-! ### Decoding: words written out bit by bit, RSV(6) BSEL(2) OPC(8), from 30_encoding.md R61 to R63 -/

theorem test_decode_checksum :
    decode 0b0000000000000001 = .ok (.csumAcc .pkt) ∧ decode 0b0000001100000001 = .ok (.csumAcc .str) ∧
    decode 0b0000000100000010 = .ok (.csumFin .pay) := by decide

theorem test_decode_ip :
    decode 0b0000001000010000 = .ok (.ipEnc .phdr) ∧ decode 0b0000000000010001 = .ok (.ipDec .pkt) ∧
    decode 0b0000000000010010 = .ok .ipCsum ∧ decode 0b0000000100010011 = .ok (.ipVfy .pay) := by decide

theorem test_decode_tcp :
    decode 0b0000000000100000 = .ok (.tcpEnc .pkt) ∧ decode 0b0000001100100001 = .ok (.tcpDec .str) ∧
    decode 0b0000000000100010 = .ok .tcpPsh ∧ decode 0b0000000100100011 = .ok (.tcpCsum .pay) ∧
    decode 0b0000000000100100 = .ok (.tcpVfy .pkt) ∧ decode 0b0000000000100101 = .ok .tcpFstr := by decide

theorem test_decode_packet :
    decode 0b0000000100110000 = .ok .asmIp ∧ decode 0b0000000100110001 = .ok .asmTcp ∧
    decode 0b0000000100110010 = .ok (.disasm .pay) := by decide

theorem test_decode_system :
    decode 0b0000000000000000 = .ok .nop ∧ decode 0b0000000000111111 = .ok .rst := by decide

/-- V-SY-2 to V-SY-6: unassigned opcode before reserved bits before `BSEL`. -/
theorem test_decode_rejects :
    decode 0x0433 = .error .opcodeReserved ∧ decode 0x043F = .error .fieldReserved ∧
    decode 0x013F = .error .fieldReserved ∧ decode 0x0125 = .error .fieldReserved ∧
    decode 0x0030 = .error .fieldReserved ∧ decode 0x00FF = .error .opcodeReserved := by decide

/-- The words the encoder writes for the commands of program P1 and P2. -/
theorem test_encode :
    encode (.csumAcc .phdr) = 0x0201 ∧ encode .asmTcp = 0x0131 ∧ encode (.disasm .pkt) = 0x0032 ∧
    encode .tcpFstr = 0x0025 ∧ encode (.tcpCsum .pkt) = 0x0023 := by decide

theorem test_decodeTableWord :
    decodeTableWord 16 0x0131 = some .asmTcp ∧ decodeTableWord 16 0x0003 = none := by decide

/-! ### The checksum engine -/

/-- V-CS-2, V-CS-3, V-CS-8. -/
theorem test_ocadd : ocadd 0xFFFF 0x0001 = 0x0001 ∧ ocadd 0xFFFF 0xFFFF = 0xFFFF ∧ ocadd 0xF000 0x2345 = 0x1346 := by
  decide

/-- V-CS-9, V-CS-11, V-CS-13, V-CS-21. -/
theorem test_ocsum :
    cksum [] 0 = 0xFFFF ∧ ocsum [0x01] 0 = 0x0100 ∧
    ocsum [0x00, 0x01, 0xf2, 0x03, 0xf4, 0xf5, 0xf6, 0xf7] 0 = 0xDDF2 ∧ ocsum [0, 0, 0, 0] 0xFFFF = 0xFFFF := by decide

/-- V-CS-23: words pair from the region's start; the region's three bytes stand at `PAY` offset 1. -/
theorem test_csumFin :
    got (exec (.csumFin .pay) (holding .pay [0x12, 0x34, 0x56] 1 3)) (fun t => (t.acc, t.result, t.status)) =
      some (0x6834, 0x97CB, 0) := by decide

/-- V-CS-13, first region: `RESULT` is not touched. -/
theorem test_csumAcc :
    got (exec (.csumAcc .pkt) (holding .pkt [0x00, 0x01, 0xf2, 0x03] 0 4)) (fun t => (t.acc, t.result, t.status)) =
      some (0xF204, 0, 0) := by decide

/-- V-CS-26: the bounds check does not wrap. -/
theorem test_csumAcc_range :
    got (exec (.csumAcc .pkt) { region 0xFFFF 0xFFFF with acc := 7 }) (fun t => (t.acc, t.status)) = some (7, 0x0314) := by
  decide

/-! ### The IP header codec -/

/-- V-IP-1. -/
theorem test_ipEnc :
    got (exec (.ipEnc .pkt) { region 0 0 with ip := h1Regs, ipCsum := 0xB1E6 }) (fun t => (t.memRead .pkt 0 20, t.status)) =
      some (h1, 0) := by decide

/-- V-IP-16: on `STR`, offset 4 fits and offset 5 does not. -/
theorem test_ipEnc_str :
    got (exec (.ipEnc .str) (region 4 0)) (fun t => t.status) = some 0 ∧
    got (exec (.ipEnc .str) (region 5 0)) (fun t => t.status) = some 0x0314 := by decide

/-- V-IP-2. -/
theorem test_ipDec :
    got (exec (.ipDec .pkt) (holding .pkt h1 0 20)) (fun t => (t.ip, t.ipCsum, t.nextOff, t.status)) =
      some (h1Regs, 0xB1E6, 20, 0) := by decide

/-- V-IP-11: version 6 and header length 3, version is checked first. -/
theorem test_ipDec_order :
    got (exec (.ipDec .pkt) (holding .pkt (h1.set 0 0x63) 0 20)) (fun t => (t.ip.tos, t.status)) = some (0, 0x0022) := by
  decide

/-- V-IP-3, V-IP-17. -/
theorem test_ipCsum :
    got (exec .ipCsum { State.reset with ip := h1Regs, ipCsum := 0xB1E6 }) (fun t => (t.ipCsum, t.result)) =
      some (0xB155, 0xB155) ∧
    ipCksum { IpHeader.zero with
      ver := 4, ihl := 5, tlen := 0x0073, frag := 0x4000, ttl := 0x40, proto := 0x11, src := 0xC0A80001, dst := 0xC0A800C7 } =
      0xB861 := by decide

/-- V-IP-4 and V-IP-5: bits 1 and 2 of `VALID` stay. -/
theorem test_ipVfy :
    got (exec (.ipVfy .pkt) { holding .pkt h1 0 20 with valid := 7 }) (fun t => (t.valid, t.status)) = some (6, 0x1000) ∧
    got (exec (.ipVfy .pkt) { holding .pkt k1Ip 0 20 with valid := 4 }) (fun t => (t.valid, t.status)) = some (5, 0) := by
  decide

/-- The header of V-CS-14, the one kind of input on which the two formulations disagree. -/
def negativeZero : List Byte :=
  [0x45, 0x00, 0x00, 0x14, 0xba, 0xeb, 0, 0, 0, 0, 0xff, 0xff, 0, 0, 0, 0, 0, 0, 0, 0]

/-- V-CS-14. -/
theorem test_ipVfy_modes :
    got (exec (.ipVfy .pkt) (holding .pkt negativeZero 0 20)) (fun t => (t.valid, t.status)) = some (0, 0x1000) ∧
    got (exec (.ipVfy .pkt) { holding .pkt negativeZero 0 20 with cfg := 1 }) (fun t => (t.valid, t.status)) =
      some (1, 0) := by decide

/-! ### The TCP header codec -/

/-- V-TCP-1. -/
theorem test_tcpEnc :
    got (exec (.tcpEnc .pkt) { region 0 0 with tcp := t1Regs, tcpCsum := 0xABCD }) (fun t => (t.memRead .pkt 0 20, t.status)) =
      some (t1, 0) := by decide

/-- V-TCP-2, V-TCP-5: reserved bits and flag bits 7:6 are kept. -/
theorem test_tcpDec :
    got (exec (.tcpDec .pkt) (holding .pkt t1 0 20)) (fun t => (t.tcp, t.tcpCsum, t.nextOff, t.status)) =
      some (t1Regs, 0xABCD, 20, 0) ∧
    got (exec (.tcpDec .pkt) (holding .pkt ((t1.set 12 0x5A).set 13 0xD2) 0 20))
      (fun t => (t.tcp.doff, t.tcp.rsvd, t.tcp.flags)) = some (5, 0xA, 0xD2) := by decide

/-- V-TCP-4, V-TCP-6. -/
theorem test_tcpDec_rejects :
    got (exec (.tcpDec .pay) (holding .pay (t1.set 12 0x40) 3 20)) (fun t => t.status) = some 0x0132 ∧
    got (exec (.tcpDec .pkt) (holding .pkt (t1.set 12 0x60) 0 20)) (fun t => (t.tcp.sport, t.status)) =
      some (0, 0x0142) := by decide

/-- V-TCP-8. -/
theorem test_tcpPsh :
    got (exec .tcpPsh (addresses (region 0 20))) (fun t => (t.memRead .phdr 0 12, t.status)) =
      some ([0x0a, 0, 0, 0x01, 0x0a, 0, 0, 0x02, 0x00, 0x06, 0x00, 0x14], 0) := by decide

/-- V-TCP-10, the golden scenario, and its variant with `TCP_DOFF` 5. -/
theorem test_tcpCsum_golden :
    got (exec (.tcpCsum .pkt) { addresses (region 0 0) with tcp := { TcpHeader.zero with flags := 2 } })
      (fun t => (t.tcpCsum, t.result, t.acc)) = some (0xEBE0, 0xEBE0, 0) ∧
    got (exec (.tcpCsum .pkt) { addresses (region 0 0) with tcp := { TcpHeader.zero with flags := 2, doff := 5 } })
      (fun t => t.tcpCsum) = some 0x9BE0 := by decide

/-- V-TCP-11: an odd payload. -/
theorem test_tcpCsum_odd :
    got (exec (.tcpCsum .pay) { holding .pay [0x61, 0x62, 0x63] 0 3 with ip := h1Regs, tcp := t1Regs })
      (fun t => (t.tcpCsum, t.result)) = some (0xAAAE, 0xAAAE) := by decide

/-- V-TCP-12, V-TCP-13. -/
theorem test_tcpVfy :
    got (exec (.tcpVfy .pkt) { addresses (holding .pkt k1Segment 0 25) with valid := 5 }) (fun t => (t.valid, t.status)) =
      some (7, 0) ∧
    got (exec (.tcpVfy .pkt) { addresses (holding .pkt (k1Segment.set 20 0x69) 0 25) with valid := 7 })
      (fun t => (t.valid, t.status)) = some (5, 0x1000) := by decide

/-- V-TCP-16: "ACK+SYN". -/
theorem test_tcpFstr :
    got (exec .tcpFstr { State.reset with tcp := { TcpHeader.zero with flags := 0x12 } })
      (fun t => (t.strLen, t.memRead .str 0 24, t.status)) =
      some (7, [0x41, 0x43, 0x4b, 0x2b, 0x53, 0x59, 0x4e] ++ List.replicate 17 0, 0) := by decide

/-- V-TCP-21 and V-TCP-22: all six names; bits 7:6 have none. -/
theorem test_flagsStr :
    flagsStr 0xFF = [0x41, 0x43, 0x4b, 0x2b, 0x46, 0x49, 0x4e, 0x2b, 0x50, 0x53, 0x48, 0x2b, 0x52, 0x53, 0x54, 0x2b,
      0x53, 0x59, 0x4e, 0x2b, 0x55, 0x52, 0x47] ∧ flagsStr 0xC0 = [] := by decide

/-! ### The packet assembler and disassembler -/

/-- V-PK-1. -/
theorem test_asmIp :
    got (exec .asmIp { holding .pay [0x61, 0x62, 0x63] 0 3 with
        ip := { IpHeader.zero with
          tos := 0x10, ident := 0xBEEF, frag := 0x4000, ttl := 1, proto := 17, src := 0xC0A80001, dst := 0xC0A800C7 } })
      (fun t => (t.memRead .pkt 0 23, (t.ip.ver, t.ip.ihl, t.ip.tlen), (t.ipCsum, t.outLen, t.status))) =
      some ([0x45, 0x10, 0x00, 0x17, 0xbe, 0xef, 0x40, 0x00, 0x01, 0x11, 0x38, 0xbe, 0xc0, 0xa8, 0x00, 0x01,
        0xc0, 0xa8, 0x00, 0xc7, 0x61, 0x62, 0x63], (4, 5, 23), (0x38BE, 23, 0)) := by decide

/-- V-PK-3, V-PK-6a: one byte too many, and bounds before size. -/
theorem test_asmIp_rejects :
    got (exec .asmIp (region 0 1481)) (fun t => (t.ip.ver, t.status)) = some (0, 0x0213) ∧
    got (exec .asmIp (region 1000 1481)) (fun t => t.status) = some 0x0314 := by decide

/-- V-PK-5: packet K1. -/
theorem test_asmTcp :
    got (exec .asmTcp helloState)
      (fun t => (t.memRead .pkt 0 45, (t.tcp.doff, t.tcpCsum, t.ip.proto), ((t.ip.tlen, t.ipCsum), t.outLen, t.status))) =
      some (k1, (5, 0x2398, 6), ((45, 0x66C8), 45, 0)) := by decide

/-- V-PK-7, at `PAY` offset 7. -/
theorem test_disasm :
    got (exec (.disasm .pay) (holding .pay k1 7 45))
      (fun t => ((t.valid, t.ip.tlen, t.ipCsum), (t.tcp.flags, t.tcp.doff, t.tcpCsum), (t.slOff, t.slLen, t.status))) =
      some ((7, 45, 0x66C8), (0x02, 5, 0x2398), (47, 5, 0)) := by decide

/-- V-PK-15: a rejection in the TCP layer has written nothing. V-PK-9: `VALID` says which checksum failed. -/
theorem test_disasm_tcp_layer :
    got (exec (.disasm .pkt) { holding .pkt (k1.set 32 0x40) 0 45 with ip := { IpHeader.zero with ttl := 99 } })
      (fun t => (t.ip.ttl, t.ip.tlen, t.status)) = some (99, 0, 0x0132) ∧
    got (exec (.disasm .pkt) (holding .pkt (k1.set 8 0x41) 0 45)) (fun t => (t.valid, t.ip.ttl, t.status)) =
      some (6, 65, 0x1000) := by decide

/-- V-PK-19: another protocol; the TCP registers stay. V-PK-13, V-PK-11: the checks on the total length. -/
theorem test_disasm_other :
    got (exec (.disasm .pkt) { holding .pkt (((k1.set 9 17).set 10 0x66).set 11 0xbd) 0 45 with tcp := t1Regs })
      (fun t => (t.valid, t.slOff, t.slLen, t.tcp, t.status)) = some (1, 20, 25, t1Regs, 0) ∧
    got (exec (.disasm .pkt) (holding .pkt (k1.set 3 19) 0 45)) (fun t => t.status) = some 0x0052 ∧
    got (exec (.disasm .pkt) (holding .pkt k1 0 44)) (fun t => t.status) = some 0x0061 := by decide

/-! ### The system commands and the host -/

/-- V-SY-1. -/
theorem test_nop : got (exec .nop { State.reset with status := 0x1000, acc := 3 }) (fun t => (t.status, t.acc)) = some (0, 3) := by
  decide

/-- V-SY-9, as a host write of 0x003F to `CMD`. -/
theorem test_rst :
    got (step (State.withFetchWord { holding .pkt [0x45] 0 0 with acc := 0x1234, cfg := 1 } 16 0x003F))
      (fun t => (t.acc, t.cfg, t.status, t.cmd, t.byte .pkt 0)) = some (0, 0, 0, 0, 0x45) := by decide

/-- V-SY-8: a 32-bit value is truncated; `CMD` reads back the word although it was rejected. -/
theorem test_cmd_truncates :
    got (step { State.reset with host := [.regWrite 0x00 0x0001FF01] }) (fun t => (t.hostRegRead 0x00, t.status)) =
      some (0xFF01, 0x0425) := by decide

/-- V-SY-10, V-SY-11: truncation to the register's width. -/
theorem test_host_write_truncates :
    got (step { State.reset with host := [lineWr .ipVer 0x14] }) (fun t => t.hostRegRead 0x10) = some 4 ∧
    got (step { State.reset with host := [lineWr .cfg 0xFFFFFFFE] }) (fun t => t.hostRegRead 0x02) = some 0 ∧
    got (step { State.reset with host := [lineWr .ipSrc 0xFFFFFFFF] }) (fun t => t.hostRegRead 0x19) = some 0xFFFFFFFF := by
  decide

/-- V-SY-12, V-SY-13: `RO` registers and unassigned numbers ignore writes; the latter read 0. -/
theorem test_host_write_ignored :
    got (step { State.reset with host := [.regWrite 0x06 5] }) (fun t => t.hostRegRead 0x06) = some 0 ∧
    got (step { State.reset with host := [.regWrite 0x2A 5] }) (fun t => (t.hostRegRead 0x2A, t.hostRegRead 0x29)) =
      some (0, 0) := by decide

/-- 20_memory.md R48: a buffer write that ends at the buffer's end lands, one byte more does not. -/
theorem test_host_buffer_write :
    got (step { State.reset with host := [lineWrb .phdr 10 [0xAA, 0xBB]] }) (fun t => t.hostBufRead .phdr 10 2) =
      some (some [0xAA, 0xBB]) ∧
    got (step { State.reset with host := [lineWrb .phdr 11 [0xAA, 0xBB]] }) (fun t => (t.bufs, t.status)) =
      some (State.reset.bufs, 0) ∧
    State.reset.hostBufRead .phdr 11 2 = none := by decide

/-- 30_encoding.md R68 on V-CS-12: four host steps leave `checksum(bytes, 0)` in `RESULT`. -/
theorem test_pseudoChecksum :
    got (Host.Core.run Sys2Proof.core 4 { holding .pay [0x12, 0x34, 0x56] 0 0 with host := pseudoChecksum .pay 0 3 0 })
      (fun t : State => (t.result, t.host)) = some (0x97CB, []) := by decide

/-- The first step after reset, as the host's check runs it. -/
theorem test_withFetchWord :
    got (step (State.withFetchWord State.reset 16 0x0012)) (fun t => (t.result, t.cmd, t.host)) = some (0xFFFF, 0x0012, []) := by
  decide

/-! ### Witnesses: concrete states and operands that meet the hypotheses of each obligation, clause by clause -/

/-- A host write of word `w` to `CMD`, then nothing. -/
def cmdWrite (s : State) (w : Word) : State := { s with host := [.regWrite 0x00 w] }

theorem test_CommandEncoding_met :
    wordOpc 0x0301 = 0x01 ∧ wordOpc 0x0402 = 0x02 ∧ wordOpc 0x0010 = 0x10 ∧ wordOpc 0x0111 = 0x11 ∧
    wordOpc 0x0112 = 0x12 ∧ wordOpc 0x0013 = 0x13 ∧ wordOpc 0xFC20 = 0x20 ∧ wordOpc 0x0321 = 0x21 ∧
    wordOpc 0x0022 = 0x22 ∧ wordOpc 0x0123 = 0x23 ∧ wordOpc 0x0024 = 0x24 ∧ wordOpc 0x0025 = 0x25 ∧
    wordOpc 0x0030 = 0x30 ∧ wordOpc 0x0131 = 0x31 ∧ wordOpc 0x0032 = 0x32 ∧ wordOpc 0x0400 = 0x00 ∧
    wordOpc 0x003F = 0x3F := by decide

theorem test_ResetLeavesEveryRegisterZero_met :
    ({ State.reset with acc := 5, host := [.hardReset] } : State).host = .hardReset :: [] := rfl

theorem test_ResetMeetsTheInvariant_met : Params.suggested.Ok := by decide

/-- The reset state with a pending command satisfies the invariant, and its step completes. -/
theorem test_StepKeepsTheInvariant_met :
    (State.withFetchWord State.reset 16 0x0025).Inv ∧
    got (step (State.withFetchWord State.reset 16 0x0025)) (fun t => t.strLen) = some 0 := by
  refine ⟨⟨by decide, fun b => ?_, by decide, by decide, by decide, by decide, by decide⟩, by decide⟩
  cases b <;> exact ⟨List.Pairwise.nil, fun c hc => nomatch hc⟩

/-- Both clauses: a word that decodes, a word with an unassigned opcode, a word with a reserved bit. -/
theorem test_StepRunsTheDecodedCommand_met :
    (cmdWrite State.reset 0x0125).host = .regWrite 0x00 0x0125 :: [] ∧
    decode ((0x0025 : Word).setWidth 16) = .ok .tcpFstr ∧ decode ((0x0007 : Word).setWidth 16) = .error .opcodeReserved ∧
    decode ((0x0125 : Word).setWidth 16) = .error .fieldReserved := by decide

theorem test_IdleBlockAndReadsChangeNothing_met :
    State.reset.host = [] ∧ ({ State.reset with host := [.regRead 0x19] } : State).host = .regRead 0x19 :: [] ∧
    ({ State.reset with host := [.bufRead .pkt 2047 2] } : State).host = .bufRead .pkt 2047 2 :: [] := by decide

theorem test_StepKeepsTheParameters_met :
    got (step (cmdWrite State.reset 0x003F)) (fun t => t.par) = some Params.suggested := by decide

/-- `CMD` reads 0 after `RST` and the word after anything else, a rejected word among them. -/
theorem test_CmdHoldsTheLastWord_met :
    (cmdWrite State.reset 0x003F).host = .regWrite 0x00 0x003F :: [] ∧
    got (step (cmdWrite State.reset 0x003F)) (fun t => t.hostRegRead 0x00) = some 0 ∧
    got (step (cmdWrite State.reset 0x013F)) (fun t => (t.hostRegRead 0x00, t.status)) = some (0x013F, 0x0425) := by
  decide

/-- An `RW`, an `RO` and an unassigned number; the edges of the unassigned runs. -/
theorem test_HostRegisterAccess_met :
    ({ State.reset with host := [.regWrite 0x16 0x1FF] } : State).host = .regWrite 0x16 0x1FF :: [] ∧
    ({ State.reset with host := [.regRead 0x2A] } : State).host = .regRead 0x2A :: [] ∧
    (0x16 : BitVec 8) ≠ 0x00 ∧ rwWidth 0x16 = some 8 ∧ rwWidth 0x29 = some 16 ∧ rwWidth 0x02 = some 1 ∧
    rwWidth 0x01 = none ∧ rwWidth 0x0C = none ∧ rwWidth 0x0D = none ∧ rwWidth 0x2A = none ∧
    State.reset.hostRegRead 0x0D = 0 ∧ State.reset.hostRegRead 0x0F = 0 ∧ State.reset.hostRegRead 0x1B = 0 ∧
    State.reset.hostRegRead 0x1F = 0 ∧ State.reset.hostRegRead 0x2A = 0 ∧ State.reset.hostRegRead 0xFF = 0 := by
  decide

/-- An access that ends at the end of `STR`, and one byte more. -/
theorem test_HostBufferAccess_met :
    ({ State.reset with host := [.bufWrite .str 23 [1]] } : State).host = .bufWrite .str 23 [1] :: [] ∧
    (23 : Half).toNat + [(1 : Byte)].length ≤ State.reset.size .str ∧
    State.reset.size .str < (24 : Half).toNat + [(1 : Byte)].length ∧
    (24 : Half).toNat + 0 ≤ State.reset.size .str ∧
    ({ State.reset with host := [.bufRead .str 23 2] } : State).host = .bufRead .str 23 2 :: [] := by decide

theorem test_IllegalWordsAreRejectedByCause_met :
    opcAssigned (wordOpc 0x0003) = false ∧ opcAssigned (wordOpc 0x003E) = false ∧ opcAssigned (wordOpc 0x0040) = false ∧
    (opcAssigned (wordOpc 0x0130) = true ∧ wordWellFormed 0x0230 = false) ∧ wordWellFormed 0x0130 = true ∧
    (cmdWrite State.reset 0x0230).host = .regWrite 0x00 ((0x0230 : Half).setWidth 32) :: [] := by decide

theorem test_RejectionWritesStatusOnly_met :
    got (exec (.csumAcc .pkt) (region 2047 2)) (fun t => statusCode t.status) = some 4 ∧
    decode 0x0100 = .error .fieldReserved ∧ decode 0x0003 = .error .opcodeReserved := by decide

/-- A rejected and a completed command. -/
theorem test_RejectionsAreThoseListed_met :
    got (exec (.ipDec .pkt) (region 0 19)) (fun t => statusCode t.status) = some 1 ∧
    got (exec (.csumAcc .pkt) (region 2048 0)) (fun t => statusCode t.status) = some 0 := by decide

/-- Each of the three commands with `MISMATCH` set, and one without (V-IP-4, V-TCP-13, V-PK-8, V-PK-7). -/
theorem test_MismatchOnlyFromValidation_met :
    got (exec (.ipVfy .pkt) (holding .pkt h1 0 20)) (fun t => (statusMismatch t.status, t.valid)) = some (true, 0) ∧
    got (exec (.tcpVfy .pkt) (addresses (holding .pkt (k1Segment.set 20 0x69) 0 25)))
      (fun t => (statusMismatch t.status, t.valid)) = some (true, 0) ∧
    got (exec (.disasm .pkt) (holding .pkt (k1.set 40 0x69) 0 45)) (fun t => (statusMismatch t.status, t.valid)) =
      some (true, 5) ∧
    got (exec (.disasm .pkt) (holding .pkt k1 0 45)) (fun t => (statusMismatch t.status, t.valid)) = some (false, 7) := by
  decide

/-- A completed `DISASM` without a TCP header, a rejected `IP.ENC`, and the edges of the bytes `IP.ENC` writes. -/
theorem test_CommandsWriteOnlyWhatTheyName_met :
    got (exec (.disasm .pkt) (holding .pkt (k1.set 9 17) 0 45)) (fun t => skippedByDisasm (.disasm .pkt) .tcpWin t) =
      some true ∧
    got (exec (.ipEnc .phdr) (region 0 0)) (fun t => statusCode t.status) = some 4 ∧
    inWrittenBytes (.ipEnc .str) (region 4 0) .str 3 = false ∧ inWrittenBytes (.ipEnc .str) (region 4 0) .str 4 = true ∧
    inWrittenBytes (.ipEnc .str) (region 4 0) .str 23 = true ∧ inWrittenBytes (.ipEnc .str) (region 4 0) .str 24 = false ∧
    Reg.acc ∉ writesRegs (.ipEnc .str) := by decide

/-- Two different states that agree on what `CSUM.FIN` reads, and complete. -/
theorem test_CommandsDependOnListedInputsOnly_met :
    let s := holding .pay [1, 2, 3] 1 3
    let t := { holding .pay [1, 2, 3, 4] 1 3 with valid := 7, cfg := 1 }
    SameInputs (.csumFin .pay) s t ∧ s ≠ t ∧ got (exec (.csumFin .pay) s) (fun u => statusCode u.status) = some 0 ∧
      got (exec (.csumFin .pay) t) (fun u => statusCode u.status) = some 0 := by
  refine ⟨⟨rfl, ?_, ?_⟩, ?_, ?_, ?_⟩
  · decide
  · intro b h
    cases h
    decide
  · decide
  · decide
  · decide

/-- The premises of laws (7) and (8): a sum that is not 0, its representative, and two orders of the same words. -/
theorem test_OnesComplementLaws_met :
    ocsum [0xFF, 0xFF] 0 ≠ 0 ∧ 0xFFFF % 0xFFFF = ((0 : Half).toNat + plainSum [0xFF, 0xFF]) % 0xFFFF ∧
    ocsum [0x01] 0 ≠ 0 ∧ 0x0100 % 0xFFFF = ((0 : Half).toNat + plainSum [0x01]) % 0xFFFF := by decide

theorem test_OnesComplementLaws_perm_met : ([1, 2] : List Half).Perm [2, 1] := List.Perm.swap 2 1 []

theorem test_ThreadedSumOverRegions_met : ∀ r ∈ ([[1, 2], [], [3, 4]] : List (List Byte)), r.length % 2 = 0 := by decide

/-- A field at the very end of the region; both modes accept. -/
theorem test_ValidationHasTwoFormulations_met :
    0 % 2 = 0 ∧ 0 + 2 ≤ [(0xFF : Byte), 0xFF].length ∧ csumValid [0xFF, 0xFF] 0 0 0 = true ∧
    csumValid [0xFF, 0xFF] 0 0 1 = true := by decide

/-- The one point at which the modes differ (V-CS-14). -/
theorem test_ValidationModesDifferAtOnePoint_met :
    10 % 2 = 0 ∧ 10 + 2 ≤ negativeZero.length ∧ csumValid negativeZero 0 10 1 = true ∧
    csumValid negativeZero 0 10 0 = false ∧ ocsum (zeroField negativeZero 10) 0 = 0xFFFF ∧
    csumValid k1Ip 0 10 0 = true := by decide

/-- The first and the last bit outside the field of a region that validates (V-IP-5). -/
theorem test_SingleBitFlipIsDetected_met :
    10 % 2 = 0 ∧ 10 + 2 ≤ k1Ip.length ∧ 0 < k1Ip.length ∧ 19 < k1Ip.length ∧ 7 < 8 ∧ 19 ≠ 10 ∧ 19 ≠ 10 + 1 ∧
    csumValid k1Ip 0 10 0 = true ∧ csumValid k1Ip 0 10 1 = true := by decide

/-- V-CS-24, V-CS-27, V-CS-25: the last byte, the empty region at the end, one byte too many. -/
theorem test_CsumAccAddsTheRegionToAcc_met :
    (region 2047 1).off.toNat + (region 2047 1).len.toNat ≤ (region 2047 1).size .pkt ∧
    (region 2048 0).off.toNat + (region 2048 0).len.toNat ≤ (region 2048 0).size .pkt ∧
    (region 2047 2).size .pkt < (region 2047 2).off.toNat + (region 2047 2).len.toNat := by decide

theorem test_CsumFinDeliversTheChecksum_met :
    (region 0 12).off.toNat + (region 0 12).len.toNat ≤ (region 0 12).size .phdr ∧
    (region 0 13).size .phdr < (region 0 13).off.toNat + (region 0 13).len.toNat := by decide

theorem test_ChecksumPseudoInstruction_met :
    ({ State.reset with host := pseudoChecksum .str 0 24 0xFFFF } : State).host =
      pseudoChecksum .str ((0 : Half).setWidth 32) ((24 : Half).setWidth 32) ((0xFFFF : Half).setWidth 32) ++ [] ∧
    (0 : Half).toNat + (24 : Half).toNat ≤ State.reset.size .str := by decide

/-- V-IP-16; also the end of `PKT`. -/
theorem test_IpEncStoresTheHeader_met :
    (region 4 0).off.toNat + 20 ≤ (region 4 0).size .str ∧ (region 2028 0).off.toNat + 20 ≤ (region 2028 0).size .pkt ∧
    (region 5 0).size .str < (region 5 0).off.toNat + 20 ∧ (region 0 0).size .phdr < (region 0 0).off.toNat + 20 := by
  decide

/-- A header at the end of `PKT`; each rejection of R121 (V-IP-7 to V-IP-10); a region one byte too long. -/
theorem test_IpDecLoadsTheHeader_met :
    ((holding .pkt h1 2028 20).off.toNat + (holding .pkt h1 2028 20).len.toNat ≤ (holding .pkt h1 2028 20).size .pkt ∧
      ipVerdict ((holding .pkt h1 2028 20).memRead .pkt 2028 20) = 0) ∧
    ipVerdict ((holding .pkt h1 0 19).memRead .pkt 0 19) = 0x0011 ∧ ipVerdict (h1.set 0 0x65) = 0x0022 ∧
    ipVerdict (h1.set 0 0x44) = 0x0032 ∧ ipVerdict (h1.set 0 0x46) = 0x0042 ∧
    (region 2029 20).size .pkt < (region 2029 20).off.toNat + (region 2029 20).len.toNat := by decide

theorem test_IpVfyReportsTheVerdict_met :
    ((region 4 20).off.toNat + (region 4 20).len.toNat ≤ (region 4 20).size .str ∧ 20 ≤ (region 4 20).len.toNat) ∧
    ((region 4 19).off.toNat + (region 4 19).len.toNat ≤ (region 4 19).size .str ∧ (region 4 19).len.toNat < 20) ∧
    (region 5 20).size .str < (region 5 20).off.toNat + (region 5 20).len.toNat := by decide

/-- A header that comes back, with the shortest length; one that needs more bytes than supplied; a wrong version; a
header length below 5; and the second half on H1. -/
theorem test_IpHeaderRoundTrip_met :
    let s := { region 2028 20 with ip := h1Regs }
    (s.off.toNat + 20 ≤ s.size .pkt ∧ 20 ≤ (20 : Half).toNat ∧ s.off.toNat + (20 : Half).toNat ≤ s.size .pkt ∧
      s.ip.ver = 4 ∧ 5 ≤ s.ip.ihl.toNat ∧ 4 * s.ip.ihl.toNat ≤ (20 : Half).toNat) ∧
    (20 : Half).toNat < 4 * ({ h1Regs with ihl := 6 } : IpHeader).ihl.toNat ∧
    ({ h1Regs with ver := 6 } : IpHeader).ver ≠ 4 ∧ ({ h1Regs with ihl := 4 } : IpHeader).ihl.toNat < 5 ∧
    ((holding .pkt h1 0 20).off.toNat + 20 ≤ (holding .pkt h1 0 20).size .pkt ∧ (holding .pkt h1 0 20).len = 20 ∧
      ipVerdict ((holding .pkt h1 0 20).memRead .pkt 0 20) = 0) := by
  refine ⟨?_, ?_, ?_, ?_, ?_⟩ <;> decide

theorem test_TcpEncStoresTheHeader_met :
    (region 2028 0).off.toNat + 20 ≤ (region 2028 0).size .pkt ∧
    (region 2029 0).size .pkt < (region 2029 0).off.toNat + 20 := by decide

/-- A header at the end of `PAY`; each rejection of R141 (V-TCP-3, V-TCP-4, V-TCP-6); a region one byte too long. -/
theorem test_TcpDecLoadsTheHeader_met :
    ((holding .pay t1 2028 20).off.toNat + (holding .pay t1 2028 20).len.toNat ≤ (holding .pay t1 2028 20).size .pay ∧
      tcpVerdict ((holding .pay t1 2028 20).memRead .pay 2028 20) = 0) ∧
    tcpVerdict ((holding .pay t1 0 19).memRead .pay 0 19) = 0x0111 ∧ tcpVerdict (t1.set 12 0x40) = 0x0132 ∧
    tcpVerdict (t1.set 12 0x60) = 0x0142 ∧
    (region 2029 20).size .pay < (region 2029 20).off.toNat + (region 2029 20).len.toNat := by decide

/-- V-TCP-13b, with `PKT_SIZE` 65535: the largest payload of a segment, and one byte more. -/
theorem test_TcpCsumComputesTheSegmentChecksum_met :
    let p := { Params.suggested with pktSize := 65535 }
    let s := { State.resetWith p with len := 65515 }
    let t := { State.resetWith p with len := 65516 }
    (s.off.toNat + s.len.toNat ≤ s.size .pkt ∧ 20 + s.len.toNat ≤ 0xFFFF) ∧
    (t.off.toNat + t.len.toNat ≤ t.size .pkt ∧ 0xFFFF < 20 + t.len.toNat) ∧
    (region 2048 1).size .pkt < (region 2048 1).off.toNat + (region 2048 1).len.toNat := by
  refine ⟨?_, ?_, ?_⟩ <;> decide

theorem test_TcpVfyReportsTheVerdict_met :
    ((region 4 20).off.toNat + (region 4 20).len.toNat ≤ (region 4 20).size .str ∧ 20 ≤ (region 4 20).len.toNat) ∧
    ((region 5 19).off.toNat + (region 5 19).len.toNat ≤ (region 5 19).size .str ∧ (region 5 19).len.toNat < 20) ∧
    (region 5 20).size .str < (region 5 20).off.toNat + (region 5 20).len.toNat := by decide

theorem test_TcpHeaderRoundTrip_met :
    let s := { region 2028 20 with tcp := t1Regs }
    (s.off.toNat + 20 ≤ s.size .pkt ∧ 20 ≤ (20 : Half).toNat ∧ s.off.toNat + (20 : Half).toNat ≤ s.size .pkt ∧
      5 ≤ s.tcp.doff.toNat ∧ 4 * s.tcp.doff.toNat ≤ (20 : Half).toNat) ∧
    (20 : Half).toNat < 4 * ({ t1Regs with doff := 6 } : TcpHeader).doff.toNat ∧
    ({ t1Regs with doff := 4 } : TcpHeader).doff.toNat < 5 ∧
    ((holding .pkt t1 0 20).off.toNat + 20 ≤ (holding .pkt t1 0 20).size .pkt ∧ (holding .pkt t1 0 20).len = 20 ∧
      tcpVerdict ((holding .pkt t1 0 20).memRead .pkt 0 20) = 0) := by
  refine ⟨?_, ?_, ?_, ?_⟩ <;> decide

/-- V-PK-3, V-PK-6: the largest payload, one byte more, and a payload that leaves `PAY`. -/
theorem test_AsmIpAssemblesThePacket_met :
    ((region 568 1480).off.toNat + (region 568 1480).len.toNat ≤ (region 568 1480).par.paySize ∧
      20 + (region 568 1480).len.toNat ≤ (region 568 1480).par.maxUnit) ∧
    ((region 0 1481).off.toNat + (region 0 1481).len.toNat ≤ (region 0 1481).par.paySize ∧
      (region 0 1481).par.maxUnit < 20 + (region 0 1481).len.toNat) ∧
    (region 2000 49).par.paySize < (region 2000 49).off.toNat + (region 2000 49).len.toNat ∧
    (region 0 1480).par.Ok := by decide

/-- V-PK-4. -/
theorem test_AsmTcpAssemblesTheSegmentInAPacket_met :
    ((region 588 1460).off.toNat + (region 588 1460).len.toNat ≤ (region 588 1460).par.paySize ∧
      40 + (region 588 1460).len.toNat ≤ (region 588 1460).par.maxUnit) ∧
    ((region 0 1461).off.toNat + (region 0 1461).len.toNat ≤ (region 0 1461).par.paySize ∧
      (region 0 1461).par.maxUnit < 40 + (region 0 1461).len.toNat) ∧
    (region 2048 1).par.paySize < (region 2048 1).off.toNat + (region 2048 1).len.toNat ∧
    (region 0 1460).par.Ok := by decide

/-- One packet per clause: V-PK-11 to V-PK-16. -/
theorem test_DisasmRejectsInOrder_met :
    (region 2047 2).size .pkt < (region 2047 2).off.toNat + (region 2047 2).len.toNat ∧
    ((holding .pkt k1 0 19).off.toNat + (holding .pkt k1 0 19).len.toNat ≤ (holding .pkt k1 0 19).size .pkt ∧
      ipVerdict ((holding .pkt k1 0 19).memRead .pkt 0 19) ≠ 0) ∧
    (ipVerdict (k1.set 3 19) = 0 ∧ (ipFields (k1.set 3 19)).tlen.toNat < 4 * (ipFields (k1.set 3 19)).ihl.toNat) ∧
    (ipVerdict (k1.take 44) = 0 ∧ 4 * (ipFields (k1.take 44)).ihl.toNat ≤ (ipFields (k1.take 44)).tlen.toNat ∧
      44 < (ipFields (k1.take 44)).tlen.toNat) ∧
    (ipVerdict (k1.set 3 39) = 0 ∧ 4 * (ipFields (k1.set 3 39)).ihl.toNat ≤ (ipFields (k1.set 3 39)).tlen.toNat ∧
      (ipFields (k1.set 3 39)).tlen.toNat ≤ 45 ∧ (ipFields (k1.set 3 39)).proto = State.reset.par.protoTcp ∧
      tcpVerdict (slice (k1.set 3 39) 20 39) ≠ 0) ∧
    (holding .pkt k1 0 45).memRead .pkt 0 45 = k1 := by decide

/-- V-PK-19, with the total length equal to the supplied length. -/
theorem test_DisasmDeliversAnotherProtocol_met :
    let s := holding .pkt (k1.set 9 17) 0 45
    let bs := s.memRead .pkt s.off.toNat s.len.toNat
    s.off.toNat + s.len.toNat ≤ s.size .pkt ∧ ipVerdict bs = 0 ∧
    4 * (ipFields bs).ihl.toNat ≤ (ipFields bs).tlen.toNat ∧ (ipFields bs).tlen.toNat ≤ s.len.toNat ∧
    (ipFields bs).proto ≠ s.par.protoTcp := by
  refine ⟨?_, ?_, ?_, ?_, ?_⟩ <;> decide

/-- V-PK-7. -/
theorem test_DisasmDeliversTcp_met :
    let s := holding .pay k1 7 45
    let bs := s.memRead .pay s.off.toNat s.len.toNat
    s.off.toNat + s.len.toNat ≤ s.size .pay ∧ ipVerdict bs = 0 ∧
    4 * (ipFields bs).ihl.toNat ≤ (ipFields bs).tlen.toNat ∧ (ipFields bs).tlen.toNat ≤ s.len.toNat ∧
    (ipFields bs).proto = s.par.protoTcp ∧ tcpVerdict (slice bs (4 * (ipFields bs).ihl.toNat) (ipFields bs).tlen.toNat) = 0 := by
  refine ⟨?_, ?_, ?_, ?_, ?_, ?_⟩ <;> decide

/-- K1 alone, and K1 with three padding bytes. -/
theorem test_DisasmIgnoresPadding_met :
    let s := holding .pkt k1 0 45
    let t := holding .pkt (k1 ++ [9, 9, 9]) 0 48
    let bs := s.memRead .pkt s.off.toNat s.len.toNat
    t = { s with len := t.len, bufs := t.bufs } ∧ s.off.toNat + s.len.toNat ≤ s.size .pkt ∧
    s.off.toNat + t.len.toNat ≤ s.size .pkt ∧ ipVerdict bs = 0 ∧
    4 * (ipFields bs).ihl.toNat ≤ (ipFields bs).tlen.toNat ∧ (ipFields bs).tlen.toNat ≤ s.len.toNat ∧
    (ipFields bs).tlen.toNat ≤ t.len.toNat ∧
    ∀ k < (ipFields bs).tlen.toNat, t.byte .pkt (s.off.toNat + k) = s.byte .pkt (s.off.toNat + k) := by
  refine ⟨rfl, ?_, ?_, ?_, ?_, ?_, ?_, ?_⟩ <;> decide

/-- S6, with the packet's own length and with all of `PKT`; and a payload of another protocol. -/
theorem test_AssembledPacketsDisassemble_met :
    helloState.par.Ok ∧ helloState.off.toNat + helloState.len.toNat ≤ helloState.par.paySize ∧
    40 + helloState.len.toNat ≤ helloState.par.maxUnit ∧
    got (exec .asmTcp helloState) (fun t => t.outLen) = some 45 ∧ (45 : Half).toNat ≤ (2048 : Half).toNat ∧
    (2048 : Half).toNat ≤ helloState.par.pktSize ∧ 20 + helloState.len.toNat ≤ helloState.par.maxUnit ∧
    helloState.ip.proto ≠ helloState.par.protoTcp := by decide

/-- A header at the end of `PKT`; a segment that ends at the end of `PKT`. -/
theorem test_GeneratedChecksumsValidate_met :
    (region 2028 0).off.toNat + 20 ≤ (region 2028 0).size .pkt ∧
    (helloState.off.toNat + helloState.len.toNat ≤ helloState.size .pay ∧
      (2023 : Half).toNat + 20 + helloState.len.toNat ≤ helloState.size .pkt ∧ 20 + helloState.len.toNat ≤ 0xFFFF) := by
  decide

end Sys2Proof.Tests
end

section
/-! ### The register file as the host sees it (10_state.md R11, R26) -/

namespace Sys2Proof.Machine

/-- Extension to a word loses nothing of a register at most a word wide. -/
theorem setWidth_word_inj {w : Nat} (hw : w ≤ 32) {x y : BitVec w} : x.setWidth 32 = y.setWidth 32 ↔ x = y := by
  refine ⟨fun h => ?_, fun h => by rw [h]⟩
  rw [← BitVec.setWidth_eq x, ← BitVec.setWidth_setWidth_of_le x hw, h, BitVec.setWidth_setWidth_of_le y hw,
    BitVec.setWidth_eq]

theorem setWidth_word_toNat_lt {w : Nat} (x : BitVec w) : (x.setWidth 32).toNat < 2 ^ w := by
  rw [BitVec.toNat_setWidth]
  exact (Nat.mod_le _ _).trans_lt x.isLt

/-- Truncating a word to `w` bits and extending it again is reduction modulo `2 ^ w`. -/
theorem setWidth_setWidth_word (w : Nat) (v : Word) :
    (v.setWidth w).setWidth 32 = BitVec.ofNat 32 (v.toNat % 2 ^ w) := by
  apply BitVec.eq_of_toNat_eq
  rw [BitVec.toNat_setWidth, BitVec.toNat_setWidth, BitVec.toNat_ofNat]

/-- A register's value lies below 2 to its width. -/
theorem State.get_lt (s : State) (r : Reg) : (s.get r).toNat < 2 ^ r.width := by
  cases r
  case ipSrc | ipDst | tcpSeq | tcpAck => exact BitVec.isLt _
  all_goals exact setWidth_word_toNat_lt _

/-- A write stores the value truncated to the register's width (R11). -/
theorem State.put_get_same (s : State) (r : Reg) (v : Word) :
    (s.put r v).get r = BitVec.ofNat 32 (v.toNat % 2 ^ r.width) := by
  cases r
  case ipSrc | ipDst | tcpSeq | tcpAck => exact (BitVec.setWidth_eq v).symm.trans (setWidth_setWidth_word 32 v)
  all_goals exact setWidth_setWidth_word _ v

/-- The table of the `RW` registers agrees with the access rights and widths of R26. -/
theorem rwWidth_num (r : Reg) : rwWidth r.num = if r.access = .rw then some r.width else none := by
  cases r <;> rfl

theorem rwWidth_unassigned {rn : BitVec 8} (h : Reg.ofNum rn = none) : rwWidth rn = none := by
  revert rn; decide

/-- The runs of register numbers that R26 leaves unassigned. -/
theorem Reg.ofNum_unassigned {rn : BitVec 8}
    (h : 0x0D ≤ rn.toNat ∧ rn.toNat ≤ 0x0F ∨ 0x1B ≤ rn.toNat ∧ rn.toNat ≤ 0x1F ∨ 0x2A ≤ rn.toNat) :
    Reg.ofNum rn = none := by
  revert rn; decide

@[simp] theorem State.hostRegRead_num (s : State) (r : Reg) : s.hostRegRead r.num = s.get r := by
  simp only [State.hostRegRead, Reg.ofNum_num]

theorem State.hostRegRead_unassigned (s : State) {rn : BitVec 8} (h : Reg.ofNum rn = none) : s.hostRegRead rn = 0 := by
  simp only [State.hostRegRead, h]

/-- A host read depends on the registers only. -/
theorem State.hostRegRead_congr {s t : State} (h : ∀ r, s.get r = t.get r) (rn : BitVec 8) :
    s.hostRegRead rn = t.hostRegRead rn := by
  unfold State.hostRegRead
  cases Reg.ofNum rn with
  | none => rfl
  | some r => exact h r

/-- What the host reads after a write to the register `r`: at `r` the truncated value, at every other number what stood
there. -/
theorem State.hostRegRead_put (s : State) (r : Reg) (v : Word) (rn : BitVec 8) :
    (s.put r v).hostRegRead rn =
      if rn = r.num then BitVec.ofNat 32 (v.toNat % 2 ^ r.width) else s.hostRegRead rn := by
  split
  next h => rw [h, State.hostRegRead_num, State.put_get_same]
  next h =>
    unfold State.hostRegRead
    cases hr : Reg.ofNum rn with
    | none => rfl
    | some r' =>
      refine State.put_get_other s v fun e => h ?_
      rw [← Reg.num_of_ofNum hr, e]

/-- The list of pending steps is no register. -/
theorem State.hostRegRead_withHost (s : State) (rest : List HostStep) (rn : BitVec 8) :
    State.hostRegRead { s with host := rest } rn = s.hostRegRead rn :=
  State.hostRegRead_congr (fun r => by cases r <;> rfl) rn

theorem Reg.access_wt_iff (r : Reg) : r.access = .wt ↔ r.num = 0x00 := by
  cases r <;> decide

/-- Everything a host write beside `CMD` can do: store to an `RW` register, or nothing where the number is no `RW`
register's. -/
theorem hostRegWrite_not_cmd {rn : BitVec 8} (h : rn ≠ 0x00) (v : Word) (s : State) :
    (rwWidth rn = none ∧ hostRegWrite rn v s = .next s) ∨
    ∃ r, r.num = rn ∧ rwWidth rn = some r.width ∧ hostRegWrite rn v s = .next (s.put r v) := by
  rcases hostRegWrite_cases rn v s with ⟨hn, e⟩ | ⟨r, hr, ⟨ha, e⟩ | ⟨ha, e⟩ | ⟨ha, e⟩⟩
  · exact .inl ⟨rwWidth_unassigned hn, e⟩
  · refine .inl ⟨?_, e⟩
    rw [← Reg.num_of_ofNum hr, rwWidth_num, ha, if_neg (by decide)]
  · exact absurd ((Reg.num_of_ofNum hr).symm.trans ((Reg.access_wt_iff r).1 ha)) h
  · refine .inr ⟨r, Reg.num_of_ofNum hr, ?_, e⟩
    rw [← Reg.num_of_ofNum hr, rwWidth_num, if_pos ha]

/-- Settles O9: a write beside `CMD` is a `put` to an `RW` register or nothing, and a read looks the register up. -/
theorem hostRegisterAccess : Obligations.HostRegisterAccess := by
  refine ⟨fun s rn v rest hs hrn => ?_, fun s r => ⟨s.hostRegRead_num r, s.get_lt r⟩,
    fun s rn rest hs => step_host hs, fun s rn h => s.hostRegRead_unassigned (Reg.ofNum_unassigned h)⟩
  rw [step_host hs]
  rcases hostRegWrite_not_cmd hrn v { s with host := rest } with ⟨hw, e⟩ | ⟨r, rfl, hw, e⟩
  · refine ⟨_, e, rfl, rfl, rfl, rfl, fun rn' => ?_⟩
    rw [hw, State.hostRegRead_withHost, ite_self]
  · refine ⟨_, e, State.put_host _ r v, State.put_bufs _ r v, State.put_par _ r v, State.put_epoch _ r v,
      fun rn' => ?_⟩
    rw [hw, State.hostRegRead_put, State.hostRegRead_withHost]

end Sys2Proof.Machine
end

section
/-! ### What the assemblers write, as updates of an arbitrary state (43_packet.md R172, R174) -/

namespace Sys2Proof.Machine

/-- The IP header an assembler puts in front of the payload `pay`. -/
def State.sentIp (s : State) (proto : Byte) (pay : List Byte) : IpHeader :=
  outboundIp s.ip proto (BitVec.ofNat 16 (20 + pay.length))

/-- The packet with the payload `pay`. -/
def State.sentPacket (s : State) (proto : Byte) (pay : List Byte) : List Byte :=
  ipSer (s.sentIp proto pay) (ipCksum (s.sentIp proto pay)) ++ pay

/-- The TCP header `ASM.TCP` sends. -/
def State.sentTcp (s : State) : TcpHeader := { s.tcp with doff := 5 }

/-- The checksum `ASM.TCP` computes first. -/
def State.sentTcpCsum (s : State) (pay : List Byte) : Half := tcpCksum s.par.protoTcp s.sentTcp s.ip.src s.ip.dst pay

/-- The TCP segment with the payload `pay`. -/
def State.sentSegment (s : State) (pay : List Byte) : List Byte := tcpSer s.sentTcp (s.sentTcpCsum pay) ++ pay

/-- The registers an assembler writes for the IP header. -/
def State.withSentIp (s : State) (h : IpHeader) (c n : Half) : State := { s with ip := h, ipCsum := c, outLen := n }

/-- The registers `ASM.TCP` writes for the TCP header. -/
def State.withSentTcp (s : State) (t : TcpHeader) (tc : Half) : State := { s with tcp := t, tcpCsum := tc }

@[simp] theorem State.sentPacket_length (s : State) (proto : Byte) (pay : List Byte) :
    (s.sentPacket proto pay).length = 20 + pay.length := by
  rw [State.sentPacket, List.length_append, ipSer_length]

@[simp] theorem State.sentSegment_length (s : State) (pay : List Byte) :
    (s.sentSegment pay).length = 20 + pay.length := by
  rw [State.sentSegment, List.length_append, tcpSer_length]

/-- `emitIp` is one store to `PKT`, then the registers. -/
theorem State.emitIp_eq_withSentIp (s : State) (proto : Byte) (pay : List Byte) :
    s.emitIp proto pay =
      (s.memWrite .pkt 0 (s.sentPacket proto pay)).withSentIp (s.sentIp proto pay) (ipCksum (s.sentIp proto pay))
        (BitVec.ofNat 16 (20 + pay.length)) :=
  s.emitIp_eq proto pay

/-- `ASM.TCP` with the state it completes in written as updates of `emitIp`'s. -/
theorem asmTcpEffect_eq (s : State) : asmTcpEffect s =
    match s.region .pay with
    | .error c => .error c
    | .ok pay =>
      if s.par.maxUnit < 40 + s.len.toNat then .error .lenOverflow
      else .ok ((s.emitIp s.par.protoTcp (s.sentSegment pay)).withSentTcp s.sentTcp (s.sentTcpCsum pay), false) := rfl

end Sys2Proof.Machine
end

section
/-! ### Two runs of one command side by side, and what a command leaves alone (10_state.md R19, R24, R28, R39) -/

namespace Sys2Proof.Machine

/-- Two effects that come out alike: rejected for one cause, or completed with one `MISMATCH` in states that `R`
relates. -/
def EffectsAlike (R : State → State → Prop) : Effect → Effect → Prop
  | .ok (s, m), .ok (t, m') => m = m' ∧ R s t
  | .error c, .error c' => c = c'
  | _, _ => False

section
variable {R : State → State → Prop}

/-- A check that is the same in both runs. -/
theorem EffectsAlike.onCheck {p : Prop} [Decidable p] {a b a' b' : Effect} (ha : p → EffectsAlike R a a')
    (hb : ¬p → EffectsAlike R b b') : EffectsAlike R (if p then a else b) (if p then a' else b') := by
  split
  next h => exact ha h
  next h => exact hb h

/-- Commands whose effects come out alike end with one `STATUS`, in states that `R` relates unless both are rejected. -/
theorem exec_of_effectsAlike {i : Instr} {s t : State} (h : EffectsAlike R (effectOf i s) (effectOf i t)) :
    (∃ c, exec i s = .next { s with status := rejectedStatus c } ∧
      exec i t = .next { t with status := rejectedStatus c }) ∨
    ∃ s' t' m, R s' t' ∧ exec i s = .next { s' with status := doneStatus m } ∧
      exec i t = .next { t' with status := doneStatus m } := by
  rcases exec_cases i s with ⟨c, hc, es⟩ | ⟨s', m, hs', es⟩
  · rcases exec_cases i t with ⟨c', hc', et⟩ | ⟨t', m', ht', et⟩
    · rw [hc, hc'] at h
      cases (h : c = c')
      exact .inl ⟨c, es, et⟩
    · rw [hc, ht'] at h
      exact h.elim
  · rcases exec_cases i t with ⟨c', hc', et⟩ | ⟨t', m', ht', et⟩
    · rw [hs', hc'] at h
      exact h.elim
    · rw [hs', ht'] at h
      obtain ⟨rfl, hR⟩ := h
      exact .inr ⟨s', t', m, hR, es, et⟩

end

/-! #### The registers a command leaves alone, and `STATUS`, which is no input -/

/-- The registers that no command but `RST` writes beside `STATUS`, and what is fixed while a command runs. -/
def State.control (s : State) : (Half × BitVec 1 × Half × Half) × Params × Nat × List HostStep :=
  ((s.cmd, s.cfg, s.off, s.len), s.par, s.epoch, s.host)

/-- Two states that become one when `STATUS` is overwritten, the first with the control registers of `s`. -/
structure State.AlikeButStatus (s t u : State) : Prop where
  control : t.control = s.control
  setStatus : ∀ st, t.setStatus st = u.setStatus st

@[simp] theorem State.setStatus_region (s : State) (st : BitVec 13) (b : Buf) :
    (s.setStatus st).region b = s.region b := by
  unfold State.region State.regionBytes
  rw [State.setStatus_memRead]
  rfl

@[simp] theorem State.setStatus_headerDest (s : State) (st : BitVec 13) (b : Buf) :
    (s.setStatus st).headerDest b = s.headerDest b := rfl

theorem State.setStatus_emitIp (s : State) (st : BitVec 13) (proto : Byte) (pay : List Byte) :
    (s.setStatus st).emitIp proto pay = (s.emitIp proto pay).setStatus st := by
  rw [State.emitIp_eq_withSentIp, State.emitIp_eq_withSentIp]
  have store : ∀ bs, (s.setStatus st).memWrite .pkt 0 bs = (s.memWrite .pkt 0 bs).setStatus st := fun _ => rfl
  have regs : ∀ (u : State) h c n, (u.setStatus st).withSentIp h c n = (u.withSentIp h c n).setStatus st :=
    fun _ _ _ _ => rfl
  rw [store, regs]
  rfl

@[simp] theorem State.emitIp_control (s : State) (proto : Byte) (pay : List Byte) :
    (s.emitIp proto pay).control = s.control := by
  have regs : ∀ (u : State) h c n, (u.withSentIp h c n).control = u.control := fun _ _ _ _ => rfl
  rw [State.emitIp_eq_withSentIp, regs]
  rfl

theorem emitIp_alikeButStatus (s : State) (st : BitVec 13) (proto : Byte) (pay : List Byte) :
    s.AlikeButStatus (s.emitIp proto pay) ((s.setStatus st).emitIp proto pay) := by
  rw [State.setStatus_emitIp]
  exact ⟨s.emitIp_control proto pay, fun st' => ((s.emitIp proto pay).setStatus_setStatus st st').symm⟩

theorem State.AlikeButStatus.withSentTcp {s t u : State} (h : s.AlikeButStatus t u) (hdr : TcpHeader) (c : Half) :
    s.AlikeButStatus (t.withSentTcp hdr c) (u.withSentTcp hdr c) :=
  ⟨h.control, fun st => congrArg (fun v : State => v.withSentTcp hdr c) (h.setStatus st)⟩

/-- Every command but `RST`, run beside itself with another `STATUS`: one check after the other goes the same way. -/
theorem effectOf_setStatus {i : Instr} (hi : i ≠ .rst) (s : State) (st : BitVec 13) :
    EffectsAlike s.AlikeButStatus (effectOf i s) (effectOf i (s.setStatus st)) := by
  cases i with
  | rst => exact absurd rfl hi
  | ipCsum | tcpPsh | tcpFstr | nop => exact ⟨rfl, rfl, fun _ => rfl⟩
  | csumAcc b | csumFin b =>
    simp only [effectOf, csumAccEffect, csumFinEffect, State.setStatus_region]
    cases s.region b with
    | error c => exact rfl
    | ok bs => exact ⟨rfl, rfl, fun _ => rfl⟩
  | ipEnc b | tcpEnc b =>
    simp only [effectOf, ipEncEffect, tcpEncEffect, State.setStatus_headerDest]
    cases s.headerDest b with
    | error c => exact rfl
    | ok off => exact ⟨rfl, rfl, fun _ => rfl⟩
  | ipVfy b | tcpVfy b | tcpCsum b =>
    simp only [effectOf, ipVfyEffect, tcpVfyEffect, tcpCsumEffect, State.setStatus_region]
    cases s.region b with
    | error c => exact rfl
    | ok bs => exact .onCheck (fun _ => rfl) fun _ => ⟨rfl, rfl, fun _ => rfl⟩
  | asmIp =>
    simp only [effectOf, asmIpEffect, State.setStatus_region]
    cases s.region .pay with
    | error c => exact rfl
    | ok pay => exact .onCheck (fun _ => rfl) fun _ => ⟨rfl, emitIp_alikeButStatus s st s.ip.proto pay⟩
  | asmTcp =>
    simp only [effectOf, asmTcpEffect_eq, State.setStatus_region]
    cases s.region .pay with
    | error c => exact rfl
    | ok pay =>
      exact .onCheck (fun _ => rfl) fun _ =>
        ⟨rfl, (emitIp_alikeButStatus s st s.par.protoTcp (s.sentSegment pay)).withSentTcp _ _⟩
  | ipDec b =>
    simp only [effectOf, ipDecEffect, State.setStatus_region]
    cases s.region b with
    | error c => exact rfl
    | ok bs =>
      dsimp only
      cases ipParse bs with
      | error c => exact rfl
      | ok p => exact ⟨rfl, rfl, fun _ => rfl⟩
  | tcpDec b =>
    simp only [effectOf, tcpDecEffect, State.setStatus_region]
    cases s.region b with
    | error c => exact rfl
    | ok bs =>
      dsimp only
      cases tcpParse bs with
      | error c => exact rfl
      | ok p => exact ⟨rfl, rfl, fun _ => rfl⟩
  | disasm b =>
    simp only [effectOf, disasmEffect, State.setStatus_region]
    cases s.region b with
    | error c => exact rfl
    | ok bs =>
      dsimp only
      cases ipParse bs with
      | error c => exact rfl
      | ok p =>
        refine .onCheck (fun _ => rfl) fun _ => .onCheck (fun _ => rfl) fun _ => .onCheck (fun _ => ?_) fun _ => ?_
        · cases tcpParse (slice bs (ipHeaderLen p.1) p.1.tlen.toNat) with
          | error c => exact rfl
          | ok q => exact ⟨rfl, rfl, fun _ => rfl⟩
        · exact ⟨rfl, rfl, fun _ => rfl⟩

/-- Settles O17: both runs come out alike but for `STATUS`, which the end of the command overwrites. -/
theorem statusIsOverwrittenAndNeverRead : Obligations.StatusIsOverwrittenAndNeverRead := by
  intro i s st
  by_cases hi : i = .rst
  · subst hi
    rfl
  · rcases exec_of_effectsAlike (effectOf_setStatus hi s st) with ⟨c, e, e'⟩ | ⟨t, u, m, htu, e, e'⟩
    · exact e'.trans e.symm
    · exact e'.trans ((congrArg _ (htu.setStatus (doneStatus m)).symm).trans e.symm)

/-! #### The parameters and `CMD` -/

theorem exec_control {i : Instr} (hi : i ≠ .rst) {s t : State} (h : exec i s = .next t) : t.control = s.control := by
  rcases exec_of_effectsAlike (effectOf_setStatus hi s 0) with ⟨c, e, -⟩ | ⟨u, v, m, huv, e, -⟩
  · cases e.symm.trans h
    rfl
  · cases e.symm.trans h
    exact huv.control

/-- `RST` completes with every register cleared (44_system.md R192). -/
theorem exec_rst (s : State) : exec .rst s = .next s.clearRegisters := rfl

/-- What every command leaves alone, `RST` included. -/
theorem exec_keeps_par_host {i : Instr} {s t : State} (h : exec i s = .next t) : t.par = s.par ∧ t.host = s.host := by
  by_cases hi : i = .rst
  · subst hi
    cases (exec_rst s).symm.trans h
    exact ⟨rfl, rfl⟩
  · have hc := exec_control hi h
    exact ⟨congrArg (fun c => c.2.1) hc, congrArg (fun c => c.2.2.2) hc⟩

theorem exec_cmd {i : Instr} {s t : State} (h : exec i s = .next t) : t.cmd = if i = .rst then 0 else s.cmd := by
  by_cases hi : i = .rst
  · subst hi
    cases (exec_rst s).symm.trans h
    rfl
  · rw [if_neg hi]
    exact congrArg (fun c => c.1.1) (exec_control hi h)

theorem exec_total (i : Instr) (s : State) : ∃ t, exec i s = .next t := by
  rcases exec_cases i s with ⟨c, -, e⟩ | ⟨t, m, -, e⟩
  · exact ⟨_, e⟩
  · exact ⟨_, e⟩

theorem exec_status_legal {i : Instr} {s t : State} (h : exec i s = .next t) : t.status ∈ legalStatuses := by
  rcases exec_cases i s with ⟨c, -, e⟩ | ⟨u, m, -, e⟩
  · cases e.symm.trans h
    exact rejectedStatus_legal c
  · cases e.symm.trans h
    exact doneStatus_legal m

/-- What the execution of a command word leaves in `CMD`, `STATUS`, the parameters and the pending steps. -/
theorem runCommandWord_outcome (w : Half) (s : State) :
    ∃ t, runCommandWord w s = .next t ∧ t.par = s.par ∧ t.host = s.host ∧ t.status ∈ legalStatuses ∧
      t.cmd = if decode w = .ok .rst then 0 else w := by
  rcases runCommandWord_cases w s with ⟨i, hd, e⟩ | ⟨c, hd, e⟩
  · obtain ⟨t, ht⟩ := exec_total i { s with cmd := w }
    obtain ⟨hpar, hhost⟩ := exec_keeps_par_host ht
    refine ⟨t, e.trans ht, hpar, hhost, exec_status_legal ht, ?_⟩
    simpa only [hd, Except.ok.injEq] using exec_cmd ht
  · refine ⟨_, e, rfl, rfl, rejectedStatus_legal _, ?_⟩
    simp only [hd, reduceCtorEq, if_false]

theorem hostRegWrite_par {rn : BitVec 8} {v : Word} {s t : State} (h : hostRegWrite rn v s = .next t) :
    t.par = s.par := by
  rcases hostRegWrite_cases rn v s with ⟨-, e⟩ | ⟨r, -, ⟨-, e⟩ | ⟨-, e⟩ | ⟨-, e⟩⟩
  · cases e.symm.trans h
    rfl
  · cases e.symm.trans h
    rfl
  · obtain ⟨u, hu, hpar, -⟩ := runCommandWord_outcome (v.setWidth 16) s
    cases (e.trans hu).symm.trans h
    exact hpar
  · cases e.symm.trans h
    exact State.put_par s r v

theorem runHostStep_par {x : HostStep} {s t : State} (h : runHostStep x s = .next t) : t.par = s.par := by
  cases x with
  | regWrite rn v => exact hostRegWrite_par h
  | regRead rn | bufRead b off n | hardReset =>
    cases h
    rfl
  | bufWrite b off bs =>
    cases h
    rcases s.hostBufWrite_cases b off bs with ⟨-, e⟩ | ⟨-, e⟩
    · exact (congrArg State.par e).trans (State.memWrite_par s b _ bs)
    · exact congrArg State.par e

/-- Settles O7: an idle step changes nothing, and every host step keeps the parameters. -/
theorem stepKeepsTheParameters : Obligations.StepKeepsTheParameters := by
  intro s t h
  cases hs : s.host with
  | nil =>
    cases (step_idle hs).symm.trans h
    rfl
  | cons x rest => exact (runHostStep_par ((step_host hs).symm.trans h) :)

/-- Settles O8: a write to number 0 runs the command word, and no command but `RST` writes `CMD`. -/
theorem cmdHoldsTheLastWord : Obligations.CmdHoldsTheLastWord := by
  intro s v rest hs
  obtain ⟨t, ht, -, hhost, hstatus, hcmd⟩ := runCommandWord_outcome (v.setWidth 16) { s with host := rest }
  refine ⟨t, (step_host hs).trans ht, hhost, hstatus, ?_⟩
  have hread : t.hostRegRead 0x00 = t.cmd.setWidth 32 := rfl
  rw [hread, hcmd]
  split <;> rfl

end Sys2Proof.Machine
end

section
/-! ### What each command reads, and that it reads nothing else (10_state.md R39, 30_encoding.md R64) -/

namespace Sys2Proof.Machine

/-! #### From registers as the host reads them to fields of the state -/

section
variable {s t : State}

theorem State.off_eq_of_get (h : s.get .off = t.get .off) : s.off = t.off := (setWidth_word_inj (by decide)).1 h

theorem State.len_eq_of_get (h : s.get .len = t.get .len) : s.len = t.len := (setWidth_word_inj (by decide)).1 h

theorem State.cfg_eq_of_get (h : s.get .cfg = t.get .cfg) : s.cfg = t.cfg := (setWidth_word_inj (by decide)).1 h

theorem State.acc_eq_of_get (h : s.get .acc = t.get .acc) : s.acc = t.acc := (setWidth_word_inj (by decide)).1 h

theorem State.ipProto_eq_of_get (h : s.get .ipProto = t.get .ipProto) : s.ip.proto = t.ip.proto :=
  (setWidth_word_inj (by decide)).1 h

theorem State.ipCsum_eq_of_get (h : s.get .ipCsum = t.get .ipCsum) : s.ipCsum = t.ipCsum :=
  (setWidth_word_inj (by decide)).1 h

theorem State.tcpFlags_eq_of_get (h : s.get .tcpFlags = t.get .tcpFlags) : s.tcp.flags = t.tcp.flags :=
  (setWidth_word_inj (by decide)).1 h

theorem State.tcpCsum_eq_of_get (h : s.get .tcpCsum = t.get .tcpCsum) : s.tcpCsum = t.tcpCsum :=
  (setWidth_word_inj (by decide)).1 h

/-- The ten IP registers of R12 are the whole record. -/
theorem State.ip_eq_of_get (h : ∀ r ∈ ipRegs.erase .ipCsum, s.get r = t.get r) : s.ip = t.ip := by
  simpa [ipRegs, State.get, setWidth_word_inj, ← IpHeader.mk.injEq] using h

/-- The nine TCP registers of R14 are the whole record. -/
theorem State.tcp_eq_of_get (h : ∀ r ∈ tcpRegs.erase .tcpCsum, s.get r = t.get r) : s.tcp = t.tcp := by
  simpa [tcpRegs, State.get, setWidth_word_inj, ← TcpHeader.mk.injEq] using h

/-- An assembler's IP header takes six fields from the registers (43_packet.md R172). -/
theorem State.sentIp_congr (h : ∀ r ∈ [.ipTos, .ipId, .ipFrag, .ipTtl, .ipSrc, .ipDst], s.get r = t.get r)
    (proto : Byte) (pay : List Byte) : s.sentIp proto pay = t.sentIp proto pay := by
  simp only [List.forall_mem_cons, State.get] at h
  obtain ⟨htos, hid, hfrag, httl, hsrc, hdst, -⟩ := h
  rw [setWidth_word_inj (by decide)] at htos hid hfrag httl
  simp only [State.sentIp, outboundIp, htos, hid, hfrag, httl, hsrc, hdst]

/-- `ASM.TCP`'s TCP header takes all its fields but the data offset from the registers (43_packet.md R174). -/
theorem State.sentTcp_congr
    (h : ∀ r ∈ [.tcpSport, .tcpDport, .tcpSeq, .tcpAck, .tcpRsvd, .tcpFlags, .tcpWin, .tcpUrg], s.get r = t.get r) :
    s.sentTcp = t.sentTcp := by
  simp only [List.forall_mem_cons, State.get] at h
  obtain ⟨hsport, hdport, hseq, hack, hrsvd, hflags, hwin, hurg, -⟩ := h
  rw [setWidth_word_inj (by decide)] at hsport hdport hrsvd hflags hwin hurg
  simp only [State.sentTcp, hsport, hdport, hseq, hack, hrsvd, hflags, hwin, hurg]

end

/-! #### Operands from listed inputs -/

theorem readsRegs_of_region {i : Instr} {b : Buf} (h : readsRegionOf i = some b) :
    .off ∈ readsRegs i ∧ .len ∈ readsRegs i := by
  cases i <;> simp [readsRegionOf, readsRegs] at h ⊢

section
variable {i : Instr} {s t : State}

theorem SameInputs.len {b : Buf} (h : SameInputs i s t) (hb : readsRegionOf i = some b) : s.len = t.len :=
  State.len_eq_of_get (h.regs .len (readsRegs_of_region hb).2)

theorem SameInputs.off {b : Buf} (h : SameInputs i s t) (hb : readsRegionOf i = some b) : s.off = t.off :=
  State.off_eq_of_get (h.regs .off (readsRegs_of_region hb).1)

/-- The region operand is the same in both states. -/
theorem SameInputs.region {b : Buf} (h : SameInputs i s t) (hb : readsRegionOf i = some b) :
    s.region b = t.region b := by
  have hbytes : s.regionBytes b = t.regionBytes b := by
    unfold State.regionBytes
    rw [← h.off hb, ← h.len hb]
    exact State.memRead_congr (h.bytes b hb)
  unfold State.region State.regionInside
  rw [h.off hb, h.len hb, State.size_congr h.par, hbytes]

/-- The place of a serialised header is the same in both states. -/
theorem SameInputs.headerDest (h : SameInputs i s t) (hoff : .off ∈ readsRegs i) (b : Buf) :
    s.headerDest b = t.headerDest b := by
  unfold State.headerDest State.headerInside
  rw [State.off_eq_of_get (h.regs .off hoff), State.size_congr h.par]

end

/-! #### Alike in everything that is written -/

/-- Two states a command `i` completed in, before `STATUS` is written, agree on the registers and bytes it writes when
run from `s`. -/
structure SameWrites (i : Instr) (s s' t' : State) : Prop where
  regs : ∀ r ∈ writesRegs i, r ≠ .status → skippedByDisasm i r s' = false →
    s'.get r &&& determinedBits i r = t'.get r &&& determinedBits i r
  bytes : ∀ b a, inWrittenBytes i s b a = true → s'.byte b a = t'.byte b a

section
variable {i : Instr} {s t s' t' : State}

theorem inWrittenBytes_none (h : writesBytes i s = none) (b : Buf) (a : Nat) : inWrittenBytes i s b a = false := by
  rw [inWrittenBytes, h]

/-- A command that writes no buffer. -/
theorem SameWrites.of_determinedRegs (hn : writesBytes i s = none)
    (h : ∀ r ∈ writesRegs i, r ≠ .status → skippedByDisasm i r s' = false →
      s'.get r &&& determinedBits i r = t'.get r &&& determinedBits i r) : SameWrites i s s' t' where
  regs := h
  bytes b a hin := by
    rw [inWrittenBytes_none hn] at hin
    cases hin

/-- A command that writes whole registers and no buffer. -/
theorem SameWrites.of_regs (hn : writesBytes i s = none)
    (h : ∀ r ∈ writesRegs i, r ≠ .status → skippedByDisasm i r s' = false → s'.get r = t'.get r) :
    SameWrites i s s' t' :=
  .of_determinedRegs hn fun r hr hst hsk => by rw [h r hr hst hsk]

/-- A command that stores the same bytes at the same place. -/
theorem SameWrites.of_store {b : Buf} {off : Nat} {bs : List Byte} (hw : writesBytes i s = some (b, off, bs.length))
    (hs : s'.byte = (s.memWrite b off bs).byte) (ht : t'.byte = (t.memWrite b off bs).byte)
    (h : ∀ r ∈ writesRegs i, r ≠ .status → s'.get r = t'.get r) : SameWrites i s s' t' where
  regs r hr hst _ := by rw [h r hr hst]
  bytes b' a hin := by
    simp only [inWrittenBytes, hw, Bool.and_eq_true, decide_eq_true_eq] at hin
    obtain ⟨⟨rfl, hlo⟩, hhi⟩ := hin
    rw [hs, ht, State.byte_memWrite, State.byte_memWrite, if_pos ⟨rfl, hlo, hhi⟩, if_pos ⟨rfl, hlo, hhi⟩]

end

/-! #### The commands, one by one -/

section
variable {s t : State} {b : Buf}

theorem csumAcc_alike (h : SameInputs (.csumAcc b) s t) :
    EffectsAlike (SameWrites (.csumAcc b) s) (csumAccEffect b s) (csumAccEffect b t) := by
  have hacc := State.acc_eq_of_get (h.regs .acc (by simp [readsRegs]))
  simp only [csumAccEffect, h.region rfl, hacc]
  cases t.region b with
  | error c => exact rfl
  | ok bs => exact ⟨rfl, .of_regs rfl (by simp [writesRegs, State.get])⟩

theorem csumFin_alike (h : SameInputs (.csumFin b) s t) :
    EffectsAlike (SameWrites (.csumFin b) s) (csumFinEffect b s) (csumFinEffect b t) := by
  have hacc := State.acc_eq_of_get (h.regs .acc (by simp [readsRegs]))
  simp only [csumFinEffect, h.region rfl, hacc]
  cases t.region b with
  | error c => exact rfl
  | ok bs => exact ⟨rfl, .of_regs rfl (by simp [writesRegs, State.get])⟩

theorem ipEnc_alike (h : SameInputs (.ipEnc b) s t) :
    EffectsAlike (SameWrites (.ipEnc b) s) (ipEncEffect b s) (ipEncEffect b t) := by
  have hip := State.ip_eq_of_get fun r hr => h.regs r (List.mem_cons_of_mem _ (List.mem_of_mem_erase hr))
  have hc := State.ipCsum_eq_of_get (h.regs .ipCsum (by simp [readsRegs, ipRegs]))
  have hoff := State.off_eq_of_get (h.regs .off (by simp [readsRegs]))
  simp only [ipEncEffect, h.headerDest (by simp [readsRegs]), hip, hc]
  rcases t.headerDest_cases b with ⟨-, e⟩ | ⟨-, e⟩ <;> rw [e]
  · exact ⟨rfl, .of_store (by rw [← hoff]; rfl) rfl rfl (by simp [writesRegs])⟩
  · exact rfl

theorem tcpEnc_alike (h : SameInputs (.tcpEnc b) s t) :
    EffectsAlike (SameWrites (.tcpEnc b) s) (tcpEncEffect b s) (tcpEncEffect b t) := by
  have htcp := State.tcp_eq_of_get fun r hr => h.regs r (List.mem_cons_of_mem _ (List.mem_of_mem_erase hr))
  have hc := State.tcpCsum_eq_of_get (h.regs .tcpCsum (by simp [readsRegs, tcpRegs]))
  have hoff := State.off_eq_of_get (h.regs .off (by simp [readsRegs]))
  simp only [tcpEncEffect, h.headerDest (by simp [readsRegs]), htcp, hc]
  rcases t.headerDest_cases b with ⟨-, e⟩ | ⟨-, e⟩ <;> rw [e]
  · exact ⟨rfl, .of_store (by rw [← hoff]; rfl) rfl rfl (by simp [writesRegs])⟩
  · exact rfl

theorem ipDec_alike (h : SameInputs (.ipDec b) s t) :
    EffectsAlike (SameWrites (.ipDec b) s) (ipDecEffect b s) (ipDecEffect b t) := by
  simp only [ipDecEffect, h.region rfl]
  cases t.region b with
  | error c => exact rfl
  | ok bs =>
    dsimp only
    cases ipParse bs with
    | error c => exact rfl
    | ok p => exact ⟨rfl, .of_regs rfl (by simp [writesRegs, ipRegs, State.get])⟩

theorem tcpDec_alike (h : SameInputs (.tcpDec b) s t) :
    EffectsAlike (SameWrites (.tcpDec b) s) (tcpDecEffect b s) (tcpDecEffect b t) := by
  simp only [tcpDecEffect, h.region rfl]
  cases t.region b with
  | error c => exact rfl
  | ok bs =>
    dsimp only
    cases tcpParse bs with
    | error c => exact rfl
    | ok p => exact ⟨rfl, .of_regs rfl (by simp [writesRegs, tcpRegs, State.get])⟩

theorem ipCsum_alike (h : SameInputs .ipCsum s t) :
    EffectsAlike (SameWrites .ipCsum s) (ipCsumEffect s) (ipCsumEffect t) := by
  have hip := State.ip_eq_of_get h.regs
  exact ⟨rfl, .of_regs rfl (by simp [writesRegs, State.get, hip])⟩

/-- The one bit of `VALID` that `IP.VFY` determines. -/
theorem setIpOk_determined (v w : BitVec 3) (ok : Bool) :
    (setIpOk v ok).setWidth 32 &&& 0x1#32 = (setIpOk w ok).setWidth 32 &&& 0x1#32 := by
  revert v w ok; decide

/-- The one bit of `VALID` that `TCP.VFY` determines. -/
theorem setTcpOk_determined (v w : BitVec 3) (ok : Bool) :
    (setTcpOk v ok).setWidth 32 &&& 0x2#32 = (setTcpOk w ok).setWidth 32 &&& 0x2#32 := by
  revert v w ok; decide

theorem ipVfy_alike (h : SameInputs (.ipVfy b) s t) :
    EffectsAlike (SameWrites (.ipVfy b) s) (ipVfyEffect b s) (ipVfyEffect b t) := by
  have hcfg := State.cfg_eq_of_get (h.regs .cfg (by simp [readsRegs]))
  simp only [ipVfyEffect, h.region rfl, hcfg]
  cases t.region b with
  | error c => exact rfl
  | ok bs =>
    refine .onCheck (fun _ => rfl) fun _ => ⟨rfl, .of_determinedRegs rfl ?_⟩
    simpa [writesRegs, State.get, determinedBits] using fun _ => setIpOk_determined _ _ _

theorem tcpVfy_alike (h : SameInputs (.tcpVfy b) s t) :
    EffectsAlike (SameWrites (.tcpVfy b) s) (tcpVfyEffect b s) (tcpVfyEffect b t) := by
  have hcfg := State.cfg_eq_of_get (h.regs .cfg (by simp [readsRegs]))
  have hsrc : s.ip.src = t.ip.src := h.regs .ipSrc (by simp [readsRegs])
  have hdst : s.ip.dst = t.ip.dst := h.regs .ipDst (by simp [readsRegs])
  simp only [tcpVfyEffect, h.region rfl, hcfg, hsrc, hdst, h.len rfl, h.par]
  cases t.region b with
  | error c => exact rfl
  | ok bs =>
    refine .onCheck (fun _ => rfl) fun _ => ⟨rfl, .of_determinedRegs rfl ?_⟩
    simpa [writesRegs, State.get, determinedBits] using fun _ => setTcpOk_determined _ _ _

theorem tcpPsh_alike (h : SameInputs .tcpPsh s t) :
    EffectsAlike (SameWrites .tcpPsh s) (tcpPshEffect s) (tcpPshEffect t) := by
  have hlen := State.len_eq_of_get (h.regs .len (by decide))
  have hproto := State.ipProto_eq_of_get (h.regs .ipProto (by decide))
  have hsrc : s.ip.src = t.ip.src := h.regs .ipSrc (by decide)
  have hdst : s.ip.dst = t.ip.dst := h.regs .ipDst (by decide)
  simp only [tcpPshEffect, hlen, hproto, hsrc, hdst]
  exact ⟨rfl, .of_store rfl rfl rfl (by simp [writesRegs])⟩

theorem tcpCsum_alike (h : SameInputs (.tcpCsum b) s t) :
    EffectsAlike (SameWrites (.tcpCsum b) s) (tcpCsumEffect b s) (tcpCsumEffect b t) := by
  have htcp := State.tcp_eq_of_get fun r hr => h.regs r (List.mem_append_right _ hr)
  have hsrc : s.ip.src = t.ip.src := h.regs .ipSrc (by simp [readsRegs])
  have hdst : s.ip.dst = t.ip.dst := h.regs .ipDst (by simp [readsRegs])
  simp only [tcpCsumEffect, h.region rfl, htcp, hsrc, hdst, h.len rfl, h.par]
  cases t.region b with
  | error c => exact rfl
  | ok pay => exact .onCheck (fun _ => rfl) fun _ => ⟨rfl, .of_regs rfl (by simp [writesRegs, State.get])⟩

/-- Six names of three letters with five separators are the longest flag string (42_tcp_codec.md R155). -/
theorem flagsStr_length_le (f : Byte) : (flagsStr f).length ≤ 23 := by
  revert f; decide

theorem tcpFstr_alike (h : SameInputs .tcpFstr s t) :
    EffectsAlike (SameWrites .tcpFstr s) (tcpFstrEffect s) (tcpFstrEffect t) := by
  have hflags := State.tcpFlags_eq_of_get (h.regs .tcpFlags (by decide))
  have hlen : (flagsStr t.tcp.flags ++
      List.replicate (Config.strSize - (flagsStr t.tcp.flags).length) 0).length = Config.strSize := by
    rw [List.length_append, List.length_replicate]
    exact Nat.add_sub_cancel' ((flagsStr_length_le _).trans (by decide))
  simp only [tcpFstrEffect, hflags]
  exact ⟨rfl, .of_store (by rw [hlen]; rfl) rfl rfl (by simp [writesRegs, State.get])⟩

theorem State.emitIp_byte_eq (s : State) (proto : Byte) (pay : List Byte) :
    (s.emitIp proto pay).byte = (s.memWrite .pkt 0 (s.sentPacket proto pay)).byte := by
  rw [State.emitIp_eq_withSentIp]
  rfl

/-- The registers an assembler writes depend on the header it sends and the length of the payload only. -/
theorem State.emitIp_get_congr {proto : Byte} {pay : List Byte} (h : s.sentIp proto pay = t.sentIp proto pay) :
    ∀ r ∈ .outLen :: ipRegs, (s.emitIp proto pay).get r = (t.emitIp proto pay).get r := by
  rw [State.emitIp_eq_withSentIp, State.emitIp_eq_withSentIp, h]
  simp [ipRegs, State.get, State.withSentIp]

theorem asmIp_alike (h : SameInputs .asmIp s t) :
    EffectsAlike (SameWrites .asmIp s) (asmIpEffect s) (asmIpEffect t) := by
  have hsent := State.sentIp_congr fun r hr => h.regs r ((by decide : _ ⊆ readsRegs .asmIp) hr)
  have hproto := State.ipProto_eq_of_get (h.regs .ipProto (by decide))
  have hwritten : ∀ r ∈ writesRegs .asmIp, r ≠ .status → r ∈ .outLen :: ipRegs := by decide
  simp only [asmIpEffect, h.region rfl, h.len rfl, h.par, hproto]
  rcases t.region_cases .pay with ⟨-, e⟩ | ⟨-, e⟩ <;> rw [e]
  · refine .onCheck (fun _ => rfl) fun _ => ⟨rfl, .of_store (t := t) ?_ (State.emitIp_byte_eq ..) ?_ ?_⟩
    · rw [State.sentPacket_length, State.memRead_length, ← h.len rfl]
      rfl
    · rw [State.emitIp_byte_eq, State.sentPacket, State.sentPacket, hsent]
    · exact fun r hr hst => State.emitIp_get_congr (hsent _ _) r (hwritten r hr hst)
  · exact rfl

theorem State.withSentTcp_get_tcp (u v : State) (hdr : TcpHeader) (c : Half) :
    ∀ r ∈ tcpRegs, (u.withSentTcp hdr c).get r = (v.withSentTcp hdr c).get r := by
  simp [tcpRegs, State.get, State.withSentTcp]

theorem State.withSentTcp_get_ip (u : State) (hdr : TcpHeader) (c : Half) :
    ∀ r ∈ .outLen :: ipRegs, (u.withSentTcp hdr c).get r = u.get r := by
  simp [ipRegs, State.get, State.withSentTcp]

theorem State.withSentTcp_byte (u : State) (hdr : TcpHeader) (c : Half) : (u.withSentTcp hdr c).byte = u.byte := rfl

theorem asmTcp_alike (h : SameInputs .asmTcp s t) :
    EffectsAlike (SameWrites .asmTcp s) (asmTcpEffect s) (asmTcpEffect t) := by
  have hsent := State.sentIp_congr fun r hr => h.regs r ((by decide : _ ⊆ readsRegs .asmTcp) hr)
  have htcp := State.sentTcp_congr fun r hr => h.regs r ((by decide : _ ⊆ readsRegs .asmTcp) hr)
  have hsrc : s.ip.src = t.ip.src := h.regs .ipSrc (by decide)
  have hdst : s.ip.dst = t.ip.dst := h.regs .ipDst (by decide)
  have hcsum : s.sentTcpCsum = t.sentTcpCsum := by
    funext pay
    simp only [State.sentTcpCsum, htcp, hsrc, hdst, h.par]
  have hseg : s.sentSegment = t.sentSegment := by
    funext pay
    simp only [State.sentSegment, htcp, hcsum]
  have hwritten : ∀ r ∈ writesRegs .asmTcp, r ≠ .status → r ∈ .outLen :: ipRegs ∨ r ∈ tcpRegs := by decide
  simp only [asmTcpEffect_eq, h.region rfl, h.len rfl, h.par, htcp, hcsum, hseg]
  rcases t.region_cases .pay with ⟨-, e⟩ | ⟨-, e⟩ <;> rw [e]
  · refine .onCheck (fun _ => rfl) fun _ => ⟨rfl, .of_store (t := t) (b := .pkt) (off := 0)
      (bs := s.sentPacket t.par.protoTcp (t.sentSegment (t.memRead .pay t.off.toNat t.len.toNat))) ?_ ?_ ?_ ?_⟩
    · rw [State.sentPacket_length, State.sentSegment_length, State.memRead_length, ← h.len rfl, ← Nat.add_assoc]
      rfl
    · rw [State.withSentTcp_byte, State.emitIp_byte_eq]
    · rw [State.withSentTcp_byte, State.emitIp_byte_eq, State.sentPacket, State.sentPacket, hsent]
    · intro r hr hst
      rcases hwritten r hr hst with hip | htcp
      · rw [State.withSentTcp_get_ip _ _ _ r hip, State.withSentTcp_get_ip _ _ _ r hip,
          State.emitIp_get_congr (hsent _ _) r hip]
      · exact State.withSentTcp_get_tcp _ _ _ _ r htcp
  · exact rfl

/-- `VALID.TCP_PRESENT` (10_state.md R18). -/
theorem validWord_present (present tcpOk ipOk : Bool) : (validWord present tcpOk ipOk).getLsbD 2 = present := by
  revert present tcpOk ipOk; decide

theorem skippedByDisasm_other (s : State) (h : IpHeader) (c : Half) (ipOk : Bool) (r : Reg) :
    skippedByDisasm (.disasm b) r (disasmOther s h c ipOk).1 = tcpRegs.contains r := by
  have hv : (disasmOther s h c ipOk).1.valid.getLsbD 2 = false := validWord_present false false ipOk
  simp only [skippedByDisasm, hv, Bool.not_false, Bool.and_true]

theorem disasmOther_get_congr (hoff : s.off = t.off) (h : IpHeader) (c : Half) (ipOk : Bool) :
    ∀ r ∈ writesRegs (.disasm b), r ≠ .status → tcpRegs.contains r = false →
      (disasmOther s h c ipOk).1.get r = (disasmOther t h c ipOk).1.get r := by
  simp [writesRegs, ipRegs, tcpRegs, State.get, disasmOther, hoff]

theorem disasmTcp_get_congr (hoff : s.off = t.off) (h : IpHeader) (c : Half) (hdr : TcpHeader) (tc : Half)
    (ipOk tcpOk : Bool) :
    ∀ r ∈ writesRegs (.disasm b), r ≠ .status →
      (disasmTcp s h c hdr tc ipOk tcpOk).1.get r = (disasmTcp t h c hdr tc ipOk tcpOk).1.get r := by
  simp [writesRegs, ipRegs, tcpRegs, State.get, disasmTcp, hoff]

theorem disasm_alike (h : SameInputs (.disasm b) s t) :
    EffectsAlike (SameWrites (.disasm b) s) (disasmEffect b s) (disasmEffect b t) := by
  have hcfg := State.cfg_eq_of_get (h.regs .cfg (by simp [readsRegs]))
  simp only [disasmEffect, h.region rfl, hcfg, h.par]
  cases t.region b with
  | error c => exact rfl
  | ok bs =>
    dsimp only
    cases ipParse bs with
    | error c => exact rfl
    | ok p =>
      refine .onCheck (fun _ => rfl) fun _ => .onCheck (fun _ => rfl) fun _ => .onCheck (fun _ => ?_) fun _ => ?_
      · cases tcpParse (slice bs (ipHeaderLen p.1) p.1.tlen.toNat) with
        | error c => exact rfl
        | ok q =>
          exact ⟨rfl, .of_regs rfl fun r hr hst _ => disasmTcp_get_congr (h.off rfl) _ _ _ _ _ _ r hr hst⟩
      · refine ⟨rfl, .of_regs rfl fun r hr hst hsk => ?_⟩
        exact disasmOther_get_congr (h.off rfl) _ _ _ r hr hst ((skippedByDisasm_other s _ _ _ r).symm.trans hsk)

theorem rst_alike : EffectsAlike (SameWrites .rst s) (rstEffect s) (rstEffect t) :=
  ⟨rfl, .of_regs rfl fun r _ _ _ => by cases r <;> rfl⟩

theorem nop_alike : EffectsAlike (SameWrites .nop s) (nopEffect s) (nopEffect t) :=
  ⟨rfl, .of_regs rfl (by simp [writesRegs])⟩

end

/-- R39 for every command: on the same listed inputs the effects come out alike in all that is written. -/
theorem effectOf_alike {i : Instr} {s t : State} (h : SameInputs i s t) :
    EffectsAlike (SameWrites i s) (effectOf i s) (effectOf i t) := by
  cases i with
  | csumAcc b => exact csumAcc_alike h
  | csumFin b => exact csumFin_alike h
  | ipEnc b => exact ipEnc_alike h
  | ipDec b => exact ipDec_alike h
  | ipCsum => exact ipCsum_alike h
  | ipVfy b => exact ipVfy_alike h
  | tcpEnc b => exact tcpEnc_alike h
  | tcpDec b => exact tcpDec_alike h
  | tcpPsh => exact tcpPsh_alike h
  | tcpCsum b => exact tcpCsum_alike h
  | tcpVfy b => exact tcpVfy_alike h
  | tcpFstr => exact tcpFstr_alike h
  | asmIp => exact asmIp_alike h
  | asmTcp => exact asmTcp_alike h
  | disasm b => exact disasm_alike h
  | nop => exact nop_alike
  | rst => exact rst_alike

/-- Settles O19: the effects of the two runs come out alike, and the end of the command writes `STATUS` only. -/
theorem commandsDependOnListedInputsOnly : Obligations.CommandsDependOnListedInputsOnly := by
  intro i s t s' t' h hs ht
  rcases exec_of_effectsAlike (effectOf_alike h) with ⟨c, es, et⟩ | ⟨u, v, m, huv, es, et⟩
  · cases es.symm.trans hs
    cases et.symm.trans ht
    exact ⟨rfl, fun h0 => absurd ((statusCode_rejectedStatus c).symm.trans h0) c.code_ne_zero⟩
  · cases es.symm.trans hs
    cases et.symm.trans ht
    refine ⟨rfl, fun _ => ⟨fun r hr hsk => ?_, huv.bytes⟩⟩
    by_cases hst : r = .status
    · subst hst; rfl
    · have e : ∀ w : State, State.get { w with status := doneStatus m } r = w.get r :=
        fun w => w.setStatus_get (doneStatus m) hst
      rw [e, e]
      exact huv.regs r hr hst hsk

end Sys2Proof.Machine
end

section
/-! ### Host buffer accesses (20_memory.md R48, R49) -/

namespace Sys2Proof.Machine

/-- A store puts its bytes in place and leaves every other byte alone. -/
theorem storesAt_memWrite (s : State) (b : Buf) (off : Nat) (bs : List Byte) :
    storesAt s (s.memWrite b off bs) b off bs :=
  ⟨fun _ hk => s.byte_memWrite_inside b off bs hk, fun _ _ h => s.byte_memWrite_outside b off bs h⟩

section
variable {s : State} {b : Buf} {off : Half} {bs : List Byte} {n : Nat}

theorem State.hostBufWrite_inside (h : off.toNat + bs.length ≤ s.size b) :
    s.hostBufWrite b off bs = s.memWrite b off.toNat bs := if_pos h

theorem State.hostBufWrite_outside (h : s.size b < off.toNat + bs.length) : s.hostBufWrite b off bs = s :=
  if_neg (Nat.not_le.2 h)

theorem State.hostBufRead_inside (h : off.toNat + n ≤ s.size b) :
    s.hostBufRead b off n = some (s.memRead b off.toNat n) := if_pos h

theorem State.hostBufRead_outside (h : s.size b < off.toNat + n) : s.hostBufRead b off n = none :=
  if_neg (Nat.not_le.2 h)

end

section
variable {s : State} {b : Buf} {off : Half} {bs : List Byte} {rest : List HostStep}

theorem step_bufWrite_inside (hs : s.host = .bufWrite b off bs :: rest) (h : off.toNat + bs.length ≤ s.size b) :
    step s = .next (State.memWrite { s with host := rest } b off.toNat bs) :=
  (step_host hs).trans (congrArg Host.Outcome.next (State.hostBufWrite_inside (s := { s with host := rest }) h))

theorem step_bufWrite_outside (hs : s.host = .bufWrite b off bs :: rest) (h : s.size b < off.toNat + bs.length) :
    step s = .next { s with host := rest } :=
  (step_host hs).trans (congrArg Host.Outcome.next (State.hostBufWrite_outside (s := { s with host := rest }) h))

end

/-- Settles O10: inside the buffer a write is one store and a read one run of bytes; outside neither is performed. -/
theorem hostBufferAccess : Obligations.HostBufferAccess := by
  refine ⟨fun s b off bs rest hs => ⟨fun h => ?_, step_bufWrite_outside hs⟩,
    fun s b off n => ⟨fun h => ?_, State.hostBufRead_outside, fun rest hs => step_host hs⟩⟩
  · exact ⟨_, step_bufWrite_inside hs h, rfl, storesAt_memWrite { s with host := rest } b off.toNat bs⟩
  · exact ⟨_, State.hostBufRead_inside h, s.memRead_length b _ n, s.rd8_memRead b _ n⟩

end Sys2Proof.Machine
end

section
/-! ### The frame of every command (20_memory.md R58, 30_encoding.md R64) -/

namespace Sys2Proof.Machine

/-! #### What a command that completes may change -/

/-- The state `u` a command `i` completed in, before `STATUS` is written, has the registers and buffer bytes of `s`
wherever R64 names none as written. -/
structure ChangesOnlyNamed (i : Instr) (s u : State) : Prop where
  regs : ∀ r, r ∉ writesRegs i → u.get r = s.get r
  bytes : ∀ b a, inWrittenBytes i s b a = false → u.byte b a = s.byte b a

/-- The effect is a rejection, or completes in a state that meets `P`. -/
def CompletesIn (P : State → Prop) : Effect → Prop
  | .ok (u, _) => P u
  | .error _ => True

theorem CompletesIn.onCheck {P : State → Prop} {p : Prop} [Decidable p] {c : Cause} {e : Effect}
    (h : CompletesIn P e) : CompletesIn P (if p then .error c else e) := by
  split
  next => trivial
  next => exact h

theorem CompletesIn.imp {P Q : State → Prop} {e : Effect} (h : ∀ u, P u → Q u) (hp : CompletesIn P e) :
    CompletesIn Q e := by
  rcases e with c | ⟨u, m⟩
  · trivial
  · exact h u hp

theorem CompletesIn.and {P Q : State → Prop} {e : Effect} (hp : CompletesIn P e) (hq : CompletesIn Q e) :
    CompletesIn (fun u => P u ∧ Q u) e := by
  rcases e with c | ⟨u, m⟩
  · trivial
  · exact ⟨hp, hq⟩

section
variable {i : Instr} {s u : State}

/-- A command that writes no buffer. -/
theorem ChangesOnlyNamed.of_regs (hb : u.bufs = s.bufs) (he : u.epoch = s.epoch)
    (h : ∀ r, r ∉ writesRegs i → u.get r = s.get r) : ChangesOnlyNamed i s u where
  regs := h
  bytes b a _ := State.byte_congr hb he b a

/-- A command that stores the bytes `bs` where its row says. -/
theorem ChangesOnlyNamed.of_store {b : Buf} {off : Nat} {bs : List Byte}
    (hw : writesBytes i s = some (b, off, bs.length)) (hb : u.byte = (s.memWrite b off bs).byte)
    (h : ∀ r, r ∉ writesRegs i → u.get r = s.get r) : ChangesOnlyNamed i s u where
  regs := h
  bytes b' a hout := by
    rw [hb, State.byte_memWrite, if_neg]
    rintro ⟨rfl, hlo, hhi⟩
    simp [inWrittenBytes, hw, hlo, hhi] at hout

end

/-! #### The assemblers and `DISASM` -/

theorem State.emitIp_get_ipProto (s : State) (proto : Byte) (pay : List Byte) :
    (s.emitIp proto pay).get .ipProto = proto.setWidth 32 := by
  rw [State.emitIp_eq_withSentIp]
  rfl

/-- `ASM.IP` sends the protocol that stands in `IP_PROTO`, so that register keeps its value (43_packet.md R172). -/
theorem State.emitIp_keeps (s : State) (pay : List Byte) {r : Reg} (h : r ∉ writesRegs .asmIp) :
    (s.emitIp s.ip.proto pay).get r = s.get r := by
  by_cases hp : r = .ipProto
  · subst hp
    exact s.emitIp_get_ipProto _ pay
  · exact s.emitIp_get _ pay (by simp_all [writesRegs])

theorem asmIp_changesOnlyNamed (s : State) : CompletesIn (ChangesOnlyNamed .asmIp s) (asmIpEffect s) := by
  unfold asmIpEffect
  rcases s.region_cases .pay with ⟨-, e⟩ | ⟨-, e⟩ <;> rw [e]
  · refine .onCheck (.of_store ?_ (State.emitIp_byte_eq ..) fun r => s.emitIp_keeps _)
    rw [State.sentPacket_length, State.memRead_length]
    rfl
  · trivial

/-- `ASM.TCP` changes the data offset and the checksum of the TCP registers (43_packet.md R174). -/
theorem State.withSentTcp_get_sentTcp (s u : State) (hu : u.tcp = s.tcp) (c : Half) {r : Reg}
    (h : r ∉ [.tcpDoff, .tcpCsum]) : (u.withSentTcp s.sentTcp c).get r = u.get r := by
  revert h
  cases r <;> simp [State.get, State.withSentTcp, State.sentTcp, hu]

theorem State.emitIp_tcp (s : State) (proto : Byte) (pay : List Byte) : (s.emitIp proto pay).tcp = s.tcp := by
  rw [State.emitIp_eq_withSentIp]
  rfl

theorem asmTcp_changesOnlyNamed (s : State) : CompletesIn (ChangesOnlyNamed .asmTcp s) (asmTcpEffect s) := by
  rw [asmTcpEffect_eq]
  rcases s.region_cases .pay with ⟨-, e⟩ | ⟨-, e⟩ <;> rw [e]
  · refine .onCheck (.of_store ?_ ((State.withSentTcp_byte ..).trans (State.emitIp_byte_eq ..)) fun r hr => ?_)
    · rw [State.sentPacket_length, State.sentSegment_length, State.memRead_length, ← Nat.add_assoc]
      rfl
    · rw [s.withSentTcp_get_sentTcp _ (s.emitIp_tcp _ _), s.emitIp_get] <;> simp_all [writesRegs]
  · trivial

/-- `DISASM` completes with an IP header only, or with an IP and a TCP header (43_packet.md R176). -/
theorem disasmEffect_completes (b : Buf) (s : State) :
    CompletesIn (fun u => (∃ h c ipOk, u = (disasmOther s h c ipOk).1) ∨
      ∃ h c t tc ipOk tcpOk, u = (disasmTcp s h c t tc ipOk tcpOk).1) (disasmEffect b s) := by
  unfold disasmEffect
  cases s.region b with
  | error c => trivial
  | ok bs =>
    dsimp only
    cases ipParse bs with
    | error c => trivial
    | ok p =>
      refine .onCheck (.onCheck ?_)
      split
      · cases tcpParse (slice bs (ipHeaderLen p.1) p.1.tlen.toNat) with
        | error c => trivial
        | ok q => exact .inr ⟨_, _, _, _, _, _, rfl⟩
      · exact .inl ⟨_, _, _, rfl⟩

theorem disasmOther_get_tcp (s : State) (h : IpHeader) (c : Half) (ipOk : Bool) :
    ∀ r ∈ tcpRegs, (disasmOther s h c ipOk).1.get r = s.get r := by
  simp [tcpRegs, State.get, disasmOther]

theorem disasm_changesOnlyNamed (b : Buf) (s : State) :
    CompletesIn (ChangesOnlyNamed (.disasm b) s) (disasmEffect b s) := by
  refine (disasmEffect_completes b s).imp fun u hu => ?_
  rcases hu with ⟨h, c, ipOk, rfl⟩ | ⟨h, c, t, tc, ipOk, tcpOk, rfl⟩
  · exact .of_regs rfl rfl (by intro r; cases r <;> simp [writesRegs, ipRegs, tcpRegs, State.get, disasmOther])
  · exact .of_regs rfl rfl (by intro r; cases r <;> simp [writesRegs, ipRegs, tcpRegs, State.get, disasmTcp])

/-- `DISASM` without a TCP header keeps the TCP registers. -/
theorem disasm_keeps_skipped (b : Buf) (s : State) :
    CompletesIn (fun u => ∀ r, skippedByDisasm (.disasm b) r u = true → u.get r = s.get r) (disasmEffect b s) := by
  refine (disasmEffect_completes b s).imp fun u hu r hr => ?_
  rcases hu with ⟨h, c, ipOk, rfl⟩ | ⟨h, c, t, tc, ipOk, tcpOk, rfl⟩
  · rw [skippedByDisasm_other] at hr
    exact disasmOther_get_tcp s h c ipOk r (List.contains_iff_mem.1 hr)
  · have hv : (disasmTcp s h c t tc ipOk tcpOk).1.valid.getLsbD 2 = true := validWord_present true tcpOk ipOk
    simp only [skippedByDisasm, hv, Bool.not_true, Bool.and_false, Bool.false_eq_true] at hr

/-! #### Every command -/

/-- `STR` is rewritten whole: the padded flag string is as long as the buffer (42_tcp_codec.md R156). -/
theorem flagsStr_padded_length (f : Byte) :
    (flagsStr f ++ List.replicate (Config.strSize - (flagsStr f).length) 0).length = 24 := by
  rw [List.length_append, List.length_replicate]
  exact Nat.add_sub_cancel' ((flagsStr_length_le f).trans (by decide))

theorem Reg.mem_all (r : Reg) : r ∈ Reg.all := by cases r <;> decide

/-- R58 and R64 for every command that completes, before `STATUS` is written. -/
theorem effectOf_changesOnlyNamed (i : Instr) (s : State) : CompletesIn (ChangesOnlyNamed i s) (effectOf i s) := by
  cases i with
  | csumAcc b | csumFin b =>
    simp only [effectOf, csumAccEffect, csumFinEffect]
    cases s.region b with
    | error c => trivial
    | ok bs => exact .of_regs rfl rfl (by intro r; cases r <;> simp [writesRegs, State.get])
  | ipVfy b | tcpVfy b | tcpCsum b =>
    simp only [effectOf, ipVfyEffect, tcpVfyEffect, tcpCsumEffect]
    cases s.region b with
    | error c => trivial
    | ok bs => exact .onCheck (.of_regs rfl rfl (by intro r; cases r <;> simp [writesRegs, State.get]))
  | ipDec b =>
    simp only [effectOf, ipDecEffect]
    cases s.region b with
    | error c => trivial
    | ok bs =>
      dsimp only
      cases ipParse bs with
      | error c => trivial
      | ok p => exact .of_regs rfl rfl (by intro r; cases r <;> simp [writesRegs, ipRegs, State.get])
  | tcpDec b =>
    simp only [effectOf, tcpDecEffect]
    cases s.region b with
    | error c => trivial
    | ok bs =>
      dsimp only
      cases tcpParse bs with
      | error c => trivial
      | ok p => exact .of_regs rfl rfl (by intro r; cases r <;> simp [writesRegs, tcpRegs, State.get])
  | ipEnc b | tcpEnc b =>
    simp only [effectOf, ipEncEffect, tcpEncEffect]
    rcases s.headerDest_cases b with ⟨-, e⟩ | ⟨-, e⟩ <;> rw [e]
    · exact .of_store rfl rfl fun r _ => s.memWrite_get b _ _ r
    · trivial
  | tcpPsh => exact .of_store rfl rfl fun r _ => s.memWrite_get .phdr 0 _ r
  | tcpFstr =>
    exact .of_store (by rw [flagsStr_padded_length]; rfl) rfl (by intro r; cases r <;> simp [writesRegs, State.get])
  | asmIp => exact asmIp_changesOnlyNamed s
  | asmTcp => exact asmTcp_changesOnlyNamed s
  | disasm b => exact disasm_changesOnlyNamed b s
  | ipCsum => exact .of_regs rfl rfl (by intro r; cases r <;> simp [writesRegs, State.get])
  | nop => exact .of_regs rfl rfl fun _ _ => rfl
  | rst => exact .of_regs rfl rfl fun r h => absurd r.mem_all h

/-- Only `DISASM` skips registers, and it keeps those it skips. -/
theorem effectOf_keeps_skipped (i : Instr) (s : State) :
    CompletesIn (fun u => ∀ r, skippedByDisasm i r u = true → u.get r = s.get r) (effectOf i s) := by
  cases i with
  | disasm b => exact disasm_keeps_skipped b s
  | _ =>
    rcases effectOf _ s with c | ⟨u, m⟩
    · trivial
    · exact fun r hr => absurd hr Bool.false_ne_true

/-- Every command writes `STATUS` (30_encoding.md R64). -/
theorem status_mem_writesRegs (i : Instr) : .status ∈ writesRegs i := by
  cases i <;> simp [writesRegs, Reg.all]

theorem ne_status_of_skipped {i : Instr} {r : Reg} {u : State} (h : skippedByDisasm i r u = true) : r ≠ .status := by
  rintro rfl
  cases i <;> exact Bool.false_ne_true h

theorem ne_status_of_not_mem {i : Instr} {r : Reg} (h : r ∉ writesRegs i) : r ≠ .status :=
  fun e => h (e ▸ status_mem_writesRegs i)

theorem exec_epoch {i : Instr} {s t : State} (h : exec i s = .next t) : t.epoch = s.epoch := by
  by_cases hi : i = .rst
  · subst hi
    cases (exec_rst s).symm.trans h
    rfl
  · exact congrArg (fun c => c.2.2.1) (exec_control hi h)

/-- Every command is rejected, or ends in a state that meets what its effect completes in, with `STATUS` written. -/
theorem exec_completesIn {P : State → Prop} {i : Instr} {s : State} (h : CompletesIn P (effectOf i s)) :
    (∃ c, exec i s = .next (s.setStatus (rejectedStatus c))) ∨
      ∃ u m, P u ∧ exec i s = .next (u.setStatus (doneStatus m)) := by
  rcases exec_cases i s with ⟨c, -, e⟩ | ⟨u, m, hu, e⟩
  · exact .inl ⟨c, e⟩
  · rw [hu] at h
    exact .inr ⟨u, m, h, e⟩

/-- Settles O18: a rejection writes `STATUS` only, and a command that completes changes what its row names. -/
theorem commandsWriteOnlyWhatTheyName : Obligations.CommandsWriteOnlyWhatTheyName := by
  intro i s t h
  obtain ⟨hpar, hhost⟩ := exec_keeps_par_host h
  have hepoch := exec_epoch h
  rcases exec_completesIn ((effectOf_changesOnlyNamed i s).and (effectOf_keeps_skipped i s)) with
    ⟨c, e⟩ | ⟨u, m, ⟨hnamed, hskipped⟩, e⟩
  · cases e.symm.trans h
    exact ⟨fun r hr => s.setStatus_get _ (ne_status_of_not_mem hr),
      fun r hr => s.setStatus_get _ (ne_status_of_skipped hr),
      fun _ _ _ => rfl, fun _ _ _ => rfl, hpar, hepoch, hhost⟩
  · cases e.symm.trans h
    refine ⟨fun r hr => ?_, fun r hr => ?_, hnamed.bytes, fun hcode => ?_, hpar, hepoch, hhost⟩
    · exact (u.setStatus_get _ (ne_status_of_not_mem hr)).trans (hnamed.regs r hr)
    · exact (u.setStatus_get _ (ne_status_of_skipped hr)).trans (hskipped r hr)
    · exact absurd (statusCode_doneStatus m) hcode

end Sys2Proof.Machine
end

section
/-! ### Decoding and encoding are inverse (30_encoding.md R61 to R65) -/

namespace Sys2Proof

/-! #### The fields of a command word -/

@[simp] theorem toNat_commandWord (c : BitVec 2) (opc : Byte) :
    (commandWord c opc).toNat = 0x100 * c.toNat + opc.toNat := by
  have h0 : (0#6 ++ c).toNat = c.toNat := by
    rw [BitVec.toNat_append, BitVec.toNat_ofNat, Nat.zero_mod, Nat.zero_shiftLeft, Nat.zero_or]
  rw [commandWord, BitVec.toNat_append, ← Nat.shiftLeft_add_eq_or_of_lt opc.isLt, Nat.shiftLeft_eq, h0]
  omega

@[simp] theorem opc_commandWord (c : BitVec 2) (opc : Byte) : (commandWord c opc).extractLsb' 0 8 = opc := by
  apply BitVec.eq_of_toNat_eq
  rw [toNat_opc, wordOpc, toNat_commandWord]
  omega

@[simp] theorem bsel_commandWord (c : BitVec 2) (opc : Byte) : (commandWord c opc).extractLsb' 8 2 = c := by
  apply BitVec.eq_of_toNat_eq
  rw [toNat_bsel, wordBsel, toNat_commandWord]
  omega

@[simp] theorem rsv_commandWord (c : BitVec 2) (opc : Byte) : (commandWord c opc).extractLsb' 10 6 = 0 := by
  rw [rsv_eq_zero, wordRsv, toNat_commandWord]
  omega

/-- A word whose reserved bits are 0 is the command word of its `BSEL` and its `OPC`. -/
theorem eq_commandWord {w : Half} (h : w.extractLsb' 10 6 = 0) :
    w = commandWord (w.extractLsb' 8 2) (w.extractLsb' 0 8) := by
  conv_lhs => rw [← word_eq_fields w, h]
  rfl

/-! #### From a command to its word and back -/

theorem decode_commandWord {opc : Byte} {f : Form} (h : formOf opc = some f) (c : BitVec 2) :
    decode (commandWord c opc) = f.select c := by
  simp only [decode, opc_commandWord, bsel_commandWord, rsv_commandWord, h, if_true]

/-- The opcode map lists the opcode of every command, with its class of R63. -/
theorem decode_encode (i : Instr) : decode (encode i) = .ok i := by
  cases i with
  | csumAcc b | csumFin b | ipEnc b | ipDec b | ipVfy b | tcpEnc b | tcpDec b | tcpCsum b | tcpVfy b | disasm b =>
    exact (decode_commandWord rfl b.code).trans (by rw [Form.select, Buf.ofCode_code])
  | ipCsum | tcpPsh | tcpFstr | asmIp | asmTcp | nop | rst => exact (decode_commandWord rfl _).trans rfl

/-- The encoder gives every command of the class `f` the opcode `opc`, and the `BSEL` that R63 permits. -/
def Form.EncodesAs (opc : Byte) : Form → Prop
  | .region mk => ∀ b, encode (mk b) = commandWord b.code opc
  | .payOnly i => encode i = commandWord 1 opc
  | .noRegion i => encode i = commandWord 0 opc

/-- The encoder agrees with the opcode map (R62). -/
theorem formOf_encodesAs {opc : Byte} {f : Form} (h : formOf opc = some f) : f.EncodesAs opc := by
  unfold formOf at h
  split at h <;> cases h
  all_goals
    dsimp only [Form.EncodesAs]
    intros
    rfl

/-- A command that `BSEL` selects is encoded with that `BSEL`. -/
theorem encode_of_select {opc : Byte} {f : Form} {c : BitVec 2} {i : Instr} (hf : f.EncodesAs opc)
    (h : f.select c = .ok i) : encode i = commandWord c opc := by
  cases f with
  | region mk =>
    cases h
    rw [hf, Buf.code_ofCode]
  | payOnly j | noRegion j =>
    rw [Form.select] at h
    split at h
    next hc =>
      cases h
      rw [hf, hc]
    next => cases h

theorem encode_of_decode {w : Half} {i : Instr} (h : decode w = .ok i) : encode i = w := by
  rcases decode_cases w with ⟨-, e⟩ | ⟨f, hf, ⟨-, e⟩ | ⟨hrsv, e⟩⟩
  · cases e.symm.trans h
  · cases e.symm.trans h
  · exact (encode_of_select (formOf_encodesAs hf) (e.symm.trans h)).trans (eq_commandWord hrsv).symm

theorem decode_eq_ok_iff {w : Half} {i : Instr} : decode w = .ok i ↔ w = encode i :=
  ⟨fun h => (encode_of_decode h).symm, fun h => h ▸ decode_encode i⟩

/-- Settles O11: the opcode map and the encoder give every command the same opcode and `BSEL`. -/
theorem decodeEncodeAgree : Obligations.DecodeEncodeAgree := fun _ _ => decode_eq_ok_iff

/-- Settles O13: each of the ten words is the encoding of its command. -/
theorem sampleWordsDecode : Obligations.SampleWordsDecode := by
  unfold Obligations.SampleWordsDecode
  simp only [decode_eq_ok_iff]
  decide

/-! #### Which words decode -/

/-- The opcode map lists the assigned opcodes (R65). -/
theorem formOf_isSome (opc : Byte) : (formOf opc).isSome = opcAssigned opc.toNat := by
  revert opc; decide

/-- R63 for a class: the values of `BSEL` it permits. -/
def Form.permits (c : BitVec 2) : Form → Bool
  | .region _ => true
  | .payOnly _ => c = 1
  | .noRegion _ => c = 0

/-- The classes of the opcode map permit what R63 permits. -/
theorem permits_of_formOf {opc : Byte} {f : Form} (h : formOf opc = some f) (c : BitVec 2) :
    f.permits c = bselPermitted opc.toNat c.toNat := by
  unfold formOf at h
  split at h <;> cases h <;> revert c <;> decide

theorem Form.select_cases (f : Form) (c : BitVec 2) :
    (f.permits c = true ∧ ∃ i, f.select c = .ok i) ∨ (f.permits c = false ∧ f.select c = .error .fieldReserved) := by
  cases f with
  | region mk => exact .inl ⟨rfl, _, rfl⟩
  | payOnly i | noRegion i =>
    simp only [Form.permits, Form.select]
    split
    next hc => exact .inl ⟨decide_eq_true hc, i, rfl⟩
    next hc => exact .inr ⟨decide_eq_false hc, rfl⟩

/-- R65 in full: the three classes of words, and what the decoder answers on each. -/
theorem decode_verdict (w : Half) :
    (opcAssigned (wordOpc w) = false ∧ decode w = .error .opcodeReserved) ∨
    (opcAssigned (wordOpc w) = true ∧ wordWellFormed w = false ∧ decode w = .error .fieldReserved) ∨
    (opcAssigned (wordOpc w) = true ∧ wordWellFormed w = true ∧ ∃ i, decode w = .ok i) := by
  have hopc := formOf_isSome (w.extractLsb' 0 8)
  rw [toNat_opc] at hopc
  rcases decode_cases w with ⟨hf, e⟩ | ⟨f, hf, h⟩
  · rw [hf] at hopc
    exact .inl ⟨hopc.symm, e⟩
  · rw [hf] at hopc
    have hperm := permits_of_formOf hf (w.extractLsb' 8 2)
    rw [toNat_opc, toNat_bsel] at hperm
    rw [ne_eq, rsv_eq_zero] at h
    simp only [wordWellFormed, ← hopc, ← hperm, Option.isSome_some, Bool.true_and, true_and]
    rcases h with ⟨hrsv, e⟩ | ⟨hrsv, e⟩
    · exact .inr (.inl ⟨by rw [decide_eq_false hrsv, Bool.false_and], e⟩)
    · rw [decide_eq_true hrsv, Bool.true_and, e]
      rcases f.select_cases (w.extractLsb' 8 2) with ⟨hp, hi⟩ | ⟨hp, he⟩
      · exact .inr (.inr ⟨hp, hi⟩)
      · exact .inr (.inl ⟨hp, he⟩)

end Sys2Proof
end

section
/-! ### A host write to `CMD` (30_encoding.md R60, R65) -/

namespace Sys2Proof.Machine

theorem runCommandWord_of_ok {w : Half} {i : Instr} (h : decode w = .ok i) (s : State) :
    runCommandWord w s = exec i { s with cmd := w } := by
  simp only [runCommandWord, h]

theorem rejectedStatus_causeOfDecodeError (e : DecodeError) :
    rejectedStatus (causeOfDecodeError e) = if e = .opcodeReserved then 0x0415 else 0x0425 := by
  cases e <;> decide

theorem runCommandWord_of_error {w : Half} {e : DecodeError} (h : decode w = .error e) (s : State) :
    runCommandWord w s =
      .next { s with cmd := w, status := if e = .opcodeReserved then 0x0415 else 0x0425 } := by
  rw [← rejectedStatus_causeOfDecodeError]
  simp only [runCommandWord, h]
  rfl

theorem step_cmdWrite {s : State} {v : Word} {rest : List HostStep} (hs : s.host = .regWrite 0x00 v :: rest) :
    step s = runCommandWord (v.setWidth 16) { s with host := rest } := step_host hs

/-- Settles O4: a write to number 0 runs the command word. -/
theorem stepRunsTheDecodedCommand : Obligations.StepRunsTheDecodedCommand :=
  fun _ _ _ hs => ⟨fun _ h => (step_cmdWrite hs).trans (runCommandWord_of_ok h _),
    fun _ h => (step_cmdWrite hs).trans (runCommandWord_of_error h _)⟩

/-- A half-word written as the low half of a word. -/
@[simp] theorem setWidth_word_half (w : Half) : (w.setWidth 32).setWidth 16 = w :=
  (BitVec.setWidth_setWidth_of_le w (by decide)).trans (BitVec.setWidth_eq w)

theorem step_cmdWrite_of_error {w : Half} {e : DecodeError} (h : decode w = .error e) (s : State)
    (rest : List HostStep) (hs : s.host = .regWrite 0x00 (w.setWidth 32) :: rest) :
    step s = .next { s with
      host := rest, cmd := w, status := if e = .opcodeReserved then 0x0415 else 0x0425 } := by
  rw [step_cmdWrite hs, setWidth_word_half, runCommandWord_of_error h]

/-- Settles O12: an illegal word decodes to the error of its class, and a write of it to `CMD` records that error. -/
theorem illegalWordsAreRejectedByCause : Obligations.IllegalWordsAreRejectedByCause := by
  intro w
  rcases decode_verdict w with ⟨ha, he⟩ | ⟨ha, hw, he⟩ | ⟨ha, hw, hi⟩
  · have hw : wordWellFormed w = false := by rw [wordWellFormed, ha, Bool.false_and, Bool.false_and]
    simpa [ha, hw, he] using step_cmdWrite_of_error he
  · simpa [ha, hw, he] using step_cmdWrite_of_error he
  · simpa [ha, hw] using hi

end Sys2Proof.Machine
end

section
/-! ### Host programs: the lines `WR` and `CMD`, and `CHECKSUM` (30_encoding.md R67, R68) -/

namespace Sys2Proof.Machine

/-! #### Runs of a few steps -/

theorem run_one (s : State) : Host.Core.run Sys2Proof.core 1 s = step s := by
  have h : ∀ (M : Host.Core) (x : M.State), M.run 1 x = M.step x := by
    intro M x
    simp only [Host.Core.run]
    cases M.step x <;> rfl
  exact h Sys2Proof.core s

theorem run_succ_of_step {s t : State} (h : step s = .next t) (k : Nat) :
    Host.Core.run Sys2Proof.core (k + 1) s = Host.Core.run Sys2Proof.core k t := by
  have h' : Host.Core.step Sys2Proof.core s = .next t := h
  simp only [Host.Core.run, h']

/-! #### The lines -/

section
variable {s : State} {rest : List HostStep}

/-- `WR` of an `RW` register stores the value. -/
theorem step_lineWr {r : Reg} {v : Word} (hs : s.host = lineWr r v :: rest) (hr : r.access = .rw) :
    step s = .next (State.put { s with host := rest } r v) := by
  rw [step_host hs]
  simp only [lineWr, runHostStep, hostRegWrite, Reg.ofNum_num, hr]

theorem run_lineWr {r : Reg} {v : Word} (hs : s.host = lineWr r v :: rest) (hr : r.access = .rw) (k : Nat) :
    Host.Core.run Sys2Proof.core (k + 1) s = Host.Core.run Sys2Proof.core k (State.put { s with host := rest } r v) :=
  run_succ_of_step (step_lineWr hs hr) k

/-- `CMD` runs the command with its word in the register `CMD`. -/
theorem step_lineCmd {i : Instr} (hs : s.host = lineCmd i :: rest) :
    step s = exec i { s with host := rest, cmd := encode i } := by
  rw [step_cmdWrite hs, setWidth_word_half, runCommandWord_of_ok (decode_encode i)]

end

/-- Three register writes, then the command (R68). -/
theorem run_pseudoChecksum {s : State} {b : Buf} {off len init : Word} {rest : List HostStep}
    (hs : s.host = pseudoChecksum b off len init ++ rest) :
    Host.Core.run Sys2Proof.core 4 s = exec (.csumFin b) { s with
      acc := init.setWidth 16, off := off.setWidth 16, len := len.setWidth 16
      cmd := encode (.csumFin b), host := rest } := by
  refine Eq.trans (run_lineWr hs rfl 3) ?_
  refine Eq.trans (run_lineWr rfl rfl 2) ?_
  refine Eq.trans (run_lineWr rfl rfl 1) ?_
  refine Eq.trans (run_one _) ?_
  exact step_lineCmd rfl

/-- `CSUM.FIN` on a region inside its buffer (40_checksum.md R101). -/
theorem exec_csumFin_inside {s : State} {b : Buf} (h : s.regionInside b) :
    exec (.csumFin b) s = .next { s with
      acc := ocsum (s.memRead b s.off.toNat s.len.toNat) s.acc
      result := cksum (s.memRead b s.off.toNat s.len.toNat) s.acc
      status := 0 } := by
  simp only [exec_eq_conclude, effectOf, csumFinEffect, State.region_inside h, State.conclude_ok, doneStatus_false, cksum]

/-- Settles O31: the three writes put the operands of `CSUM.FIN` in place. -/
theorem checksumPseudoInstruction : Obligations.ChecksumPseudoInstruction := by
  intro s b off len init rest hs hin
  have hrun := run_pseudoChecksum hs
  simp only [setWidth_word_half] at hrun
  refine ⟨_, hrun.trans (exec_csumFin_inside hin), ?_, ?_, rfl, rfl, rfl⟩
  · exact congrArg (cksum · init) (State.memRead_congr fun _ _ => rfl)
  · exact congrArg (ocsum · init) (State.memRead_congr fun _ _ => rfl)

end Sys2Proof.Machine
end

section
/-! ### The pseudo-header (30_encoding.md R74) -/

namespace Sys2Proof.Machine

theorem be16_toNat (v : Half) : 256 * (rd8 (be16 v) 0).toNat + (rd8 (be16 v) 1).toNat = v.toNat := by
  conv_rhs => rw [← be16_append v, toNat_append_byte]
  rfl

theorem be32_toNat (v : Word) :
    0x1000000 * (rd8 (be32 v) 0).toNat + 0x10000 * (rd8 (be32 v) 1).toNat + 256 * (rd8 (be32 v) 2).toNat +
      (rd8 (be32 v) 3).toNat = v.toNat := by
  conv_rhs => rw [← be32_append v, toNat_append_half, toNat_append_byte, toNat_append_byte]
  simp only [rd8, be32, List.getD_cons_zero, List.getD_cons_succ]
  omega

/-- Settles O39: the parts stand one after the other, each big-endian. -/
theorem pseudoHeaderFormat : Obligations.PseudoHeaderFormat :=
  fun src dst _ seglen => ⟨rfl, be32_toNat src, be32_toNat dst, rfl, rfl, be16_toNat seglen⟩

end Sys2Proof.Machine
end

section
/-! ### One's-complement addition (40_checksum.md R90, R95) -/

namespace Sys2Proof.Machine

theorem ocadd_toNat (a b : Half) : (ocadd a b).toNat =
    if a.toNat + b.toNat < 0x10000 then a.toNat + b.toNat else a.toNat + b.toNat - 0x10000 + 1 := by
  have ha := a.isLt
  have hb := b.isLt
  simp only [ocadd, BitVec.toNat_ofNat]
  split <;> omega

/-- Settles O20: there is at most one carry, and adding it back cannot carry again. -/
theorem ocaddAddsTheCarryBack : Obligations.OcaddAddsTheCarryBack := ocadd_toNat

/-! #### The value that stands for a plain sum -/

/-- 0 for the sum 0, and otherwise the value in 1..0xFFFF congruent to the sum modulo 0xFFFF (R95 (7)). -/
def ocResidue (n : Nat) : Nat := if n = 0 then 0 else (n - 1) % 0xFFFF + 1

@[simp] theorem ocResidue_zero : ocResidue 0 = 0 := rfl

theorem ocResidue_of_pos {n : Nat} (h : n ≠ 0) : ocResidue n = (n - 1) % 0xFFFF + 1 := if_neg h

@[simp] theorem ocResidue_eq_zero {n : Nat} : ocResidue n = 0 ↔ n = 0 := by
  unfold ocResidue
  split <;> omega

theorem ocResidue_of_lt {n : Nat} (h : n < 0x10000) : ocResidue n = n := by
  unfold ocResidue
  split <;> omega

theorem ocResidue_mod (n : Nat) : ocResidue n % 0xFFFF = n % 0xFFFF := by
  unfold ocResidue
  split <;> omega

/-- In 1..0xFFFF residues modulo 0xFFFF are unique (R93). -/
theorem mod_eq_iff_eq_ocResidue {n v : Nat} (hn : n ≠ 0) (h1 : 1 ≤ v) (h2 : v ≤ 0xFFFF) :
    v % 0xFFFF = n % 0xFFFF ↔ v = ocResidue n := by
  rw [ocResidue_of_pos hn]
  omega

/-- A partial sum may be replaced by its value before the rest is added. -/
@[simp] theorem ocResidue_add_left (m n : Nat) : ocResidue (ocResidue m + n) = ocResidue (m + n) := by
  rcases eq_or_ne m 0 with rfl | hm
  · rfl
  · rw [ocResidue_of_pos hm, ocResidue_of_pos (by omega), ocResidue_of_pos (by omega)]
    omega

@[simp] theorem ocResidue_add_right (m n : Nat) : ocResidue (m + ocResidue n) = ocResidue (m + n) := by
  rw [Nat.add_comm, ocResidue_add_left, Nat.add_comm]

/-- A half-word stands for itself. -/
@[simp] theorem ocResidue_toNat (a : Half) : ocResidue a.toNat = a.toNat := ocResidue_of_lt a.isLt

/-- `ocadd` adds, and takes the value that stands for the sum. -/
theorem ocadd_toNat_residue (a b : Half) : (ocadd a b).toNat = ocResidue (a.toNat + b.toNat) := by
  have ha := a.isLt
  have hb := b.isLt
  rw [ocadd_toNat]
  split
  next h => exact (ocResidue_of_lt h).symm
  next h =>
    rw [ocResidue_of_pos (by omega)]
    omega

/-! #### The laws of R95 for `ocadd` -/

theorem ocadd_comm (a b : Half) : ocadd a b = ocadd b a := by
  apply BitVec.eq_of_toNat_eq
  rw [ocadd_toNat_residue, ocadd_toNat_residue, Nat.add_comm]

theorem ocadd_assoc (a b c : Half) : ocadd (ocadd a b) c = ocadd a (ocadd b c) := by
  apply BitVec.eq_of_toNat_eq
  simp only [ocadd_toNat_residue, ocResidue_add_left, ocResidue_add_right, Nat.add_assoc]

theorem ocadd_right_comm (a b c : Half) : ocadd (ocadd a b) c = ocadd (ocadd a c) b := by
  rw [ocadd_assoc, ocadd_comm b c, ocadd_assoc]

@[simp] theorem ocadd_zero (a : Half) : ocadd a 0 = a :=
  BitVec.eq_of_toNat_eq ((ocadd_toNat_residue a 0).trans (ocResidue_toNat a))

theorem ocadd_eq_zero {a b : Half} : ocadd a b = 0 ↔ a = 0 ∧ b = 0 := by
  rw [← BitVec.toNat_inj, ocadd_toNat_residue, ← BitVec.toNat_inj, ← BitVec.toNat_inj]
  exact ocResidue_eq_zero.trans Nat.add_eq_zero_iff

/-- 0xFFFF is a second zero, except on 0 itself. -/
theorem ocadd_negativeZero (a : Half) : ocadd a 0xFFFF = if a = 0 then 0xFFFF else a := by
  split
  next h => rw [h, ocadd_comm, ocadd_zero]
  next h =>
    have ha := a.isLt
    have hpos : a.toNat ≠ 0 := fun e => h (BitVec.eq_of_toNat_eq e)
    apply BitVec.eq_of_toNat_eq
    rw [ocadd_toNat, show (0xFFFF : Half).toNat = 0xFFFF from rfl]
    split <;> omega

theorem toNat_complement (a : Half) : (~~~ a).toNat = 0xFFFF - a.toNat := BitVec.toNat_not

/-- A value and its complement add up to 0xFFFF without a carry. -/
theorem toNat_add_complement (a : Half) : a.toNat + (~~~ a).toNat = 0xFFFF := by
  have ha := a.isLt
  rw [toNat_complement]
  omega

theorem eq_complement_iff {a c : Half} : c = ~~~ a ↔ a.toNat + c.toNat = 0xFFFF := by
  rw [← BitVec.toNat_inj]
  have h := toNat_add_complement a
  omega

theorem ocadd_complement (a : Half) : ocadd a (~~~ a) = 0xFFFF := by
  apply BitVec.eq_of_toNat_eq
  rw [ocadd_toNat, toNat_add_complement]
  rfl

/-- Two values add up to 0xFFFF exactly when they are complements, or both are 0xFFFF (R98). -/
theorem ocadd_eq_allOnes {a c : Half} : ocadd a c = 0xFFFF ↔ c = ~~~ a ∨ (a = 0xFFFF ∧ c = 0xFFFF) := by
  have ha := a.isLt
  have hc := c.isLt
  rw [eq_complement_iff, ← BitVec.toNat_inj, ← BitVec.toNat_inj, ← BitVec.toNat_inj, ocadd_toNat,
    show (0xFFFF : Half).toNat = 0xFFFF from rfl]
  split <;> omega

end Sys2Proof.Machine
end

section
/-! ### The region sum (40_checksum.md R91 to R95) -/

namespace Sys2Proof.Machine

@[simp] theorem plainSum_nil : plainSum [] = 0 := rfl

@[simp] theorem plainSum_singleton (x : Byte) : plainSum [x] = 256 * x.toNat := toNat_append_byte x 0

@[simp] theorem plainSum_cons_cons (x y : Byte) (bs : List Byte) :
    plainSum (x :: y :: bs) = 256 * x.toNat + y.toNat + plainSum bs := by
  rw [← toNat_append_byte]
  rfl

theorem ocsum_eq_foldl (bs : List Byte) (init : Half) : ocsum bs init = (paddedWords bs).foldl ocadd init := by
  induction bs, init using ocsum.induct with
  | case1 init => rfl
  | case2 init x => rfl
  | case3 init x y bs ih => exact ih

theorem foldl_ocadd_toNat (ws : List Half) (init : Half) :
    (ws.foldl ocadd init).toNat = ocResidue (init.toNat + (ws.map fun w => w.toNat).sum) := by
  induction ws generalizing init with
  | nil => exact (ocResidue_toNat init).symm
  | cons w ws ih =>
    rw [List.foldl_cons, ih, ocadd_toNat_residue, ocResidue_add_left, List.map_cons, List.sum_cons, Nat.add_assoc]

/-- The region sum is the value that stands for the plain sum, with the sum carried in. -/
theorem ocsum_toNat (bs : List Byte) (init : Half) : (ocsum bs init).toNat = ocResidue (init.toNat + plainSum bs) := by
  rw [ocsum_eq_foldl, foldl_ocadd_toNat]
  rfl

/-- It makes no difference whether `init` is added first or last. -/
theorem ocsum_eq_ocadd (bs : List Byte) (init : Half) : ocsum bs init = ocadd (ocsum bs 0) init := by
  have hz : (0 : Half).toNat = 0 := rfl
  apply BitVec.eq_of_toNat_eq
  rw [ocadd_toNat_residue, ocsum_toNat, ocsum_toNat, ocResidue_add_left, hz, Nat.zero_add, Nat.add_comm]

theorem ocsum_right_comm (r1 r2 : List Byte) (init : Half) : ocsum r1 (ocsum r2 init) = ocsum r2 (ocsum r1 init) := by
  rw [ocsum_eq_ocadd r1, ocsum_eq_ocadd r2, ocsum_eq_ocadd r2 (ocsum r1 init), ocsum_eq_ocadd r1 init, ← ocadd_assoc,
    ← ocadd_assoc, ocadd_comm (ocsum r1 0)]

theorem foldl_ocadd_perm {ws ws' : List Half} (h : ws.Perm ws') (init : Half) :
    ws.foldl ocadd init = ws'.foldl ocadd init :=
  h.foldl_eq' (fun a _ b _ c => ocadd_right_comm c a b) init

theorem plainSum_eq_zero {bs : List Byte} : plainSum bs = 0 ↔ ∀ x ∈ bs, x = 0 := by
  have toNat_eq_zero (x : Byte) : x.toNat = 0 ↔ x = 0 := BitVec.toNat_inj (y := 0)
  induction bs using paddedWords.induct with
  | case1 => simp
  | case2 x => simp [toNat_eq_zero]
  | case3 x y bs ih => simp [toNat_eq_zero, ih, and_assoc]

theorem ocsum_eq_zero {bs : List Byte} {init : Half} : ocsum bs init = 0 ↔ init = 0 ∧ ∀ x ∈ bs, x = 0 := by
  rw [← plainSum_eq_zero, ← BitVec.toNat_inj, ← BitVec.toNat_inj, ocsum_toNat]
  exact ocResidue_eq_zero.trans Nat.add_eq_zero_iff

/-- A sum that is not 0 is the only value in 1..0xFFFF congruent to the plain sum. -/
theorem mod_eq_iff_eq_ocsum {bs : List Byte} {init : Half} (h : ocsum bs init ≠ 0) {v : Nat} (h1 : 1 ≤ v)
    (h2 : v ≤ 0xFFFF) : v % 0xFFFF = (init.toNat + plainSum bs) % 0xFFFF ↔ v = (ocsum bs init).toNat := by
  rw [ocsum_toNat]
  refine mod_eq_iff_eq_ocResidue (fun h0 => h (BitVec.eq_of_toNat_eq ?_)) h1 h2
  rw [ocsum_toNat, h0]
  rfl

/-- Settles O24: `ocadd` and `ocsum` take the value that stands for a sum of natural numbers, so the laws are laws of
that value. -/
theorem onesComplementLaws : Obligations.OnesComplementLaws := by
  refine ⟨ocadd_comm, ocadd_assoc, ocadd_zero, ocadd_negativeZero, fun _ _ => ocadd_eq_zero,
    fun a => ⟨ocadd_complement a, ?_⟩, fun bs init => ⟨ocsum_eq_zero, fun h v => mod_eq_iff_eq_ocsum h⟩,
    fun ws ws' init h => foldl_ocadd_perm h init, fun bs init => ⟨ocsum_eq_foldl bs init, ocsum_eq_ocadd bs init⟩,
    ocsum_right_comm⟩
  rw [toNat_add_complement]
  decide

/-! #### The loop over the words -/

@[simp] theorem rd8_cons_zero (x : Byte) (bs : List Byte) : rd8 (x :: bs) 0 = x := rfl

@[simp] theorem rd8_cons_succ (x : Byte) (bs : List Byte) (k : Nat) : rd8 (x :: bs) (k + 1) = rd8 bs k := rfl

/-- The words of R91: the big-endian word at every even index with a byte after it, and the last byte of an odd region
as a high byte. -/
theorem paddedWords_eq (bs : List Byte) :
    paddedWords bs = (List.range (bs.length / 2)).map (fun k => rd16 bs (2 * k)) ++
      if bs.length % 2 = 1 then [rd8 bs (bs.length - 1) ++ 0#8] else [] := by
  induction bs using paddedWords.induct with
  | case1 => rfl
  | case2 x => simp [paddedWords]
  | case3 x y bs ih =>
    have hdiv : (x :: y :: bs).length / 2 = bs.length / 2 + 1 := Nat.add_div_right _ Nat.two_pos
    have hmod : (x :: y :: bs).length % 2 = bs.length % 2 := Nat.add_mod_right _ 2
    have hlast (h : bs.length % 2 = 1) : rd8 (x :: y :: bs) ((x :: y :: bs).length - 1) = rd8 bs (bs.length - 1) := by
      have hlen : (x :: y :: bs).length - 1 = bs.length - 1 + 2 := by
        rw [List.length_cons, List.length_cons]
        omega
      rw [hlen, rd8_cons_succ, rd8_cons_succ]
    rw [paddedWords, ih, hdiv, hmod, List.range_succ_eq_map, List.map_cons, List.map_map, List.cons_append]
    congr 2
    split
    next h => rw [hlast h]
    next => rfl

/-- Settles O21: the loop's words, then the padded byte, are the words that the sum adds. -/
theorem ocsumIsTheLoopOverWords : Obligations.OcsumIsTheLoopOverWords := by
  intro bs init
  rw [ocsum_eq_foldl, paddedWords_eq, List.foldl_append, List.foldl_map]
  split <;> rfl

/-! #### The complement, folding at the end -/

/-- Settles O22: the complement within 16 bits is the distance to 0xFFFF. -/
theorem cksumIsTheComplement : Obligations.CksumIsTheComplement :=
  ⟨fun bs init => toNat_complement (ocsum bs init), rfl⟩

/-- Every round makes the sum smaller until none is left, and keeps the value that stands for it. -/
theorem foldCarries_eq_ocResidue {fuel s : Nat} (h : s ≤ fuel) : foldCarries fuel s = ocResidue s := by
  induction fuel generalizing s with
  | zero =>
    rw [Nat.le_zero.1 h]
    rfl
  | succ fuel ih =>
    rw [foldCarries]
    split
    next hs => exact (ocResidue_of_lt (by omega)).symm
    next hs =>
      rw [ih (by omega), ocResidue_of_pos (by omega), ocResidue_of_pos (by omega)]
      omega

/-- Settles O25: both are the value that stands for the plain sum. -/
theorem deferredFoldingIsEquivalent : Obligations.DeferredFoldingIsEquivalent := fun bs init =>
  (foldCarries_eq_ocResidue (Nat.le_refl _)).trans (ocsum_toNat bs init).symm

/-! #### Several regions -/

/-- An even region leaves the pairing of the bytes after it alone. -/
theorem paddedWords_append {r : List Byte} (h : r.length % 2 = 0) (bs : List Byte) :
    paddedWords (r ++ bs) = paddedWords r ++ paddedWords bs := by
  induction r using paddedWords.induct with
  | case1 => rfl
  | case2 x => cases h
  | case3 x y r ih => exact congrArg ((x ++ y) :: ·) (ih ((Nat.add_mod_right _ 2).symm.trans h))

theorem ocsum_append {r : List Byte} (h : r.length % 2 = 0) (bs : List Byte) (init : Half) :
    ocsum (r ++ bs) init = ocsum bs (ocsum r init) := by
  rw [ocsum_eq_foldl, paddedWords_append h, List.foldl_append, ← ocsum_eq_foldl, ← ocsum_eq_foldl]

theorem threadedSum_append_last {rs : List (List Byte)} (h : ∀ r ∈ rs, r.length % 2 = 0) (last : List Byte)
    (init : Half) : threadedSum (rs ++ [last]) init = ocsum (rs.flatten ++ last) init := by
  induction rs generalizing init with
  | nil => rfl
  | cons r rs ih =>
    obtain ⟨hr, hrs⟩ := List.forall_mem_cons.1 h
    rw [List.flatten_cons, List.append_assoc, ocsum_append hr]
    exact ih hrs (ocsum r init)

/-- Settles O26, by induction on the even regions; the spec's example is evaluated. -/
theorem threadedSumOverRegions : Obligations.ThreadedSumOverRegions :=
  ⟨fun _ last init h => threadedSum_append_last h last init, by decide⟩

end Sys2Proof.Machine
end

section
/-! ### Validation and single-bit errors (40_checksum.md R97 to R99) -/

namespace Sys2Proof.Machine

/-! #### Replacing one byte -/

theorem rd8_set (bs : List Byte) (i k : Nat) (v : Byte) :
    rd8 (bs.set i v) k = if k = i ∧ i < bs.length then v else rd8 bs k := by
  simp only [rd8, List.getD_eq_getElem?_getD, List.getElem?_set]
  by_cases h : i = k
  · subst h
    by_cases hlen : i < bs.length
    · simp [hlen]
    · simp [hlen]
  · simp [h, Ne.symm h]

/-- A byte counts 256 times at an even index, where it is the high byte of its word, and once at an odd index. -/
def byteWeight (i : Nat) : Nat := if i % 2 = 0 then 256 else 1

@[simp] theorem byteWeight_of_even {i : Nat} (h : i % 2 = 0) : byteWeight i = 256 := if_pos h

@[simp] theorem byteWeight_of_odd {i : Nat} (h : i % 2 = 1) : byteWeight i = 1 := if_neg (by omega)

@[simp] theorem byteWeight_add_two (i : Nat) : byteWeight (i + 2) = byteWeight i := by
  rw [byteWeight, byteWeight, Nat.add_mod_right]

theorem byteWeight_bounds (i : Nat) : 1 ≤ byteWeight i ∧ byteWeight i ≤ 256 := by
  unfold byteWeight
  split <;> decide

/-- Replacing a byte changes the plain sum by the change of the byte times its weight. -/
theorem plainSum_set {bs : List Byte} {i : Nat} (h : i < bs.length) (v : Byte) :
    plainSum (bs.set i v) + byteWeight i * (rd8 bs i).toNat = plainSum bs + byteWeight i * v.toNat := by
  induction bs using paddedWords.induct generalizing i with
  | case1 => cases h
  | case2 x =>
    obtain rfl : i = 0 := Nat.lt_one_iff.1 h
    simp only [List.set_cons_zero, plainSum_singleton, rd8_cons_zero, byteWeight_of_even, Nat.add_comm]
  | case3 x y bs ih =>
    rcases i with _ | _ | i
    · simp only [List.set_cons_zero, plainSum_cons_cons, rd8_cons_zero, byteWeight_of_even]
      omega
    · simp only [List.set_cons_succ, List.set_cons_zero, plainSum_cons_cons, rd8_cons_succ, rd8_cons_zero,
        byteWeight_of_odd]
      omega
    · have hi : i < bs.length := Nat.lt_of_succ_lt_succ (Nat.lt_of_succ_lt_succ h)
      simp only [List.set_cons_succ, plainSum_cons_cons, rd8_cons_succ, byteWeight_add_two, Nat.add_assoc]
      rw [ih hi]

/-! #### The field replaced by zeros -/

section
variable {bs : List Byte} {init : Half} {f : Nat}

theorem zeroField_length (bs : List Byte) (f : Nat) : (zeroField bs f).length = bs.length := by
  simp only [zeroField, List.length_set]

theorem rd8_zeroField (hlen : f + 2 ≤ bs.length) (k : Nat) :
    rd8 (zeroField bs f) k = if k = f ∨ k = f + 1 then 0 else rd8 bs k := by
  have h0 : f < bs.length := by omega
  have h1 : f + 1 < bs.length := by omega
  simp only [zeroField, rd8_set, List.length_set, h0, h1, and_true]
  by_cases hk : k = f <;> by_cases hk' : k = f + 1 <;> simp [hk, hk']

/-- The field is one whole word of the plain sum. -/
theorem plainSum_zeroField (hf : f % 2 = 0) (hlen : f + 2 ≤ bs.length) :
    plainSum (zeroField bs f) + (rd16 bs f).toNat = plainSum bs := by
  have h1 : f + 1 < (bs.set f 0).length := by
    rw [List.length_set]
    omega
  have hz : (0 : Byte).toNat = 0 := rfl
  have e0 := plainSum_set (bs := bs) (i := f) (by omega) 0
  have e1 := plainSum_set h1 0
  have hrd : rd8 (bs.set f 0) (f + 1) = rd8 bs (f + 1) := (rd8_set ..).trans (if_neg (by omega))
  rw [byteWeight_of_even hf, hz] at e0
  rw [byteWeight_of_odd (by omega), hrd, hz] at e1
  rw [rd16, toNat_append_byte, zeroField]
  omega

/-- The sum over all bytes is the sum with the field zeroed, and the field (R98). -/
theorem ocsum_eq_ocadd_field (hf : f % 2 = 0) (hlen : f + 2 ≤ bs.length) :
    ocsum bs init = ocadd (ocsum (zeroField bs f) init) (rd16 bs f) := by
  apply BitVec.eq_of_toNat_eq
  rw [ocadd_toNat_residue, ocsum_toNat, ocsum_toNat, ocResidue_add_left, Nat.add_assoc, plainSum_zeroField hf hlen]

/-- Mode 0: recompute and compare. -/
theorem csumValid_zero : csumValid bs init f 0 = true ↔ rd16 bs f = ~~~ ocsum (zeroField bs f) init := by
  rw [csumValid, if_pos rfl, beq_iff_eq, cksum, eq_comm]

/-- Mode 1: sum to all ones. -/
theorem csumValid_one : csumValid bs init f 1 = true ↔ ocsum bs init = 0xFFFF := by
  rw [csumValid, if_neg (by decide), beq_iff_eq]

theorem csumValid_one_iff_ocadd (hf : f % 2 = 0) (hlen : f + 2 ≤ bs.length) :
    csumValid bs init f 1 = true ↔ ocadd (ocsum (zeroField bs f) init) (rd16 bs f) = 0xFFFF := by
  rw [csumValid_one, ocsum_eq_ocadd_field hf hlen]

end

/-- Settles O23: the region with its field zeroed is the one that mode 0 sums. -/
theorem validationHasTwoFormulations : Obligations.ValidationHasTwoFormulations := fun bs _ f _ hlen =>
  ⟨⟨zeroField bs f, zeroField_length bs f, rd8_zeroField hlen, csumValid_zero.trans eq_complement_iff⟩, csumValid_one⟩

/-- Settles O27: two values that add up to 0xFFFF are complements, or both are 0xFFFF, which are not complements. -/
theorem validationModesDifferAtOnePoint : Obligations.ValidationModesDifferAtOnePoint := by
  intro bs init f hf hlen
  refine ⟨csumValid_zero, csumValid_one_iff_ocadd hf hlen, ?_, ?_⟩
  · rw [csumValid_zero, csumValid_one_iff_ocadd hf hlen, ocadd_eq_allOnes]
    exact Or.inl
  · rw [← Bool.not_eq_true, csumValid_zero, csumValid_one_iff_ocadd hf hlen, ocadd_eq_allOnes]
    refine ⟨fun ⟨h, hne⟩ => h.resolve_left hne, fun h => ⟨.inr h, ?_⟩⟩
    rw [h.1, h.2]
    decide

/-! #### A single-bit flip -/

/-- Flipping a bit that is 0 adds its value. -/
theorem toNat_xor_twoPow_of_clear {x : Byte} {k : Nat} (hk : k < 8) (h : x.getLsbD k = false) :
    (x ^^^ BitVec.twoPow 8 k).toNat = x.toNat + 2 ^ k := by
  have hand : x &&& BitVec.twoPow 8 k = 0#8 := by
    rw [BitVec.and_twoPow, h]
    rfl
  have hxor : x ^^^ BitVec.twoPow 8 k = x + BitVec.twoPow 8 k := by
    rw [BitVec.add_eq_or_of_and_eq_zero _ _ hand]
    apply BitVec.eq_of_getLsbD_eq
    intro j hj
    rw [BitVec.getLsbD_xor, BitVec.getLsbD_or, BitVec.getLsbD_twoPow]
    rcases eq_or_ne k j with rfl | hne
    · simp [h]
    · simp [hne]
  rw [hxor, BitVec.toNat_add_of_and_eq_zero hand, BitVec.toNat_twoPow_of_lt hk]

/-- Flipping a bit adds its value when it is 0, and subtracts it when it is 1. -/
theorem toNat_xor_twoPow (x : Byte) {k : Nat} (hk : k < 8) :
    (x ^^^ BitVec.twoPow 8 k).toNat = x.toNat + 2 ^ k ∨ x.toNat = (x ^^^ BitVec.twoPow 8 k).toNat + 2 ^ k := by
  cases h : x.getLsbD k with
  | false => exact .inl (toNat_xor_twoPow_of_clear hk h)
  | true =>
    have hclear : (x ^^^ BitVec.twoPow 8 k).getLsbD k = false := by
      simp [h, hk]
    have hback := toNat_xor_twoPow_of_clear hk hclear
    rw [BitVec.xor_assoc, BitVec.xor_self, BitVec.xor_zero] at hback
    exact .inr hback

/-- A flip changes the plain sum by a power of 2 up to 0x8000 (R99). -/
theorem plainSum_flipBit {bs : List Byte} {i k : Nat} (h : i < bs.length) (hk : k < 8) :
    ∃ d, 1 ≤ d ∧ d ≤ 0x8000 ∧
      (plainSum (flipBit bs i k) = plainSum bs + d ∨ plainSum bs = plainSum (flipBit bs i k) + d) := by
  have hset := plainSum_set h (rd8 bs i ^^^ BitVec.twoPow 8 k)
  obtain ⟨hw, hw'⟩ := byteWeight_bounds i
  have hpow : 2 ^ k ≤ 2 ^ 7 := Nat.pow_le_pow_right Nat.two_pos (Nat.le_of_lt_succ hk)
  refine ⟨byteWeight i * 2 ^ k, Nat.mul_pos hw (Nat.two_pow_pos k), Nat.mul_le_mul hw' hpow, ?_⟩
  rw [flipBit]
  rcases toNat_xor_twoPow (rd8 bs i) hk with hx | hx
  · rw [hx, Nat.mul_add] at hset
    exact .inl (by omega)
  · rw [hx, Nat.mul_add] at hset
    exact .inr (by omega)

/-- Such a change is no multiple of 0xFFFF. -/
theorem ocsum_flipBit_ne {bs : List Byte} {i k : Nat} (h : i < bs.length) (hk : k < 8) (init : Half) :
    ocsum (flipBit bs i k) init ≠ ocsum bs init := by
  intro heq
  have hres := congrArg (fun a => a.toNat % 0xFFFF) heq
  simp only [ocsum_toNat, ocResidue_mod] at hres
  obtain ⟨d, h1, h2, hd | hd⟩ := plainSum_flipBit h hk
  · rw [hd] at hres
    omega
  · rw [hd] at hres
    omega

section
variable {bs : List Byte} {f i k : Nat}

/-- A flip outside the field leaves the field alone. -/
theorem rd16_flipBit (h : i ≠ f) (h' : i ≠ f + 1) : rd16 (flipBit bs i k) f = rd16 bs f := by
  simp only [rd16, flipBit, rd8_set, h.symm, h'.symm, false_and, if_false]

theorem zeroField_flipBit (hlen : f + 2 ≤ bs.length) (h : i ≠ f) (h' : i ≠ f + 1) :
    zeroField (flipBit bs i k) f = flipBit (zeroField bs f) i k := by
  rw [flipBit, flipBit, rd8_zeroField hlen, if_neg (not_or.2 ⟨h, h'⟩), zeroField, zeroField, List.set_comm _ _ h,
    List.set_comm _ _ h']

end

/-- Settles O28: mode 0 compares an unchanged field with a changed sum, and mode 1 a changed sum with 0xFFFF. -/
theorem singleBitFlipIsDetected : Obligations.SingleBitFlipIsDetected := by
  intro bs init f i k mode hf hlen hi hk h h'
  refine ⟨ocsum_flipBit_ne hi hk init, fun hv => Bool.eq_false_iff.2 fun hv' => ?_⟩
  obtain rfl | rfl : mode = 0 ∨ mode = 1 := mode.eq_zero_or_eq_one
  · rw [csumValid_zero] at hv hv'
    rw [rd16_flipBit h h', zeroField_flipBit hlen h h', hv] at hv'
    exact ocsum_flipBit_ne (hi.trans_eq (zeroField_length bs f).symm) hk init (BitVec.not_inj.1 hv').symm
  · rw [csumValid_one] at hv hv'
    exact ocsum_flipBit_ne hi hk init (hv'.trans hv.symm)

end Sys2Proof.Machine
end

section
/-! ### The encoding of a command by its class (30_encoding.md R61 to R63) -/

namespace Sys2Proof

open Machine

/-- The buffer that a `BSEL` code selects is the one that its number selects. -/
theorem Buf.ofCode_eq_bufNumbered (c : BitVec 2) : Buf.ofCode c = bufNumbered c.toNat := by
  revert c; decide

/-- The command of a class for the selected buffer, where R63 permits it. -/
def Form.commandFor : Form → Buf → Option Instr
  | .region mk => fun b => some (mk b)
  | .payOnly i => onlyWith .pay i
  | .noRegion i => onlyWith .pkt i

theorem Form.select_eq (f : Form) (c : BitVec 2) :
    f.select c = (f.commandFor (Buf.ofCode c)).elim (.error .fieldReserved) .ok := by
  obtain ⟨b, rfl⟩ : ∃ b : Buf, b.code = c := ⟨_, Buf.code_ofCode c⟩
  cases f with
  | region mk => rfl
  | payOnly i | noRegion i => cases b <;> rfl

/-- The opcode map gives the encoding of every command. -/
theorem commandEncoding_of_formOf {opc : Byte} {f : Form} (h : formOf opc = some f) :
    CommandEncoding opc.toNat f.commandFor := by
  intro w hw
  obtain rfl : w.extractLsb' 0 8 = opc := BitVec.eq_of_toNat_eq ((toNat_opc w).trans hw)
  rcases decode_cases w with ⟨hf, -⟩ | ⟨f', hf, hd⟩
  · cases h.symm.trans hf
  · cases h.symm.trans hf
    rw [ne_eq, rsv_eq_zero] at hd
    rcases hd with ⟨hrsv, e⟩ | ⟨hrsv, e⟩
    · rw [e, if_neg hrsv]
    · rw [e, if_pos hrsv, Form.select_eq, Buf.ofCode_eq_bufNumbered, toNat_bsel]
      cases f.commandFor (bufNumbered (wordBsel w)) <;> rfl

end Sys2Proof
end

section
/-! ### `CSUM.ACC` and `CSUM.FIN` (40_checksum.md R100, R101) -/

namespace Sys2Proof.Machine

theorem exec_of_rejected {i : Instr} {s : State} {c : Cause} (h : effectOf i s = .error c) :
    exec i s = .next { s with status := rejectedStatus c } := by
  rw [exec_eq_conclude, h, State.conclude_error]

section
variable {s : State} {b : Buf}

theorem exec_csumAcc_inside (h : s.regionInside b) :
    exec (.csumAcc b) s = .next { s with
      acc := ocsum (s.memRead b s.off.toNat s.len.toNat) s.acc
      status := 0 } := by
  simp only [exec_eq_conclude, effectOf, csumAccEffect, State.region_inside h, State.conclude_ok, doneStatus_false]

theorem exec_csumAcc_outside (h : ¬s.regionInside b) :
    exec (.csumAcc b) s = .next { s with status := rejectedStatus .regionRange } :=
  exec_of_rejected (by simp only [effectOf, csumAccEffect, State.region_outside h])

theorem exec_csumFin_outside (h : ¬s.regionInside b) :
    exec (.csumFin b) s = .next { s with status := rejectedStatus .regionRange } :=
  exec_of_rejected (by simp only [effectOf, csumFinEffect, State.region_outside h])

end

/-- Settles O29: the region operand is the one check, and `ACC` the one register written beside `STATUS`. -/
theorem csumAccAddsTheRegionToAcc : Obligations.CsumAccAddsTheRegionToAcc :=
  ⟨commandEncoding_of_formOf (opc := 0x01) (f := .region .csumAcc) rfl,
    fun _ _ => ⟨exec_csumAcc_inside, fun h => exec_csumAcc_outside (Nat.not_le.2 h)⟩⟩

/-- Settles O30: as for `CSUM.ACC`, with the complement of the new `ACC` in `RESULT`. -/
theorem csumFinDeliversTheChecksum : Obligations.CsumFinDeliversTheChecksum :=
  ⟨commandEncoding_of_formOf (opc := 0x02) (f := .region .csumFin) rfl,
    fun _ _ => ⟨exec_csumFin_inside, fun h => exec_csumFin_outside (Nat.not_le.2 h)⟩⟩

end Sys2Proof.Machine
end

section
/-! ### Bytes read and written back (20_memory.md R41, R43) -/

namespace Sys2Proof.Machine

/-- Serialising the half word that two bytes make up gives the two bytes. -/
theorem be16_rd16 (bs : List Byte) (i : Nat) : be16 (rd16 bs i) = [rd8 bs i, rd8 bs (i + 1)] := by
  rw [be16, rd16, BitVec.extractLsb'_append_eq_left, BitVec.extractLsb'_append_eq_right]

theorem be32_append_half (x y : Half) : be32 (x ++ y) = be16 x ++ be16 y := by
  rw [be32, BitVec.extractLsb'_append_eq_of_le (by decide), BitVec.extractLsb'_append_eq_of_le (by decide),
    BitVec.extractLsb'_append_eq_of_add_le (by decide), BitVec.extractLsb'_append_eq_of_add_le (by decide)]
  rfl

/-- Serialising the word that four bytes make up gives the four bytes. -/
theorem be32_rd32 (bs : List Byte) (i : Nat) :
    be32 (rd32 bs i) = [rd8 bs i, rd8 bs (i + 1), rd8 bs (i + 2), rd8 bs (i + 3)] := by
  rw [rd32, be32_append_half, be16_rd16, be16_rd16]
  rfl

theorem map_rd8_range (bs : List Byte) : (List.range bs.length).map (rd8 bs) = bs := by
  apply List.ext_getElem
  · rw [List.length_map, List.length_range]
  · intro k _ hk
    rw [List.getElem_map, List.getElem_range, rd8, List.getD_eq_getElem _ _ hk]

/-- A run from the start of a store on: the stored bytes, then what was there before. -/
theorem State.memRead_memWrite_append (s : State) (b : Buf) (off : Nat) (bs : List Byte) (n : Nat) :
    (s.memWrite b off bs).memRead b off (bs.length + n) = bs ++ s.memRead b (off + bs.length) n := by
  rw [State.memRead_append, State.memRead_memWrite]
  congr 1
  exact State.memRead_congr fun k _ => s.byte_memWrite_outside b off bs (.inr (.inr (Nat.le_add_right _ k)))

/-- Storing what a run already holds changes no byte. -/
theorem State.byte_memWrite_memRead (s : State) (b : Buf) (off n : Nat) (b' : Buf) (a : Nat) :
    (s.memWrite b off (s.memRead b off n)).byte b' a = s.byte b' a := by
  rw [State.byte_memWrite, State.memRead_length]
  split
  next h =>
    obtain ⟨rfl, hle, hlt⟩ := h
    rw [State.rd8_memRead _ _ _ _ _ (by omega), Nat.add_sub_cancel' hle]
  next => rfl

end Sys2Proof.Machine
end

section
/-! ### The IP header's wire format (30_encoding.md R70, R71; 41_ip_codec.md R120, R121) -/

namespace Sys2Proof.Machine

/-- The fields read back from a serialised header, whatever bytes follow it. -/
theorem ipFields_ipSer_append (h : IpHeader) (c : Half) (rest : List Byte) : ipFields (ipSer h c ++ rest) = h := by
  obtain ⟨ver, ihl, tos, tlen, ident, frag, ttl, proto, src, dst⟩ := h
  rw [ipFields, IpHeader.mk.injEq]
  exact ⟨highNibble_append ver ihl, lowNibble_append ver ihl, rfl, be16_append tlen, be16_append ident,
    be16_append frag, rfl, rfl, be32_append src, be32_append dst⟩

/-- The checksum field read back from a serialised header, whatever bytes follow it. -/
theorem rd16_ipSer_append (h : IpHeader) (c : Half) (rest : List Byte) : rd16 (ipSer h c ++ rest) 10 = c :=
  be16_append c

/-- The fields of 20 bytes, serialised, are the 20 bytes. -/
theorem ipSer_ipFields {bs : List Byte} (h : bs.length = 20) : ipSer (ipFields bs) (rd16 bs 10) = bs := by
  conv_rhs => rw [← map_rd8_range bs, h]
  simp only [ipSer, ipFields, be16_rd16, be32_rd32, nibbles_append]
  rfl

/-- Settles O32: the fields stand one after the other, each big-endian, and each is read where it stands. -/
theorem ipHeaderWireFormat : Obligations.IpHeaderWireFormat := fun h c =>
  ⟨rfl, toNat_append_nibble h.ver h.ihl, rfl, be16_toNat h.tlen, be16_toNat h.ident, be16_toNat h.frag, rfl, rfl,
    be16_toNat c, be32_toNat h.src, be32_toNat h.dst, ipFields_ipSer_append h c [], rd16_ipSer_append h c []⟩

/-- The checks of `ip_parse` on a serialised header, whatever bytes follow it; 20 bytes are never too short. -/
theorem ipVerdict_ipSer_append (h : IpHeader) (c : Half) (rest : List Byte) :
    ipVerdict (ipSer h c ++ rest) =
      if h.ver ≠ 4 then 0x0022
      else if h.ihl.toNat < 5 then 0x0032
      else if 20 + rest.length < 4 * h.ihl.toNat then 0x0042
      else 0 := by
  have hlong : ¬(ipSer h c ++ rest).length < 20 := by
    rw [List.length_append, ipSer_length]
    omega
  rw [ipVerdict, if_neg hlong, ← ipFields_ihl, List.length_append, ipSer_length]
  simp only [ne_eq, ← ipFields_ver, ipFields_ipSer_append]

end Sys2Proof.Machine
end

section
/-! ### `IP.ENC`, `IP.DEC`, `IP.CSUM` and `IP.VFY` (41_ip_codec.md R123, R124, R126, R127) -/

namespace Sys2Proof.Machine

section
variable {s : State} {b : Buf}

theorem exec_ipEnc_inside (h : s.headerInside b) :
    exec (.ipEnc b) s = .next { s.memWrite b s.off.toNat (ipSer s.ip s.ipCsum) with status := 0 } := by
  simp only [exec_eq_conclude, effectOf, ipEncEffect, State.headerDest_inside h, State.conclude_ok, doneStatus_false]

theorem exec_ipEnc_outside (h : ¬s.headerInside b) :
    exec (.ipEnc b) s = .next { s with status := rejectedStatus .regionRange } :=
  exec_of_rejected (by simp only [effectOf, ipEncEffect, State.headerDest_outside h])

theorem exec_ipDec_accepted (h : s.regionInside b) (hv : ipVerdict (s.memRead b s.off.toNat s.len.toNat) = 0) :
    let bs := s.memRead b s.off.toNat s.len.toNat
    exec (.ipDec b) s = .next { s with
      ip := ipFields bs
      ipCsum := rd16 bs 10
      nextOff := BitVec.ofNat 16 (4 * (ipFields bs).ihl.toNat)
      status := 0 } := by
  simp only [exec_eq_conclude, effectOf, ipDecEffect, State.region_inside h, ipParse_ok hv, ipHeaderLen,
    State.conclude_ok, doneStatus_false]

theorem exec_ipDec_rejected (h : s.regionInside b) (hv : ipVerdict (s.memRead b s.off.toNat s.len.toNat) ≠ 0) :
    exec (.ipDec b) s = .next { s with status := ipVerdict (s.memRead b s.off.toNat s.len.toNat) } := by
  obtain ⟨c, hparse, hstatus⟩ := ipParse_error hv
  rw [← hstatus]
  exact exec_of_rejected (by simp only [effectOf, ipDecEffect, State.region_inside h, hparse])

theorem exec_ipDec_outside (h : ¬s.regionInside b) :
    exec (.ipDec b) s = .next { s with status := rejectedStatus .regionRange } :=
  exec_of_rejected (by simp only [effectOf, ipDecEffect, State.region_outside h])

theorem exec_ipVfy_inside (h : s.regionInside b) (hlen : 20 ≤ s.len.toNat) :
    let ok := csumValid (s.memRead b s.off.toNat s.len.toNat) 0 10 s.cfg
    exec (.ipVfy b) s = .next { s with valid := setIpOk s.valid ok, status := vfyStatus ok } := by
  simp only [exec_eq_conclude, effectOf, ipVfyEffect, State.region_inside h, State.memRead_length,
    if_neg (Nat.not_lt.2 hlen), State.conclude_ok, doneStatus_not]

theorem exec_ipVfy_short (h : s.regionInside b) (hlen : s.len.toNat < 20) :
    exec (.ipVfy b) s = .next { s with status := rejectedStatus .ipShort } :=
  exec_of_rejected (by
    simp only [effectOf, ipVfyEffect, State.region_inside h, State.memRead_length, if_pos hlen])

theorem exec_ipVfy_outside (h : ¬s.regionInside b) :
    exec (.ipVfy b) s = .next { s with status := rejectedStatus .regionRange } :=
  exec_of_rejected (by simp only [effectOf, ipVfyEffect, State.region_outside h])

end

/-- Bit 0 of `VALID` is written, bits 1 and 2 stay (10_state.md R18). -/
theorem setIpOk_eq_mask (v : BitVec 3) (ok : Bool) : setIpOk v ok = (v &&& 6) ||| (if ok then 1 else 0) := by
  revert v ok; decide

/-- Settles O33: the destination is the one check, and the header's bytes are the one store. -/
theorem ipEncStoresTheHeader : Obligations.IpEncStoresTheHeader := by
  refine ⟨commandEncoding_of_formOf (opc := 0x10) (f := .region .ipEnc) rfl,
    fun b s => ⟨fun h => ?_, fun h => exec_ipEnc_outside (Nat.not_le.2 h)⟩⟩
  exact ⟨_, exec_ipEnc_inside h, rfl, storesAt_memWrite s b s.off.toNat (ipSer s.ip s.ipCsum)⟩

/-- Settles O34: the bounds come first, then the checks of `ip_parse`, whose verdict is the new `STATUS`. -/
theorem ipDecLoadsTheHeader : Obligations.IpDecLoadsTheHeader := by
  refine ⟨commandEncoding_of_formOf (opc := 0x11) (f := .region .ipDec) rfl,
    fun b s => ⟨fun h hv => ?_, exec_ipDec_rejected, fun h => exec_ipDec_outside (Nat.not_le.2 h)⟩⟩
  rw [← ipFields_ihl]
  exact exec_ipDec_accepted h hv

/-- Settles O35: the command checks nothing and completes with the complement of the sum. -/
theorem ipCsumComputesTheHeaderChecksum : Obligations.IpCsumComputesTheHeaderChecksum :=
  ⟨commandEncoding_of_formOf (opc := 0x12) (f := .noRegion .ipCsum) rfl, fun _ => rfl⟩

/-- Settles O36: the bounds, then the length, are checked; a failed validation is a completion with `MISMATCH`. -/
theorem ipVfyReportsTheVerdict : Obligations.IpVfyReportsTheVerdict := by
  refine ⟨commandEncoding_of_formOf (opc := 0x13) (f := .region .ipVfy) rfl,
    fun b s => ⟨fun h hlen => ?_, exec_ipVfy_short, fun h => exec_ipVfy_outside (Nat.not_le.2 h)⟩⟩
  rw [← setIpOk_eq_mask]
  exact exec_ipVfy_inside h hlen

end Sys2Proof.Machine
end

section
/-! ### The IP header's round trip (41_ip_codec.md R125) -/

namespace Sys2Proof.Machine

section
variable {s : State} {b : Buf} {rest : List Byte}

/-- Decoding a region that begins with the serialised IP registers loads the values they have already. -/
theorem exec_ipDec_of_ipSer_accepted (h : s.regionInside b)
    (hbs : s.memRead b s.off.toNat s.len.toNat = ipSer s.ip s.ipCsum ++ rest)
    (hv : ipVerdict (ipSer s.ip s.ipCsum ++ rest) = 0) :
    exec (.ipDec b) s = .next { s with nextOff := BitVec.ofNat 16 (4 * s.ip.ihl.toNat), status := 0 } := by
  rw [exec_ipDec_accepted h (hbs ▸ hv), hbs, ipFields_ipSer_append, rd16_ipSer_append]

theorem exec_ipDec_of_ipSer_rejected (h : s.regionInside b)
    (hbs : s.memRead b s.off.toNat s.len.toNat = ipSer s.ip s.ipCsum ++ rest)
    {st : BitVec 13} (hv : ipVerdict (ipSer s.ip s.ipCsum ++ rest) = st) (hst : st ≠ 0) :
    exec (.ipDec b) s = .next { s with status := st } := by
  subst hv
  rw [exec_ipDec_rejected h (hbs ▸ hst), hbs]

/-- Decoding 20 bytes and storing what was decoded puts the same bytes back. -/
theorem ipDec_ipEnc_reproduces (hin : s.headerInside b) (hlen : s.len = 20)
    (hv : ipVerdict (s.memRead b s.off.toNat 20) = 0) :
    ∃ t u, exec (.ipDec b) s = .next t ∧ exec (.ipEnc b) t = .next u ∧ ∀ b' a, u.byte b' a = s.byte b' a := by
  have hlen' : s.len.toNat = 20 := by
    rw [hlen]
    rfl
  rw [← hlen'] at hv
  have hreg : s.regionInside b := (congrArg (s.off.toNat + ·) hlen').trans_le hin
  refine ⟨_, _, exec_ipDec_accepted hreg hv, exec_ipEnc_inside hin, fun b' a => ?_⟩
  dsimp only
  rw [ipSer_ipFields ((State.memRead_length ..).trans hlen')]
  exact s.byte_memWrite_memRead b s.off.toNat s.len.toNat b' a

end

/-- The state after `IP.ENC` once the host has set `LEN` to `n`. -/
def State.ipEncoded (s : State) (b : Buf) (n : Half) : State :=
  { s.memWrite b s.off.toNat (ipSer s.ip s.ipCsum) with status := 0, len := n }

/-- The region then holds the serialised registers and after them what it held before. -/
theorem State.ipEncoded_memRead (s : State) (b : Buf) {n : Half} (hn : 20 ≤ n.toNat) :
    (s.ipEncoded b n).memRead b s.off.toNat n.toNat =
      ipSer s.ip s.ipCsum ++ s.memRead b (s.off.toNat + 20) (n.toNat - 20) := by
  have h := s.memRead_memWrite_append b s.off.toNat (ipSer s.ip s.ipCsum) (n.toNat - 20)
  rw [ipSer_length, Nat.add_sub_cancel' hn] at h
  rw [← h]
  exact State.memRead_congr fun _ _ => rfl

/-- Settles O37: after `IP.ENC` the verdict on the region is the verdict on the registers. -/
theorem ipHeaderRoundTrip : Obligations.IpHeaderRoundTrip := by
  refine ⟨fun b s n hin hn hreg => ?_, fun _ _ => ipDec_ipEnc_reproduces⟩
  have hbs := s.ipEncoded_memRead b hn
  have hv := ipVerdict_ipSer_append s.ip s.ipCsum (s.memRead b (s.off.toNat + 20) (n.toNat - 20))
  rw [State.memRead_length, Nat.add_sub_cancel' hn] at hv
  refine ⟨_, exec_ipEnc_inside hin, rfl, rfl, fun hver hihl hfit => ?_, fun hver hshort => ?_, fun hver => ?_,
    fun hver hihl => ?_⟩
  · rw [if_neg (not_not_intro hver), if_neg (Nat.not_lt.2 hihl), if_neg (Nat.not_lt.2 hfit)] at hv
    exact exec_ipDec_of_ipSer_accepted (s := s.ipEncoded b n) hreg hbs hv
  · rw [if_neg (not_not_intro hver), if_neg (by omega), if_pos hshort] at hv
    exact exec_ipDec_of_ipSer_rejected (s := s.ipEncoded b n) hreg hbs hv (by decide)
  · rw [if_pos hver] at hv
    exact exec_ipDec_of_ipSer_rejected (s := s.ipEncoded b n) hreg hbs hv (by decide)
  · rw [if_neg (not_not_intro hver), if_pos hihl] at hv
    exact exec_ipDec_of_ipSer_rejected (s := s.ipEncoded b n) hreg hbs hv (by decide)

end Sys2Proof.Machine
end

section
/-! ### The TCP header's wire format (30_encoding.md R72, R73; 42_tcp_codec.md R140, R141) -/

namespace Sys2Proof.Machine

/-- The fields read back from a serialised header, whatever bytes follow it. -/
theorem tcpFields_tcpSer_append (h : TcpHeader) (c : Half) (rest : List Byte) : tcpFields (tcpSer h c ++ rest) = h := by
  obtain ⟨sport, dport, seq, ack, doff, rsvd, flags, win, urg⟩ := h
  rw [tcpFields, TcpHeader.mk.injEq]
  exact ⟨be16_append sport, be16_append dport, be32_append seq, be32_append ack, highNibble_append doff rsvd,
    lowNibble_append doff rsvd, rfl, be16_append win, be16_append urg⟩

/-- The checksum field read back from a serialised header, whatever bytes follow it. -/
theorem rd16_tcpSer_append (h : TcpHeader) (c : Half) (rest : List Byte) : rd16 (tcpSer h c ++ rest) 16 = c :=
  be16_append c

/-- The fields of 20 bytes, serialised, are the 20 bytes. -/
theorem tcpSer_tcpFields {bs : List Byte} (h : bs.length = 20) : tcpSer (tcpFields bs) (rd16 bs 16) = bs := by
  conv_rhs => rw [← map_rd8_range bs, h]
  simp only [tcpSer, tcpFields, be16_rd16, be32_rd32, nibbles_append]
  rfl

/-- Settles O38: the fields stand one after the other, each big-endian, and each is read where it stands. -/
theorem tcpHeaderWireFormat : Obligations.TcpHeaderWireFormat := fun h c =>
  ⟨rfl, be16_toNat h.sport, be16_toNat h.dport, be32_toNat h.seq, be32_toNat h.ack, toNat_append_nibble h.doff h.rsvd,
    rfl, be16_toNat h.win, be16_toNat c, be16_toNat h.urg, tcpFields_tcpSer_append h c [], rd16_tcpSer_append h c []⟩

/-- The checks of `tcp_parse` on a serialised header, whatever bytes follow it; 20 bytes are never too short. -/
theorem tcpVerdict_tcpSer_append (h : TcpHeader) (c : Half) (rest : List Byte) :
    tcpVerdict (tcpSer h c ++ rest) =
      if h.doff.toNat < 5 then 0x0132
      else if 20 + rest.length < 4 * h.doff.toNat then 0x0142
      else 0 := by
  have hlong : ¬(tcpSer h c ++ rest).length < 20 := by
    rw [List.length_append, tcpSer_length]
    omega
  rw [tcpVerdict, if_neg hlong, ← tcpFields_doff, tcpFields_tcpSer_append, List.length_append, tcpSer_length]

end Sys2Proof.Machine
end

section
/-! ### The flag string (30_encoding.md R75, 42_tcp_codec.md R155) -/

namespace Sys2Proof.Machine

/-- The ASCII bytes of a text. -/
def asciiBytes (cs : List Char) : List Byte := cs.map fun ch => BitVec.ofNat 8 ch.toNat

/-- The six names in their fixed order, each with its mask in `TCP_FLAGS`, as the statement of R155 writes them. -/
def flagMasks : List (String × Byte) :=
  [("ACK", 0x10#8), ("FIN", 0x01#8), ("PSH", 0x08#8), ("RST", 0x04#8), ("SYN", 0x02#8), ("URG", 0x20#8)]

/-- The names, with their masks, of the flags that are set in `f`. -/
def setFlags (f : Byte) : List (String × Byte) := flagMasks.filter fun p => f &&& p.2 != 0

/-- The model's table is the table of masks, with bit numbers for masks and bytes for text. -/
theorem flagNames_eq : flagNames = flagMasks.map fun p => (p.2.toNat.log2, asciiBytes p.1.toList) := rfl

/-- A mask of one bit tests that bit. -/
theorem and_twoPow_bne_zero (f : Byte) {k : Nat} (hk : k < 8) : (f &&& BitVec.twoPow 8 k != 0) = f.getLsbD k := by
  rw [BitVec.and_twoPow]
  cases f.getLsbD k with
  | false => rfl
  | true => revert k; decide

theorem flagMasks_twoPow : ∀ p ∈ flagMasks, p.2.toNat.log2 < 8 ∧ p.2 = BitVec.twoPow 8 p.2.toNat.log2 := by decide

theorem flagMasks_name_length : ∀ p ∈ flagMasks, (asciiBytes p.1.toList).length = 3 := by decide

/-- Bits 7:6 have no name. -/
theorem flagMasks_and_named : ∀ p ∈ flagMasks, 0x3F &&& p.2 = p.2 := by decide

/-- The model's string joins the names of the set flags. -/
theorem flagsStr_eq_joinPlus (f : Byte) :
    flagsStr f = joinPlus (((setFlags f).map fun p => p.1.toList).map asciiBytes) := by
  rw [flagsStr, flagNames_eq, List.filter_map, List.map_map, List.map_map, setFlags]
  congr 2
  refine List.filter_congr fun p hp => ?_
  obtain ⟨hk, hmask⟩ := flagMasks_twoPow p hp
  conv_rhs => rw [hmask]
  exact (and_twoPow_bne_zero f hk).symm

theorem joinPlus_asciiBytes : ∀ ns : List (List Char),
    joinPlus (ns.map asciiBytes) = asciiBytes (List.intercalate ['+'] ns)
  | [] => rfl
  | [n] => by simp [joinPlus, List.intercalate]
  | n :: m :: ns => by
    rw [List.map_cons, List.map_cons, joinPlus, ← List.map_cons, joinPlus_asciiBytes (m :: ns),
      List.intercalate_cons_cons, List.append_assoc]
    simp [asciiBytes]

/-- Every name but the first brings its separator. -/
theorem joinPlus_length : ∀ {ns : List (List Byte)}, (∀ n ∈ ns, n.length = 3) →
    (joinPlus ns).length = 4 * ns.length - 1
  | [], _ => rfl
  | [n], h => h n (List.mem_singleton_self n)
  | n :: m :: ns, h => by
    have hn : n.length = 3 := h n List.mem_cons_self
    have ih := joinPlus_length fun x hx => h x (List.mem_cons_of_mem n hx)
    simp only [joinPlus, List.length_append, List.length_cons] at ih ⊢
    omega

theorem setFlags_and_named (f : Byte) : setFlags (f &&& 0x3F) = setFlags f :=
  List.filter_congr fun p hp => by rw [BitVec.and_assoc, flagMasks_and_named p hp]

/-- Settles O40: the model's table is the statement's, joining commutes with the ASCII code, and every name has three
letters. -/
theorem flagStringListsTheSetFlags : Obligations.FlagStringListsTheSetFlags := by
  refine fun f => ⟨?_, ?_, ?_⟩
  · exact (flagsStr_eq_joinPlus f).trans (joinPlus_asciiBytes _)
  · have hnames : ∀ n ∈ ((setFlags f).map fun p => p.1.toList).map asciiBytes, n.length = 3 :=
      List.forall_mem_map.2 (List.forall_mem_map.2 fun p hp => flagMasks_name_length p (List.mem_of_mem_filter hp))
    rw [flagsStr_eq_joinPlus, joinPlus_length hnames, List.length_map, List.length_map]
    rfl
  · rw [flagsStr_eq_joinPlus, flagsStr_eq_joinPlus, setFlags_and_named]

end Sys2Proof.Machine
end

section
/-! ### `TCP.ENC`, `TCP.DEC`, `TCP.PSH`, `TCP.CSUM`, `TCP.VFY` and `TCP.FSTR` (42_tcp_codec.md R143 to R156) -/

namespace Sys2Proof.Machine

section
variable {s : State} {b : Buf}

/-- The bounds of the region are the first check of every command that reads one (20_memory.md R44). -/
theorem exec_region_outside {i : Instr} (hi : readsRegionOf i = some b) (h : ¬s.regionInside b) :
    exec i s = .next { s with status := rejectedStatus .regionRange } := by
  refine exec_of_rejected ?_
  cases i with
  | csumAcc | csumFin | ipDec | ipVfy | tcpDec | tcpCsum | tcpVfy | asmIp | asmTcp | disasm =>
    cases hi
    simp only [effectOf, csumAccEffect, csumFinEffect, ipDecEffect, ipVfyEffect, tcpDecEffect, tcpCsumEffect,
      tcpVfyEffect, asmIpEffect, asmTcpEffect, disasmEffect, State.region_outside h]
  | ipEnc | ipCsum | tcpEnc | tcpPsh | tcpFstr | nop | rst => cases hi

theorem exec_tcpEnc_inside (h : s.headerInside b) :
    exec (.tcpEnc b) s = .next { s.memWrite b s.off.toNat (tcpSer s.tcp s.tcpCsum) with status := 0 } := by
  simp only [exec_eq_conclude, effectOf, tcpEncEffect, State.headerDest_inside h, State.conclude_ok, doneStatus_false]

theorem exec_tcpEnc_outside (h : ¬s.headerInside b) :
    exec (.tcpEnc b) s = .next { s with status := rejectedStatus .regionRange } :=
  exec_of_rejected (by simp only [effectOf, tcpEncEffect, State.headerDest_outside h])

theorem exec_tcpDec_accepted (h : s.regionInside b) (hv : tcpVerdict (s.memRead b s.off.toNat s.len.toNat) = 0) :
    let bs := s.memRead b s.off.toNat s.len.toNat
    exec (.tcpDec b) s = .next { s with
      tcp := tcpFields bs
      tcpCsum := rd16 bs 16
      nextOff := BitVec.ofNat 16 (4 * (tcpFields bs).doff.toNat)
      status := 0 } := by
  simp only [exec_eq_conclude, effectOf, tcpDecEffect, State.region_inside h, tcpParse_ok hv, tcpHeaderLen,
    State.conclude_ok, doneStatus_false]

theorem exec_tcpDec_rejected (h : s.regionInside b) (hv : tcpVerdict (s.memRead b s.off.toNat s.len.toNat) ≠ 0) :
    exec (.tcpDec b) s = .next { s with status := tcpVerdict (s.memRead b s.off.toNat s.len.toNat) } := by
  obtain ⟨c, hparse, hstatus⟩ := tcpParse_error hv
  rw [← hstatus]
  exact exec_of_rejected (by simp only [effectOf, tcpDecEffect, State.region_inside h, hparse])

theorem exec_tcpCsum_inside (h : s.regionInside b) (hlen : 20 + s.len.toNat ≤ 0xFFFF) :
    let c := tcpCksum s.par.protoTcp s.tcp s.ip.src s.ip.dst (s.memRead b s.off.toNat s.len.toNat)
    exec (.tcpCsum b) s = .next { s with tcpCsum := c, result := c, status := 0 } := by
  simp only [exec_eq_conclude, effectOf, tcpCsumEffect, State.region_inside h, if_neg (Nat.not_lt.2 hlen),
    State.conclude_ok, doneStatus_false]

theorem exec_tcpCsum_long (h : s.regionInside b) (hlen : 0xFFFF < 20 + s.len.toNat) :
    exec (.tcpCsum b) s = .next { s with status := rejectedStatus .lenOverflow } :=
  exec_of_rejected (by simp only [effectOf, tcpCsumEffect, State.region_inside h, if_pos hlen])

theorem exec_tcpVfy_inside (h : s.regionInside b) (hlen : 20 ≤ s.len.toNat) :
    let init := ocsum (pseudo s.ip.src s.ip.dst s.par.protoTcp s.len) 0
    let ok := csumValid (s.memRead b s.off.toNat s.len.toNat) init 16 s.cfg
    exec (.tcpVfy b) s = .next { s with valid := setTcpOk s.valid ok, status := vfyStatus ok } := by
  simp only [exec_eq_conclude, effectOf, tcpVfyEffect, State.region_inside h, State.memRead_length,
    if_neg (Nat.not_lt.2 hlen), State.conclude_ok, doneStatus_not]

theorem exec_tcpVfy_short (h : s.regionInside b) (hlen : s.len.toNat < 20) :
    exec (.tcpVfy b) s = .next { s with status := rejectedStatus .tcpShort } :=
  exec_of_rejected (by
    simp only [effectOf, tcpVfyEffect, State.region_inside h, State.memRead_length, if_pos hlen])

end

/-- Bit 1 of `VALID` is written, bits 0 and 2 stay (10_state.md R18). -/
theorem setTcpOk_eq_mask (v : BitVec 3) (ok : Bool) : setTcpOk v ok = (v &&& 5) ||| (if ok then 2 else 0) := by
  revert v ok; decide

/-- Settles O41: the destination is the one check, and the header's bytes are the one store. -/
theorem tcpEncStoresTheHeader : Obligations.TcpEncStoresTheHeader := by
  refine ⟨commandEncoding_of_formOf (opc := 0x20) (f := .region .tcpEnc) rfl,
    fun b s => ⟨fun h => ?_, fun h => exec_tcpEnc_outside (Nat.not_le.2 h)⟩⟩
  exact ⟨_, exec_tcpEnc_inside h, rfl, storesAt_memWrite s b s.off.toNat (tcpSer s.tcp s.tcpCsum)⟩

/-- Settles O42: the bounds come first, then the checks of `tcp_parse`, whose verdict is the new `STATUS`. -/
theorem tcpDecLoadsTheHeader : Obligations.TcpDecLoadsTheHeader := by
  refine ⟨commandEncoding_of_formOf (opc := 0x21) (f := .region .tcpDec) rfl,
    fun b s => ⟨fun h hv => ?_, exec_tcpDec_rejected, fun h => exec_region_outside rfl (Nat.not_le.2 h)⟩⟩
  rw [← tcpFields_doff]
  exact exec_tcpDec_accepted h hv

/-- Settles O43: nothing is checked, and the pseudo-header's bytes are the one store. -/
theorem tcpPshStoresThePseudoHeader : Obligations.TcpPshStoresThePseudoHeader :=
  ⟨commandEncoding_of_formOf (opc := 0x22) (f := .noRegion .tcpPsh) rfl,
    fun s => ⟨_, rfl, rfl, storesAt_memWrite s .phdr 0 (pseudo s.ip.src s.ip.dst s.ip.proto s.len)⟩⟩

/-- Settles O44: the bounds, then the segment length, are checked; the payload of `tcp_cksum` is the region. -/
theorem tcpCsumComputesTheSegmentChecksum : Obligations.TcpCsumComputesTheSegmentChecksum := by
  refine ⟨commandEncoding_of_formOf (opc := 0x23) (f := .region .tcpCsum) rfl,
    fun b s => ⟨fun h hlen => ?_, exec_tcpCsum_long, fun h => exec_region_outside rfl (Nat.not_le.2 h)⟩⟩
  rw [exec_tcpCsum_inside h hlen, tcpCksum, State.memRead_length]

/-- Settles O45: the bounds, then the length, are checked; a failed validation is a completion with `MISMATCH`. -/
theorem tcpVfyReportsTheVerdict : Obligations.TcpVfyReportsTheVerdict := by
  refine ⟨commandEncoding_of_formOf (opc := 0x24) (f := .region .tcpVfy) rfl,
    fun b s => ⟨fun h hlen => ?_, exec_tcpVfy_short, fun h => exec_region_outside rfl (Nat.not_le.2 h)⟩⟩
  rw [← setTcpOk_eq_mask]
  exact exec_tcpVfy_inside h hlen

/-- Settles O46: nothing is checked, and the padded flag string is the one store. -/
theorem tcpFstrStoresTheFlagString : Obligations.TcpFstrStoresTheFlagString :=
  ⟨commandEncoding_of_formOf (opc := 0x25) (f := .noRegion .tcpFstr) rfl,
    fun s => ⟨flagsStr_length_le s.tcp.flags, _, rfl, rfl, storesAt_memWrite s .str 0
      (flagsStr s.tcp.flags ++ List.replicate (24 - (flagsStr s.tcp.flags).length) 0)⟩⟩

end Sys2Proof.Machine
end

section
/-! ### The TCP header's round trip (42_tcp_codec.md R145) -/

namespace Sys2Proof.Machine

section
variable {s : State} {b : Buf} {rest : List Byte}

/-- Decoding a region that begins with the serialised TCP registers loads the values they have already. -/
theorem exec_tcpDec_of_tcpSer_accepted (h : s.regionInside b)
    (hbs : s.memRead b s.off.toNat s.len.toNat = tcpSer s.tcp s.tcpCsum ++ rest)
    (hv : tcpVerdict (tcpSer s.tcp s.tcpCsum ++ rest) = 0) :
    exec (.tcpDec b) s = .next { s with nextOff := BitVec.ofNat 16 (4 * s.tcp.doff.toNat), status := 0 } := by
  rw [exec_tcpDec_accepted h (hbs ▸ hv), hbs, tcpFields_tcpSer_append, rd16_tcpSer_append]

theorem exec_tcpDec_of_tcpSer_rejected (h : s.regionInside b)
    (hbs : s.memRead b s.off.toNat s.len.toNat = tcpSer s.tcp s.tcpCsum ++ rest)
    {st : BitVec 13} (hv : tcpVerdict (tcpSer s.tcp s.tcpCsum ++ rest) = st) (hst : st ≠ 0) :
    exec (.tcpDec b) s = .next { s with status := st } := by
  subst hv
  rw [exec_tcpDec_rejected h (hbs ▸ hst), hbs]

/-- Decoding 20 bytes and storing what was decoded puts the same bytes back. -/
theorem tcpDec_tcpEnc_reproduces (hin : s.headerInside b) (hlen : s.len = 20)
    (hv : tcpVerdict (s.memRead b s.off.toNat 20) = 0) :
    ∃ t u, exec (.tcpDec b) s = .next t ∧ exec (.tcpEnc b) t = .next u ∧ ∀ b' a, u.byte b' a = s.byte b' a := by
  have hlen' : s.len.toNat = 20 := congrArg BitVec.toNat hlen
  rw [← hlen'] at hv
  have hreg : s.regionInside b := (congrArg (s.off.toNat + ·) hlen').trans_le hin
  refine ⟨_, _, exec_tcpDec_accepted hreg hv, exec_tcpEnc_inside hin, fun b' a => ?_⟩
  dsimp only
  rw [tcpSer_tcpFields ((State.memRead_length ..).trans hlen')]
  exact s.byte_memWrite_memRead b s.off.toNat s.len.toNat b' a

end

/-- The state once the header bytes `bs` were stored at `OFF` and the host has set `LEN` to `n`. -/
def State.withHeaderStored (s : State) (b : Buf) (bs : List Byte) (n : Half) : State :=
  { s.memWrite b s.off.toNat bs with status := 0, len := n }

/-- The region then holds the header and after it what it held before. -/
theorem State.withHeaderStored_memRead (s : State) (b : Buf) {bs : List Byte} {n : Half} (hn : bs.length ≤ n.toNat) :
    (s.withHeaderStored b bs n).memRead b s.off.toNat n.toNat =
      bs ++ s.memRead b (s.off.toNat + bs.length) (n.toNat - bs.length) := by
  rw [← s.memRead_memWrite_append, Nat.add_sub_cancel' hn]
  exact State.memRead_congr fun _ _ => rfl

/-- Settles O47: after `TCP.ENC` the verdict on the region is the verdict on the registers. -/
theorem tcpHeaderRoundTrip : Obligations.TcpHeaderRoundTrip := by
  refine ⟨fun b s n hin hn hreg => ?_, fun _ _ => tcpDec_tcpEnc_reproduces⟩
  have hbs := s.withHeaderStored_memRead b (bs := tcpSer s.tcp s.tcpCsum) hn
  have hv := tcpVerdict_tcpSer_append s.tcp s.tcpCsum (s.memRead b (s.off.toNat + 20) (n.toNat - 20))
  rw [State.memRead_length, Nat.add_sub_cancel' hn] at hv
  refine ⟨_, exec_tcpEnc_inside hin, rfl, rfl, fun hdoff hfit => ?_, fun hshort => ?_, fun hdoff => ?_⟩
  · rw [if_neg (Nat.not_lt.2 hdoff), if_neg (Nat.not_lt.2 hfit)] at hv
    exact exec_tcpDec_of_tcpSer_accepted (s := s.withHeaderStored b (tcpSer s.tcp s.tcpCsum) n) hreg hbs hv
  · rw [if_neg (by omega), if_pos hshort] at hv
    exact exec_tcpDec_of_tcpSer_rejected (s := s.withHeaderStored b (tcpSer s.tcp s.tcpCsum) n) hreg hbs hv (by decide)
  · rw [if_pos hdoff] at hv
    exact exec_tcpDec_of_tcpSer_rejected (s := s.withHeaderStored b (tcpSer s.tcp s.tcpCsum) n) hreg hbs hv (by decide)

end Sys2Proof.Machine
end

section
/-! ### `ASM.IP` and `ASM.TCP` (43_packet.md R172, R174) -/

namespace Sys2Proof.Machine

/-- The state in which an assembler that sends the packet `bs` with the header `h` completes, but for the TCP
registers. -/
def State.assembled (s : State) (h : IpHeader) (bs : List Byte) : State :=
  ((s.memWrite .pkt 0 bs).withSentIp h (ipCksum h) h.tlen).setStatus 0

/-- What the assembled state changes beside the buffers. -/
theorem State.assembled_eq (s : State) (h : IpHeader) (bs : List Byte) :
    s.assembled h bs = { s with
      ip := h, ipCsum := ipCksum h, outLen := h.tlen, status := 0, bufs := (s.assembled h bs).bufs } := rfl

theorem storesAt_assembled (s : State) (h : IpHeader) (bs : List Byte) : storesAt s (s.assembled h bs) .pkt 0 bs :=
  storesAt_memWrite s .pkt 0 bs

section
variable {s : State} {pay : List Byte}

theorem exec_asmIp_accepted (hin : s.regionInside .pay) (hfit : 20 + s.len.toNat ≤ s.par.maxUnit)
    (hpay : s.memRead .pay s.off.toNat s.len.toNat = pay) :
    exec .asmIp s = .next (s.assembled (s.sentIp s.ip.proto pay) (s.sentPacket s.ip.proto pay)) := by
  simp only [exec_eq_conclude, effectOf, asmIpEffect, State.region_inside hin, if_neg (Nat.not_lt.2 hfit), hpay,
    State.emitIp_eq_withSentIp]
  rfl

theorem exec_asmIp_long (hin : s.regionInside .pay) (hlong : s.par.maxUnit < 20 + s.len.toNat) :
    exec .asmIp s = .next { s with status := rejectedStatus .lenOverflow } :=
  exec_of_rejected (by simp only [effectOf, asmIpEffect, State.region_inside hin, if_pos hlong])

theorem exec_asmTcp_accepted (hin : s.regionInside .pay) (hfit : 40 + s.len.toNat ≤ s.par.maxUnit)
    (hpay : s.memRead .pay s.off.toNat s.len.toNat = pay) :
    exec .asmTcp s = .next ((s.withSentTcp s.sentTcp (s.sentTcpCsum pay)).assembled
      (s.sentIp s.par.protoTcp (s.sentSegment pay)) (s.sentPacket s.par.protoTcp (s.sentSegment pay))) := by
  simp only [exec_eq_conclude, effectOf, asmTcpEffect_eq, State.region_inside hin, if_neg (Nat.not_lt.2 hfit), hpay,
    State.emitIp_eq_withSentIp]
  rfl

theorem exec_asmTcp_long (hin : s.regionInside .pay) (hlong : s.par.maxUnit < 40 + s.len.toNat) :
    exec .asmTcp s = .next { s with status := rejectedStatus .lenOverflow } :=
  exec_of_rejected (by simp only [effectOf, asmTcpEffect_eq, State.region_inside hin, if_pos hlong])

end

/-- A packet of at most `MAX_UNIT` bytes fits `PKT` when the parameters meet R5. -/
theorem State.fits_pkt {s : State} (hpar : s.par.Ok) {n : Nat} (hfit : n ≤ s.par.maxUnit) : n ≤ s.size .pkt := by
  obtain ⟨-, -, hpkt, -⟩ := hpar
  exact hfit.trans hpkt

/-- Settles O48: bounds, then size, are checked; header and payload are one store. -/
theorem asmIpAssemblesThePacket : Obligations.AsmIpAssemblesThePacket := by
  refine ⟨commandEncoding_of_formOf (opc := 0x30) (f := .payOnly .asmIp) rfl, fun s => ⟨fun hin hfit => ?_,
    exec_asmIp_long, fun h => exec_region_outside rfl (Nat.not_le.2 h)⟩⟩
  have hexec := exec_asmIp_accepted hin hfit rfl
  rw [State.sentPacket, State.sentIp, State.memRead_length] at hexec
  exact ⟨_, hexec, State.assembled_eq .., storesAt_assembled .., fun hpar => State.fits_pkt hpar hfit⟩

/-- Settles O49: as for `ASM.IP`, with the segment as the payload. -/
theorem asmTcpAssemblesTheSegmentInAPacket : Obligations.AsmTcpAssemblesTheSegmentInAPacket := by
  refine ⟨commandEncoding_of_formOf (opc := 0x31) (f := .payOnly .asmTcp) rfl, fun s => ⟨fun hin hfit => ?_,
    exec_asmTcp_long, fun h => exec_region_outside rfl (Nat.not_le.2 h)⟩⟩
  have hexec := exec_asmTcp_accepted hin hfit rfl
  rw [State.sentPacket, State.sentIp, State.sentSegment_length, State.memRead_length, ← Nat.add_assoc,
    State.sentSegment, State.sentTcpCsum, tcpCksum, State.memRead_length, ← List.append_assoc] at hexec
  exact ⟨_, hexec, State.assembled_eq .., storesAt_assembled .., fun hpar => State.fits_pkt hpar hfit⟩

end Sys2Proof.Machine
end

section
/-! ### `DISASM` (43_packet.md R170, R176) -/

namespace Sys2Proof.Machine

/-- What `DISASM` does once the IP header `h`, with stored checksum `c` and verdict `ipOk`, and its total length are
accepted: `seg` is what the total length leaves above the header (R176). -/
def disasmAccepted (s : State) (h : IpHeader) (c : Half) (ipOk : Bool) (seg : List Byte) : Effect :=
  if h.proto = s.par.protoTcp then
    match tcpParse seg with
    | .error c => .error c
    | .ok (t, tc) =>
      let init := ocsum (pseudo h.src h.dst h.proto (BitVec.ofNat 16 (h.tlen.toNat - ipHeaderLen h))) 0
      .ok (disasmTcp s h c t tc ipOk (csumValid seg init 16 s.cfg))
  else .ok (disasmOther s h c ipOk)

/-- `VALID` without a TCP header is the IP verdict (10_state.md R18). -/
theorem validWord_other (ipOk : Bool) : validWord false false ipOk = BitVec.ofNat 3 ipOk.toNat := by
  revert ipOk; decide

/-- `VALID` with a TCP header, as a number (10_state.md R18). -/
theorem validWord_tcp (ipOk tcpOk : Bool) :
    validWord true tcpOk ipOk = BitVec.ofNat 3 (4 + 2 * tcpOk.toNat + ipOk.toNat) := by
  revert ipOk tcpOk; decide

section
variable {s : State} {h : IpHeader} {c : Half} {ipOk : Bool} {seg : List Byte}

/-- Another protocol: the IP registers, the slice and the verdict. -/
theorem conclude_disasmAccepted_other (hproto : h.proto ≠ s.par.protoTcp) :
    s.conclude (disasmAccepted s h c ipOk seg) = .next { s with
      ip := h
      ipCsum := c
      slOff := BitVec.ofNat 16 (s.off.toNat + ipHeaderLen h)
      slLen := BitVec.ofNat 16 (h.tlen.toNat - ipHeaderLen h)
      valid := BitVec.ofNat 3 ipOk.toNat
      status := vfyStatus ipOk } := by
  rw [disasmAccepted, if_neg hproto, disasmOther, State.conclude_ok, doneStatus_not, validWord_other]

/-- TCP: the registers of both headers, the slice and both verdicts. -/
theorem conclude_disasmAccepted_tcp (hproto : h.proto = s.par.protoTcp) (hv : tcpVerdict seg = 0) :
    let t := tcpFields seg
    let init := ocsum (pseudo h.src h.dst h.proto (BitVec.ofNat 16 (h.tlen.toNat - ipHeaderLen h))) 0
    let tcpOk := csumValid seg init 16 s.cfg
    s.conclude (disasmAccepted s h c ipOk seg) = .next { s with
      ip := h
      ipCsum := c
      tcp := t
      tcpCsum := rd16 seg 16
      slOff := BitVec.ofNat 16 (s.off.toNat + ipHeaderLen h + tcpHeaderLen t)
      slLen := BitVec.ofNat 16 (h.tlen.toNat - ipHeaderLen h - tcpHeaderLen t)
      valid := BitVec.ofNat 3 (4 + 2 * tcpOk.toNat + ipOk.toNat)
      status := vfyStatus (ipOk && tcpOk) } := by
  simp only [disasmAccepted, if_pos hproto, tcpParse_ok hv, disasmTcp, State.conclude_ok, ← Bool.not_and,
    doneStatus_not, validWord_tcp]

theorem conclude_disasmAccepted_rejected (hproto : h.proto = s.par.protoTcp) (hv : tcpVerdict seg ≠ 0) :
    s.conclude (disasmAccepted s h c ipOk seg) = .next { s with status := tcpVerdict seg } := by
  obtain ⟨cause, hparse, hstatus⟩ := tcpParse_error hv
  rw [disasmAccepted, if_pos hproto, hparse, ← hstatus]
  rfl

/-- Of the state, only the registers and the parameters are looked at. -/
theorem conclude_disasmAccepted_withRegion (s : State) (h : IpHeader) (c : Half) (ipOk : Bool) (seg : List Byte)
    (len : Half) (bufs : Buffers) :
    ∃ u, s.conclude (disasmAccepted s h c ipOk seg) = .next u ∧
      State.conclude { s with len := len, bufs := bufs }
        (disasmAccepted { s with len := len, bufs := bufs } h c ipOk seg) =
          .next { u with len := len, bufs := bufs } := by
  by_cases hproto : h.proto = s.par.protoTcp
  · by_cases hv : tcpVerdict seg = 0
    · exact ⟨_, conclude_disasmAccepted_tcp hproto hv, conclude_disasmAccepted_tcp hproto hv⟩
    · exact ⟨_, conclude_disasmAccepted_rejected hproto hv, conclude_disasmAccepted_rejected hproto hv⟩
  · exact ⟨_, conclude_disasmAccepted_other hproto, conclude_disasmAccepted_other hproto⟩

end

section
variable {s : State} {b : Buf} {bs : List Byte} (hin : s.regionInside b)
  (hbs : s.memRead b s.off.toNat s.len.toNat = bs)
include hin hbs

/-- The checks of the IP parser come after the bounds. -/
theorem exec_disasm_ipRejected (hv : ipVerdict bs ≠ 0) :
    exec (.disasm b) s = .next { s with status := ipVerdict bs } := by
  obtain ⟨c, hparse, hstatus⟩ := ipParse_error hv
  rw [← hstatus]
  exact exec_of_rejected (by simp only [effectOf, disasmEffect, State.region_inside hin, hbs, hparse])

variable (hv : ipVerdict bs = 0)
include hv

theorem exec_disasm_tlenBelowHeader (htlen : (ipFields bs).tlen.toNat < ipHeaderLen (ipFields bs)) :
    exec (.disasm b) s = .next { s with status := rejectedStatus .ipTlenMin } :=
  exec_of_rejected (by simp only [effectOf, disasmEffect, State.region_inside hin, hbs, ipParse_ok hv, if_pos htlen])

variable (hmin : ipHeaderLen (ipFields bs) ≤ (ipFields bs).tlen.toNat)
include hmin

theorem exec_disasm_tlenAboveLen (hbuf : bs.length < (ipFields bs).tlen.toNat) :
    exec (.disasm b) s = .next { s with status := rejectedStatus .ipTlenBuf } :=
  exec_of_rejected (by
    simp only [effectOf, disasmEffect, State.region_inside hin, hbs, ipParse_ok hv, if_neg (Nat.not_lt.2 hmin),
      if_pos hbuf])

/-- The total length bounds everything above the IP header (R170). -/
theorem exec_disasm_accepted (hbuf : (ipFields bs).tlen.toNat ≤ bs.length) :
    exec (.disasm b) s = s.conclude (disasmAccepted s (ipFields bs) (rd16 bs 10)
      (csumValid (slice bs 0 (ipHeaderLen (ipFields bs))) 0 10 s.cfg)
      (slice bs (ipHeaderLen (ipFields bs)) (ipFields bs).tlen.toNat)) := by
  simp only [exec_eq_conclude, effectOf, disasmEffect, State.region_inside hin, hbs, ipParse_ok hv,
    if_neg (Nat.not_lt.2 hmin), if_neg (Nat.not_lt.2 hbuf)]
  rfl

end

/-- Settles O50: each check is reached when those before it pass. -/
theorem disasmRejectsInOrder : Obligations.DisasmRejectsInOrder := by
  refine ⟨commandEncoding_of_formOf (opc := 0x32) (f := .region .disasm) rfl, fun b s => ?_⟩
  have hlen : (s.memRead b s.off.toNat s.len.toNat).length = s.len.toNat := State.memRead_length ..
  refine ⟨fun h => exec_region_outside rfl (Nat.not_le.2 h), fun hin => exec_disasm_ipRejected hin rfl,
    fun hin => exec_disasm_tlenBelowHeader hin rfl, fun hin hv hmin hbuf => ?_, fun hin hv hmin hbuf hproto htcp => ?_⟩
  · exact exec_disasm_tlenAboveLen hin rfl hv hmin (hlen.trans_lt hbuf)
  · exact (exec_disasm_accepted hin rfl hv hmin (hbuf.trans_eq hlen.symm)).trans
      (conclude_disasmAccepted_rejected hproto htcp)

/-- Settles O51: the header, its verdict and the slice are all that is written. -/
theorem disasmDeliversAnotherProtocol : Obligations.DisasmDeliversAnotherProtocol :=
  fun _ s hin hv hmin hbuf hproto =>
    (exec_disasm_accepted hin rfl hv hmin (hbuf.trans_eq (s.memRead_length ..).symm)).trans
      (conclude_disasmAccepted_other hproto)

/-- Settles O52: the TCP header is parsed from what the total length leaves above the IP header. -/
theorem disasmDeliversTcp : Obligations.DisasmDeliversTcp :=
  fun _ s hin hv hmin hbuf hproto htcp =>
    (exec_disasm_accepted hin rfl hv hmin (hbuf.trans_eq (s.memRead_length ..).symm)).trans
      (conclude_disasmAccepted_tcp hproto htcp)

end Sys2Proof.Machine
end

section
/-! ### `DISASM` and padding (43_packet.md R170) -/

namespace Sys2Proof.Machine

section
variable {pkt : List Byte}

theorem rd16_append_left {k : Nat} (h : k + 2 ≤ pkt.length) (rest : List Byte) : rd16 (pkt ++ rest) k = rd16 pkt k := by
  rw [rd16, rd8_append_left (by omega), rd8_append_left (by omega), rd16]

theorem ipFields_append (h : 20 ≤ pkt.length) (rest : List Byte) : ipFields (pkt ++ rest) = ipFields pkt := by
  simp (disch := omega) only [ipFields, rd32, rd16_append_left, rd8_append_left]

theorem slice_append_left {i j : Nat} (h : j ≤ pkt.length) (rest : List Byte) :
    slice (pkt ++ rest) i j = slice pkt i j := by
  rw [slice, List.take_append_of_le_length h, slice]

/-- `ip_parse` accepts exactly when all its checks pass (41_ip_codec.md R121). -/
theorem ipVerdict_eq_zero_iff : ipVerdict pkt = 0 ↔
    20 ≤ pkt.length ∧ (ipFields pkt).ver = 4 ∧ 5 ≤ (ipFields pkt).ihl.toNat ∧
      ipHeaderLen (ipFields pkt) ≤ pkt.length := by
  refine ⟨ipVerdict_zero, fun ⟨hlen, hver, hihl, hbuf⟩ => ?_⟩
  rw [ipHeaderLen] at hbuf
  rw [ipFields_ver] at hver
  rw [ipFields_ihl] at hihl hbuf
  rw [ipVerdict, if_neg (Nat.not_lt.2 hlen), if_neg (not_not_intro hver), if_neg (Nat.not_lt.2 hihl),
    if_neg (Nat.not_lt.2 hbuf)]

/-- The IP parser looks at the header only. -/
theorem ipVerdict_append_eq_zero_iff (hlen : 20 ≤ pkt.length) (hbuf : ipHeaderLen (ipFields pkt) ≤ pkt.length)
    (rest : List Byte) : ipVerdict (pkt ++ rest) = 0 ↔ ipVerdict pkt = 0 := by
  have hlen' : 20 ≤ (pkt ++ rest).length := by
    rw [List.length_append]
    omega
  have hbuf' : ipHeaderLen (ipFields pkt) ≤ (pkt ++ rest).length := by
    rw [List.length_append]
    omega
  simp only [ipVerdict_eq_zero_iff, ipFields_append hlen, hlen, hlen', hbuf, hbuf']

/-- Of an accepted region, the bytes below the total length are accepted by themselves. -/
theorem packet_of_region {bs rest : List Byte} (hbs : bs = pkt ++ rest) (hv : ipVerdict bs = 0)
    (htlen : pkt.length = (ipFields bs).tlen.toNat) (hmin : ipHeaderLen (ipFields bs) ≤ (ipFields bs).tlen.toNat) :
    ipVerdict pkt = 0 ∧ (ipFields pkt).tlen.toNat = pkt.length := by
  subst hbs
  rw [← htlen] at hmin
  obtain ⟨-, -, hihl, -⟩ := ipVerdict_eq_zero_iff.1 hv
  have hlen : 20 ≤ pkt.length := (Nat.mul_le_mul_left 4 hihl).trans hmin
  rw [ipFields_append hlen] at htlen hmin
  exact ⟨(ipVerdict_append_eq_zero_iff hlen hmin rest).1 hv, htlen.symm⟩

/-- A region that begins with a packet of its total length is taken apart as the packet is, whatever follows it. -/
theorem exec_disasm_packet {s : State} {b : Buf} {rest : List Byte} (hin : s.regionInside b)
    (hbs : s.memRead b s.off.toNat s.len.toNat = pkt ++ rest) (hv : ipVerdict pkt = 0)
    (htlen : (ipFields pkt).tlen.toNat = pkt.length) :
    exec (.disasm b) s = s.conclude (disasmAccepted s (ipFields pkt) (rd16 pkt 10)
      (csumValid (pkt.take (ipHeaderLen (ipFields pkt))) 0 10 s.cfg) (pkt.drop (ipHeaderLen (ipFields pkt)))) := by
  obtain ⟨hlen, -, -, hbuf⟩ := ipVerdict_eq_zero_iff.1 hv
  have hfields := ipFields_append hlen rest
  rw [exec_disasm_accepted hin hbs ((ipVerdict_append_eq_zero_iff hlen hbuf rest).2 hv)
    (by rw [hfields, htlen]; exact hbuf) (by rw [hfields, htlen, List.length_append]; exact Nat.le_add_right ..),
    hfields, htlen, rd16_append_left (by omega), slice_append_left hbuf, slice_append_left le_rfl, slice, slice,
    List.drop_zero, List.take_length]

end

/-- Settles O53: both regions begin with the same packet, and of the state only registers are looked at. -/
theorem disasmIgnoresPadding : Obligations.DisasmIgnoresPadding := by
  intro b s t bs tlen ht hin hin' hv hmin hlen hlen' hsame
  obtain ⟨n, bufs, rfl⟩ : ∃ n bufs, t = { s with len := n, bufs := bufs } := ⟨_, _, ht⟩
  have hsplit (u : State) {m : Nat} (hm : tlen ≤ m) : u.memRead b s.off.toNat m =
      u.memRead b s.off.toNat tlen ++ u.memRead b (s.off.toNat + tlen) (m - tlen) := by
    rw [← State.memRead_append, Nat.add_sub_cancel' hm]
  have hbs := hsplit s hlen
  have hbs' := hsplit { s with len := n, bufs := bufs } hlen'
  rw [State.memRead_congr hsame] at hbs'
  obtain ⟨hvpkt, htlen⟩ := packet_of_region hbs hv (s.memRead_length ..) hmin
  rw [exec_disasm_packet hin hbs hvpkt htlen, exec_disasm_packet hin' hbs' hvpkt htlen]
  exact conclude_disasmAccepted_withRegion ..

end Sys2Proof.Machine
end

section
/-! ### A checksum as it was computed validates (43_packet.md R179) -/

namespace Sys2Proof.Machine

/-- A region whose checksum field holds the complement of the sum over the rest is valid in either mode. -/
theorem csumValid_of_complement {bs : List Byte} {init : Half} {f : Nat} (hf : f % 2 = 0) (hlen : f + 2 ≤ bs.length)
    (h : rd16 bs f = ~~~ ocsum (zeroField bs f) init) (mode : BitVec 1) : csumValid bs init f mode = true := by
  obtain rfl | rfl : mode = 0 ∨ mode = 1 := by revert mode; decide
  · exact csumValid_zero.2 h
  · rw [csumValid_one_iff_ocadd hf hlen, h, ocadd_complement]

theorem csumValid_ipSer (h : IpHeader) (mode : BitVec 1) : csumValid (ipSer h (ipCksum h)) 0 10 mode = true := by
  have hread (c : Half) : rd16 (ipSer h c) 10 = c := be16_append c
  have hzero (c : Half) : zeroField (ipSer h c) 10 = ipSer h 0 := rfl
  refine csumValid_of_complement rfl ?_ ?_ mode
  · rw [ipSer_length]
    decide
  · rw [hread, hzero, ipCksum, cksum]

theorem csumValid_tcpSer_append (proto : Byte) (t : TcpHeader) (src dst : Word) (pay : List Byte) (mode : BitVec 1) :
    csumValid (tcpSer t (tcpCksum proto t src dst pay) ++ pay)
      (ocsum (pseudo src dst proto (BitVec.ofNat 16 (20 + pay.length))) 0) 16 mode = true := by
  have hzero (c : Half) : zeroField (tcpSer t c ++ pay) 16 = tcpSer t 0 ++ pay := rfl
  refine csumValid_of_complement rfl ?_ ?_ mode
  · rw [List.length_append, tcpSer_length]
    omega
  · rw [rd16_tcpSer_append, hzero, ocsum_append (by rw [tcpSer_length]), tcpCksum]

section
variable {s : State} {b : Buf}

theorem exec_ipVfy_valid (hin : s.regionInside b) (hlen : 20 ≤ s.len.toNat)
    (hok : csumValid (s.memRead b s.off.toNat s.len.toNat) 0 10 s.cfg = true) :
    exec (.ipVfy b) s = .next { s with valid := setIpOk s.valid true, status := 0 } := by
  rw [exec_ipVfy_inside hin hlen, hok]
  rfl

theorem exec_tcpVfy_valid (hin : s.regionInside b) (hlen : 20 ≤ s.len.toNat)
    (hok : csumValid (s.memRead b s.off.toNat s.len.toNat)
      (ocsum (pseudo s.ip.src s.ip.dst s.par.protoTcp s.len) 0) 16 s.cfg = true) :
    exec (.tcpVfy b) s = .next { s with valid := setTcpOk s.valid true, status := 0 } := by
  rw [exec_tcpVfy_inside hin hlen, hok]
  rfl

end

theorem setIpOk_getLsbD (v : BitVec 3) (ok : Bool) : (setIpOk v ok).getLsbD 0 = ok := by
  revert v ok; decide

theorem setTcpOk_getLsbD (v : BitVec 3) (ok : Bool) : (setTcpOk v ok).getLsbD 1 = ok := by
  revert v ok; decide

/-- The registers after `IP.CSUM`. -/
def State.withIpCsum (s : State) (c : Half) : State := { s with ipCsum := c, result := c, status := 0 }

/-- The registers after `TCP.CSUM`. -/
def State.withTcpCsum (s : State) (c : Half) : State := { s with tcpCsum := c, result := c, status := 0 }

/-- A header stored at `OFF`, read as a region of its own. -/
theorem State.memRead_header_stored (s : State) (b : Buf) {bs : List Byte} {n : Half} (hn : bs.length = n.toNat) :
    (s.withHeaderStored b bs n).memRead b s.off.toNat n.toNat = bs := by
  rw [State.withHeaderStored_memRead s b hn.le, hn, Nat.sub_self, State.memRead, List.append_nil]

/-- The IP half of R179. -/
theorem ipCsum_ipEnc_ipVfy {b : Buf} {s : State} (hin : s.headerInside b) :
    ∃ t1 t2 t3, exec .ipCsum s = .next t1 ∧ exec (.ipEnc b) t1 = .next t2 ∧
      exec (.ipVfy b) { t2 with len := 20 } = .next t3 ∧ t3.valid.getLsbD 0 = true ∧ t3.status = 0 := by
  have hread := (s.withIpCsum (ipCksum s.ip)).memRead_header_stored b (n := 20) (ipSer_length s.ip (ipCksum s.ip))
  have hok := csumValid_ipSer s.ip s.cfg
  rw [← hread] at hok
  exact ⟨s.withIpCsum (ipCksum s.ip), _, _, rfl, exec_ipEnc_inside hin, exec_ipVfy_valid hin le_rfl hok,
    setIpOk_getLsbD .., rfl⟩

/-- The state once the 20 header bytes `hdr` were stored at `OFF`, `pay` directly after them, and the host has set `LEN`
to `n`. -/
def State.withSegmentStored (s : State) (b : Buf) (hdr pay : List Byte) (n : Half) : State :=
  { (s.withHeaderStored b hdr s.len).memWrite b (s.off.toNat + 20) pay with len := n }

/-- The region then is the segment. -/
theorem State.withSegmentStored_memRead (s : State) (b : Buf) {hdr pay : List Byte} {n : Half} (hhdr : hdr.length = 20)
    (hn : n.toNat = 20 + pay.length) :
    (s.withSegmentStored b hdr pay n).memRead b s.off.toNat n.toNat = hdr ++ pay := by
  rw [← State.memRead_memWrite s b s.off.toNat (hdr ++ pay), ← State.memWrite_append, hn, List.length_append, hhdr]
  exact State.memRead_congr fun _ _ => rfl

/-- A segment so stored is verified where the sum over it says so. -/
theorem exec_tcpVfy_segmentStored {s : State} {b : Buf} {hdr pay : List Byte} {n : Half} (hhdr : hdr.length = 20)
    (hn : n.toNat = 20 + pay.length) (hroom : s.off.toNat + n.toNat ≤ s.size b)
    (hok : csumValid (hdr ++ pay) (ocsum (pseudo s.ip.src s.ip.dst s.par.protoTcp n) 0) 16 s.cfg = true) :
    exec (.tcpVfy b) (s.withSegmentStored b hdr pay n) =
      .next { s.withSegmentStored b hdr pay n with valid := setTcpOk s.valid true, status := 0 } := by
  rw [← s.withSegmentStored_memRead b hhdr hn] at hok
  exact exec_tcpVfy_valid hroom ((Nat.le_add_right ..).trans_eq hn.symm) hok

/-- The TCP half of R179. -/
theorem tcpCsum_tcpEnc_tcpVfy {b bp : Buf} {s : State} {o : Half} (hin : s.regionInside bp)
    (hroom : o.toNat + 20 + s.len.toNat ≤ s.size b) (hseg : 20 + s.len.toNat ≤ 0xFFFF) :
    ∃ t1 t2 t3, exec (.tcpCsum bp) s = .next t1 ∧ exec (.tcpEnc b) { t1 with off := o } = .next t2 ∧
      exec (.tcpVfy b)
        { t2.memWrite b (o.toNat + 20) (s.memRead bp s.off.toNat s.len.toNat) with
          len := BitVec.ofNat 16 (20 + s.len.toNat) } = .next t3 ∧
      t3.valid.getLsbD 1 = true ∧ t3.status = 0 := by
  have hpay : (s.memRead bp s.off.toNat s.len.toNat).length = s.len.toNat := State.memRead_length ..
  have hcsum := exec_tcpCsum_inside hin hseg
  generalize s.memRead bp s.off.toNat s.len.toNat = pay at hpay hcsum ⊢
  rw [← hpay] at hroom hseg ⊢
  have hn : (BitVec.ofNat 16 (20 + pay.length)).toNat = 20 + pay.length := Nat.mod_eq_of_lt (Nat.lt_succ_of_le hseg)
  have hdest : o.toNat + 20 ≤ s.size b := Nat.le_of_add_right_le hroom
  rw [Nat.add_assoc, ← hn] at hroom
  have hok := csumValid_tcpSer_append s.par.protoTcp s.tcp s.ip.src s.ip.dst pay s.cfg
  generalize tcpCksum s.par.protoTcp s.tcp s.ip.src s.ip.dst pay = c at hcsum hok
  have hhdr : (tcpSer s.tcp c).length = 20 := tcpSer_length ..
  have henc : exec (.tcpEnc b) { s.withTcpCsum c with off := o } =
      .next (State.withHeaderStored { s.withTcpCsum c with off := o } b (tcpSer s.tcp c) s.len) :=
    exec_tcpEnc_inside hdest
  generalize tcpSer s.tcp c = hdr at hok hhdr henc
  exact ⟨s.withTcpCsum c, _, _, hcsum, henc,
    exec_tcpVfy_segmentStored (s := { s.withTcpCsum c with off := o }) hhdr hn hroom hok, setTcpOk_getLsbD .., rfl⟩

/-- Settles O55: what `IP.CSUM` and `TCP.CSUM` leave is the complement that both modes ask for. -/
theorem generatedChecksumsValidate : Obligations.GeneratedChecksumsValidate :=
  ⟨fun _ _ => ipCsum_ipEnc_ipVfy, fun _ _ _ _ => tcpCsum_tcpEnc_tcpVfy⟩

end Sys2Proof.Machine
end

section
/-! ### What the assemblers send, `DISASM` takes apart (43_packet.md R178)

The packet's bytes are made a variable (`generalize hsent`) before states are compared: Lean would unfold them. -/

namespace Sys2Proof.Machine

/-- `PKT` from offset 0 on after an assembler: the packet, then what was there before. -/
theorem State.assembled_memRead (s : State) (h : IpHeader) {bs : List Byte} {n : Nat} (hn : bs.length ≤ n) :
    (s.assembled h bs).memRead .pkt 0 n = bs ++ s.memRead .pkt (0 + bs.length) (n - bs.length) := by
  rw [← s.memRead_memWrite_append, Nat.add_sub_cancel' hn]
  exact State.memRead_congr fun _ _ => rfl

/-- The state once the host has set `OFF` to 0 and `LEN` to `n`. -/
def State.atStart (s : State) (n : Half) : State := { s with off := 0, len := n }

/-- No assembler, and no host access, changes the parameters. -/
theorem State.assembled_par (s : State) (h : IpHeader) (bs : List Byte) (n : Half) :
    ((s.assembled h bs).atStart n).par = s.par := rfl

/-- `DISASM` finds the packet, with any `LEN` that it fits in. -/
theorem State.assembled_region (s : State) (h : IpHeader) {bs : List Byte} {n : Half} (hn : bs.length ≤ n.toNat) :
    ((s.assembled h bs).atStart n).memRead .pkt ((s.assembled h bs).atStart n).off.toNat n.toNat =
      bs ++ s.memRead .pkt (0 + bs.length) (n.toNat - bs.length) := by
  rw [← s.assembled_memRead h hn]
  exact State.memRead_congr fun _ _ => rfl

/-- The end of the packet stands in `PKT` after the rest of it. -/
theorem State.assembled_memRead_right (s : State) (h : IpHeader) (xs ys : List Byte) :
    (s.assembled h (xs ++ ys)).memRead .pkt xs.length ys.length = ys := by
  conv_rhs => rw [← (s.memWrite .pkt 0 xs).memRead_memWrite .pkt (0 + xs.length) ys, s.memWrite_append, Nat.zero_add]
  exact State.memRead_congr fun _ _ => rfl

section
variable {s u : State} {b : Buf} {proto : Byte} {seg pay rest : List Byte}

theorem State.sentIp_tlen (s : State) (proto : Byte) (hfit : 20 + seg.length < 0x10000) :
    (s.sentIp proto seg).tlen.toNat = 20 + seg.length :=
  Nat.mod_eq_of_lt hfit

@[simp] theorem State.ipHeaderLen_sentIp (s : State) (proto : Byte) (seg : List Byte) :
    ipHeaderLen (s.sentIp proto seg) = 20 := rfl

@[simp] theorem State.tcpHeaderLen_sentTcp (s : State) : tcpHeaderLen s.sentTcp = 20 := rfl

/-- What the total length leaves above the header is the payload. -/
theorem State.sentIp_tlen_sub (s : State) (proto : Byte) (hfit : 20 + seg.length < 0x10000) :
    (s.sentIp proto seg).tlen.toNat - ipHeaderLen (s.sentIp proto seg) = seg.length := by
  rw [s.sentIp_tlen _ hfit, State.ipHeaderLen_sentIp, Nat.add_sub_cancel_left]

/-- A packet that an assembler sends passes the checks of `ip_parse`. -/
theorem ipVerdict_sentPacket (s : State) (proto : Byte) (seg : List Byte) :
    ipVerdict (s.sentPacket proto seg) = 0 := by
  have hlong : ¬20 + seg.length < 20 := by omega
  exact (ipVerdict_ipSer_append (s.sentIp proto seg) _ seg).trans (if_neg hlong)

/-- So does a segment that `ASM.TCP` sends, of `tcp_parse`. -/
theorem tcpVerdict_sentSegment (s : State) (pay : List Byte) : tcpVerdict (s.sentSegment pay) = 0 := by
  have hlong : ¬20 + pay.length < 20 := by omega
  exact (tcpVerdict_tcpSer_append s.sentTcp _ pay).trans (if_neg hlong)

/-- `DISASM` of a region that begins with an assembler's packet finds the header sent, a valid one, and the payload. -/
theorem exec_disasm_sentPacket (hin : u.regionInside b)
    (hbs : u.memRead b u.off.toNat u.len.toNat = s.sentPacket proto seg ++ rest) (hfit : 20 + seg.length < 0x10000) :
    exec (.disasm b) u =
      u.conclude (disasmAccepted u (s.sentIp proto seg) (ipCksum (s.sentIp proto seg)) true seg) := by
  have hfields : ipFields (s.sentPacket proto seg) = s.sentIp proto seg := ipFields_ipSer_append ..
  have hcsum : rd16 (s.sentPacket proto seg) 10 = ipCksum (s.sentIp proto seg) := rd16_ipSer_append ..
  have hhdr : ipHeaderLen (s.sentIp proto seg) = (ipSer (s.sentIp proto seg) (ipCksum (s.sentIp proto seg))).length :=
    rfl
  rw [exec_disasm_packet hin hbs (ipVerdict_sentPacket s proto seg) (by
    rw [hfields, s.sentIp_tlen _ hfit, State.sentPacket_length]), hfields, hcsum, hhdr, State.sentPacket,
    List.take_left, List.drop_left, csumValid_ipSer]

/-- The segment's checksum is valid over the pseudo-header that `DISASM` makes from the IP header sent. -/
theorem csumValid_sentSegment (s : State) (pay : List Byte) (mode : BitVec 1) :
    let h := s.sentIp s.par.protoTcp (s.sentSegment pay)
    csumValid (s.sentSegment pay)
      (ocsum (pseudo h.src h.dst h.proto (BitVec.ofNat 16 (s.sentSegment pay).length)) 0) 16 mode = true := by
  rw [State.sentSegment_length]
  exact csumValid_tcpSer_append s.par.protoTcp s.sentTcp s.ip.src s.ip.dst pay mode

/-- `ASM.IP`'s packet with a protocol that is not TCP. -/
theorem exec_disasm_sentOther {bs : List Byte} (hsent : s.sentPacket proto pay = bs) (hin : u.regionInside b)
    (hbs : u.memRead b u.off.toNat u.len.toNat = bs ++ rest) (hfit : 20 + pay.length < 0x10000)
    (hproto : proto ≠ u.par.protoTcp) :
    exec (.disasm b) u = .next { u with
      ip := s.sentIp proto pay
      ipCsum := ipCksum (s.sentIp proto pay)
      slOff := BitVec.ofNat 16 (u.off.toNat + 20)
      slLen := BitVec.ofNat 16 pay.length
      valid := 1
      status := 0 } := by
  subst hsent
  rw [exec_disasm_sentPacket hin hbs hfit, conclude_disasmAccepted_other hproto, s.sentIp_tlen_sub _ hfit]
  rfl

/-- `ASM.TCP`'s packet. -/
theorem exec_disasm_sentTcp {bs : List Byte} (hsent : s.sentPacket s.par.protoTcp (s.sentSegment pay) = bs)
    (hin : u.regionInside b) (hbs : u.memRead b u.off.toNat u.len.toNat = bs ++ rest)
    (hfit : 20 + (20 + pay.length) < 0x10000) (hpar : u.par = s.par) :
    exec (.disasm b) u = .next { u with
      ip := s.sentIp s.par.protoTcp (s.sentSegment pay)
      ipCsum := ipCksum (s.sentIp s.par.protoTcp (s.sentSegment pay))
      tcp := s.sentTcp
      tcpCsum := s.sentTcpCsum pay
      slOff := BitVec.ofNat 16 (u.off.toNat + 40)
      slLen := BitVec.ofNat 16 pay.length
      valid := 7
      status := 0 } := by
  subst hsent
  rw [← s.sentSegment_length] at hfit
  have hfields : tcpFields (s.sentSegment pay) = s.sentTcp := tcpFields_tcpSer_append ..
  have hcsum : rd16 (s.sentSegment pay) 16 = s.sentTcpCsum pay := rd16_tcpSer_append ..
  rw [exec_disasm_sentPacket hin hbs hfit, conclude_disasmAccepted_tcp (congrArg Params.protoTcp hpar.symm)
    (tcpVerdict_sentSegment s pay), s.sentIp_tlen_sub _ hfit, csumValid_sentSegment, hfields, hcsum,
    State.sentSegment_length, State.tcpHeaderLen_sentTcp, Nat.add_sub_cancel_left]
  rfl

end

/-- The payload of an IP packet stands in `PKT` after the header. -/
theorem State.memRead_sentPacket (s r : State) (proto : Byte) (pay : List Byte) :
    (r.assembled (s.sentIp proto pay) (s.sentPacket proto pay)).memRead .pkt 20 pay.length = pay :=
  r.assembled_memRead_right ..

/-- The payload of a TCP segment stands in `PKT` after both headers. -/
theorem State.memRead_sentSegment (s r : State) (proto : Byte) (pay : List Byte) :
    (r.assembled (s.sentIp proto (s.sentSegment pay)) (s.sentPacket proto (s.sentSegment pay))).memRead .pkt 40
      pay.length = pay := by
  rw [State.sentPacket, State.sentSegment, ← List.append_assoc]
  exact r.assembled_memRead_right ..

section
variable {s : State} (hpar : s.par.Ok) (hin : s.regionInside .pay)
include hpar hin

/-- The TCP half of R178. -/
theorem asmTcp_disasm (hfit : 40 + s.len.toNat ≤ s.par.maxUnit) :
    ∃ t, exec .asmTcp s = .next t ∧ ∀ n : Half, t.outLen.toNat ≤ n.toNat → n.toNat ≤ s.par.pktSize →
      ∃ u, exec (.disasm .pkt) (t.atStart n) = .next u ∧
        u.status = 0 ∧ u.valid = 7 ∧ u.ip.tlen.toNat = 20 + 20 + s.len.toNat ∧
        u.ip = t.ip ∧ u.ipCsum = t.ipCsum ∧ u.tcp = t.tcp ∧ u.tcpCsum = t.tcpCsum ∧
        u.slOff = 40 ∧ u.slLen = s.len ∧
        u.memRead .pkt 40 s.len.toNat = s.memRead .pay s.off.toNat s.len.toNat := by
  obtain ⟨-, hunit, -⟩ := hpar
  have hpay : (s.memRead .pay s.off.toNat s.len.toNat).length = s.len.toNat := State.memRead_length ..
  have hasm := exec_asmTcp_accepted hin hfit rfl
  generalize s.memRead .pay s.off.toNat s.len.toNat = pay at hpay hasm ⊢
  have hshort : 20 + (20 + pay.length) < 0x10000 := by omega
  have htlen : (s.sentIp s.par.protoTcp (s.sentSegment pay)).tlen.toNat = 20 + (20 + pay.length) := by
    rw [s.sentIp_tlen _ (by rwa [State.sentSegment_length]), State.sentSegment_length]
  have hlen : (s.sentPacket s.par.protoTcp (s.sentSegment pay)).length = 20 + (20 + pay.length) := by
    rw [State.sentPacket_length, State.sentSegment_length]
  have hslice := s.memRead_sentSegment (s.withSentTcp s.sentTcp (s.sentTcpCsum pay)) s.par.protoTcp pay
  generalize hsent : s.sentPacket s.par.protoTcp (s.sentSegment pay) = bs at hasm hlen hslice
  refine ⟨_, hasm, fun n hn hsize => ?_⟩
  have hregion := State.assembled_region (s.withSentTcp s.sentTcp (s.sentTcpCsum pay))
    (s.sentIp s.par.protoTcp (s.sentSegment pay)) ((hlen.trans htlen.symm).trans_le hn)
  refine ⟨_, exec_disasm_sentTcp hsent ((Nat.zero_add _).trans_le hsize) hregion hshort (State.assembled_par ..), rfl,
    rfl, ?_, rfl, rfl, rfl, rfl, rfl, ?_, ?_⟩
  · rw [← hpay, Nat.add_assoc]
    exact htlen
  · rw [hpay]
    exact (BitVec.ofNat_toNat ..).trans (BitVec.setWidth_eq _)
  · rw [← hpay]
    refine (State.memRead_congr fun _ _ => ?_).trans hslice
    rfl

/-- The IP half of R178. -/
theorem asmIp_disasm (hfit : 20 + s.len.toNat ≤ s.par.maxUnit) (hproto : s.ip.proto ≠ s.par.protoTcp) :
    ∃ t, exec .asmIp s = .next t ∧ ∀ n : Half, t.outLen.toNat ≤ n.toNat → n.toNat ≤ s.par.pktSize →
      ∃ u, exec (.disasm .pkt) (t.atStart n) = .next u ∧
        u.status = 0 ∧ u.valid = 1 ∧ u.ip = t.ip ∧ u.ipCsum = t.ipCsum ∧ u.slOff = 20 ∧ u.slLen = s.len ∧
        u.memRead .pkt 20 s.len.toNat = s.memRead .pay s.off.toNat s.len.toNat := by
  obtain ⟨-, hunit, -⟩ := hpar
  have hpay : (s.memRead .pay s.off.toNat s.len.toNat).length = s.len.toNat := State.memRead_length ..
  have hasm := exec_asmIp_accepted hin hfit rfl
  generalize s.memRead .pay s.off.toNat s.len.toNat = pay at hpay hasm ⊢
  have hshort : 20 + pay.length < 0x10000 := by omega
  have hlen : (s.sentPacket s.ip.proto pay).length = (s.sentIp s.ip.proto pay).tlen.toNat := by
    rw [State.sentPacket_length, s.sentIp_tlen _ hshort]
  have hslice := s.memRead_sentPacket s s.ip.proto pay
  generalize hsent : s.sentPacket s.ip.proto pay = bs at hasm hlen hslice
  refine ⟨_, hasm, fun n hn hsize => ?_⟩
  have hregion := s.assembled_region (s.sentIp s.ip.proto pay) (hlen.trans_le hn)
  refine ⟨_, exec_disasm_sentOther hsent ((Nat.zero_add _).trans_le hsize) hregion hshort hproto, rfl, rfl, rfl, rfl,
    rfl, ?_, ?_⟩
  · rw [hpay]
    exact (BitVec.ofNat_toNat ..).trans (BitVec.setWidth_eq _)
  · rw [← hpay]
    refine (State.memRead_congr fun _ _ => ?_).trans hslice
    rfl

end

/-- Settles O54: `DISASM` finds the header the assembler sent, valid checksums and the payload behind the header. -/
theorem assembledPacketsDisassemble : Obligations.AssembledPacketsDisassemble :=
  fun _ hpar hin => ⟨asmTcp_disasm hpar hin, asmIp_disasm hpar hin⟩

end Sys2Proof.Machine
end

section
/-! ### `NOP` and `RST` (44_system.md R190, R192) -/

namespace Sys2Proof.Machine

/-- `NOP` has no check and no effect; only the end of the command writes (R190). -/
theorem exec_nop (s : State) : exec .nop s = .next { s with status := 0 } := by
  simp only [exec_eq_conclude, effectOf, nopEffect, State.conclude_ok, doneStatus_false]

@[simp] theorem State.clearRegisters_get (s : State) (r : Reg) : s.clearRegisters.get r = 0 := by
  cases r <;> rfl

/-- With every register cleared the host reads 0 from every number, assigned or not. -/
theorem State.clearRegisters_hostRegRead (s : State) (rn : BitVec 8) : s.clearRegisters.hostRegRead rn = 0 := by
  cases h : Reg.ofNum rn with
  | none => exact State.hostRegRead_unassigned _ h
  | some r => simp only [State.hostRegRead, h, State.clearRegisters_get]

/-- Settles O56: `NOP` checks nothing, and the end of the command clears `STATUS`. -/
theorem nopClearsStatusOnly : Obligations.NopClearsStatusOnly :=
  ⟨commandEncoding_of_formOf (opc := 0x00) (f := .noRegion .nop) rfl, exec_nop⟩

/-- Settles O57: the next state is the old one with its registers cleared. -/
theorem rstZeroesRegistersAndKeepsBuffers : Obligations.RstZeroesRegistersAndKeepsBuffers :=
  ⟨commandEncoding_of_formOf (opc := 0x3F) (f := .noRegion .rst) rfl,
    fun s => ⟨s.clearRegisters, exec_rst s, s.clearRegisters_hostRegRead, s.clearRegisters_bufs, s.clearRegisters_par,
      s.clearRegisters_epoch, s.clearRegisters_host⟩⟩

end Sys2Proof.Machine
end

section
/-! ### How a command ends: it never stops, what it is rejected with, what `MISMATCH` says (60_exceptions.md R200 to
R207) -/

namespace Sys2Proof.Machine

/-! #### Every step leads to a next state -/

theorem hostRegWrite_total (rn : BitVec 8) (v : Word) (s : State) : ∃ t, hostRegWrite rn v s = .next t := by
  rcases hostRegWrite_cases rn v s with ⟨-, e⟩ | ⟨r, -, ⟨-, e⟩ | ⟨-, e⟩ | ⟨-, e⟩⟩
  · exact ⟨s, e⟩
  · exact ⟨s, e⟩
  · obtain ⟨t, ht, -⟩ := runCommandWord_outcome (v.setWidth 16) s
    exact ⟨t, e.trans ht⟩
  · exact ⟨s.put r v, e⟩

theorem runHostStep_total (x : HostStep) (s : State) : ∃ t, runHostStep x s = .next t := by
  cases x with
  | regWrite rn v => exact hostRegWrite_total rn v s
  | regRead | bufWrite | bufRead | hardReset => exact ⟨_, rfl⟩

/-- Settles O6: a command ends in one of two ways, an idle step changes nothing, and every host step has an outcome. -/
theorem nothingEverStops : Obligations.NothingEverStops := by
  refine ⟨exec_total, fun s => ?_⟩
  cases hs : s.host with
  | nil => exact ⟨s, step_idle hs⟩
  | cons x rest =>
    rw [step_host hs]
    exact runHostStep_total x _

/-! #### `CODE` tells a rejection from a completion -/

@[simp] theorem statusCause_doneStatus (m : Bool) : statusCause (doneStatus m) = 0 := by cases m <;> decide

@[simp] theorem statusMismatch_doneStatus (m : Bool) : statusMismatch (doneStatus m) = m := by cases m <;> decide

section
variable {i : Instr} {s t : State}

theorem exec_rejected_of_code_ne_zero (h : exec i s = .next t) (hcode : statusCode t.status ≠ 0) :
    ∃ c, effectOf i s = .error c ∧ t = { s with status := rejectedStatus c } := by
  rcases exec_cases i s with ⟨c, hc, e⟩ | ⟨u, m, -, e⟩
  · cases e.symm.trans h
    exact ⟨c, hc, rfl⟩
  · cases e.symm.trans h
    exact absurd (statusCode_doneStatus m) hcode

theorem exec_completed_of_code_zero (h : exec i s = .next t) (hcode : statusCode t.status = 0) :
    ∃ u m, effectOf i s = .ok (u, m) ∧ t = { u with status := doneStatus m } := by
  rcases exec_cases i s with ⟨c, -, e⟩ | ⟨u, m, hu, e⟩
  · cases e.symm.trans h
    exact absurd ((statusCode_rejectedStatus c).symm.trans hcode) c.code_ne_zero
  · cases e.symm.trans h
    exact ⟨u, m, hu, rfl⟩

theorem code_zero_of_mismatch (h : exec i s = .next t) (hm : statusMismatch t.status = true) :
    statusCode t.status = 0 := by
  by_contra hcode
  obtain ⟨c, -, rfl⟩ := exec_rejected_of_code_ne_zero h hcode
  exact Bool.false_ne_true ((statusMismatch_rejectedStatus c).symm.trans hm)

end

theorem causeOfDecodeError_num (e : DecodeError) :
    (causeOfDecodeError e).num = if e = .opcodeReserved then 0x41 else 0x42 := by
  cases e <;> rfl

theorem causeOfDecodeError_code (e : DecodeError) : (causeOfDecodeError e).code = 5 := by cases e <;> rfl

/-- Settles O14: a rejection is one write of `STATUS`, with the numbers of its cause. -/
theorem rejectionWritesStatusOnly : Obligations.RejectionWritesStatusOnly := by
  refine ⟨fun i s t h hcode => ?_, fun w e s hdec => ?_⟩
  · obtain ⟨c, -, rfl⟩ := exec_rejected_of_code_ne_zero h hcode
    exact ⟨rfl, statusMismatch_rejectedStatus c, c, statusCause_rejectedStatus c, statusCode_rejectedStatus c⟩
  · refine ⟨_, runCommandWord_of_error hdec s, rfl, ?_⟩
    rw [← rejectedStatus_causeOfDecodeError]
    exact ⟨statusMismatch_rejectedStatus _, (statusCode_rejectedStatus _).trans (causeOfDecodeError_code e),
      (statusCause_rejectedStatus _).trans (causeOfDecodeError_num e)⟩

/-! #### What each command's effect comes to -/

/-- R205: what `VALID` shows of the checksums that a completed command validated; the other commands validate none. -/
def mismatchShown (i : Instr) (valid : BitVec 3) : Bool :=
  match i with
  | .ipVfy _ => !valid.getLsbD 0
  | .tcpVfy _ => !valid.getLsbD 1
  | .disasm _ => !valid.getLsbD 0 || (valid.getLsbD 2 && !valid.getLsbD 1)
  | _ => false

/-- The effect is a rejection of the command's row of R204, or completes with the `MISMATCH` that `VALID` shows. -/
def EndsAsListed (i : Instr) : Effect → Prop
  | .error c => rejectedStatus c ∈ rejections i
  | .ok p => p.2 = mismatchShown i p.1.valid

section
variable {i : Instr} {s : State} {b : Buf} {c : Cause}

/-- A row of R204 is a closed list, so that a cause's place in it computes. -/
theorem EndsAsListed.of_contains (h : (rejections i).contains (rejectedStatus c) = true) :
    EndsAsListed i (.error c) := List.contains_iff_mem.1 h

theorem EndsAsListed.onCheck {p : Prop} [Decidable p] {e : Effect}
    (h : (rejections i).contains (rejectedStatus c) = true) (he : EndsAsListed i e) :
    EndsAsListed i (if p then .error c else e) := by
  split
  next => exact .of_contains h
  next => exact he

/-- The bounds of a region can fail in one way (20_memory.md R44). -/
theorem EndsAsListed.of_region (h : (rejections i).contains (rejectedStatus .regionRange) = true)
    (hr : s.region b = .error c) : EndsAsListed i (.error c) := by
  rcases s.region_cases b with ⟨-, e⟩ | ⟨-, e⟩ <;> cases e.symm.trans hr
  exact .of_contains h

/-- The bounds of a header's destination can fail in one way (20_memory.md R44). -/
theorem EndsAsListed.of_headerDest (h : (rejections i).contains (rejectedStatus .regionRange) = true)
    (hr : s.headerDest b = .error c) : EndsAsListed i (.error c) := by
  rcases s.headerDest_cases b with ⟨-, e⟩ | ⟨-, e⟩ <;> cases e.symm.trans hr
  exact .of_contains h

end

/-- The checks of `ip_parse` lead to the causes that the row of `IP.DEC` lists after the bounds
(41_ip_codec.md R121). -/
theorem ipVerdict_listed {bs : List Byte} (h : ipVerdict bs ≠ 0) (b : Buf) :
    ipVerdict bs ∈ (rejections (.ipDec b)).tail := by
  unfold ipVerdict at h ⊢
  split_ifs at h ⊢ <;> simp [rejections] at h ⊢

/-- The checks of `tcp_parse` lead to the causes that the row of `TCP.DEC` lists after the bounds
(42_tcp_codec.md R141). -/
theorem tcpVerdict_listed {bs : List Byte} (h : tcpVerdict bs ≠ 0) (b : Buf) :
    tcpVerdict bs ∈ (rejections (.tcpDec b)).tail := by
  unfold tcpVerdict at h ⊢
  split_ifs at h ⊢ <;> simp [rejections] at h ⊢

theorem EndsAsListed.of_ipParse {i : Instr} {bs : List Byte} {c : Cause} {b : Buf}
    (h : (rejections (.ipDec b)).tail ⊆ rejections i) (hp : ipParse bs = .error c) : EndsAsListed i (.error c) := by
  rcases ipParse_cases bs with ⟨-, e⟩ | ⟨hv, c', e, hc⟩ <;> cases e.symm.trans hp
  have hlisted := ipVerdict_listed hv b
  rw [← hc] at hlisted
  exact h hlisted

theorem EndsAsListed.of_tcpParse {i : Instr} {bs : List Byte} {c : Cause} {b : Buf}
    (h : (rejections (.tcpDec b)).tail ⊆ rejections i) (hp : tcpParse bs = .error c) : EndsAsListed i (.error c) := by
  rcases tcpParse_cases bs with ⟨-, e⟩ | ⟨hv, c', e, hc⟩ <;> cases e.symm.trans hp
  have hlisted := tcpVerdict_listed hv b
  rw [← hc] at hlisted
  exact h hlisted

theorem ipDec_tail_subset_disasm (b : Buf) : (rejections (.ipDec b)).tail ⊆ rejections (.disasm b) := by
  simp [rejections]

theorem tcpDec_tail_subset_disasm (b : Buf) : (rejections (.tcpDec b)).tail ⊆ rejections (.disasm b) := by
  simp [rejections]

/-- The bits that `DISASM` writes to `VALID` show whether a checksum it validated failed (10_state.md R18). -/
theorem mismatchShown_validWord (b : Buf) (present tcpOk ipOk : Bool) :
    mismatchShown (.disasm b) (validWord present tcpOk ipOk) = (!ipOk || (present && !tcpOk)) := by
  cases present <;> cases tcpOk <;> cases ipOk <;> rfl

theorem disasm_endsAsListed (b : Buf) (s : State) : EndsAsListed (.disasm b) (disasmEffect b s) := by
  unfold disasmEffect
  cases hr : s.region b with
  | error c => exact .of_region rfl hr
  | ok bs =>
    dsimp only
    cases hip : ipParse bs with
    | error c => exact .of_ipParse (ipDec_tail_subset_disasm b) hip
    | ok p =>
      refine .onCheck rfl (.onCheck rfl ?_)
      split
      · cases htcp : tcpParse (slice bs (ipHeaderLen p.1) p.1.tlen.toNat) with
        | error c => exact .of_tcpParse (tcpDec_tail_subset_disasm b) htcp
        | ok q => exact (mismatchShown_validWord b true _ _).symm
      · exact ((mismatchShown_validWord b false false _).trans (Bool.or_false _)).symm

/-- R204 and R205 for every command, before `STATUS` is written. -/
theorem effectOf_endsAsListed (i : Instr) (s : State) : EndsAsListed i (effectOf i s) := by
  cases i with
  | csumAcc b | csumFin b =>
    simp only [effectOf, csumAccEffect, csumFinEffect]
    cases hr : s.region b with
    | error c => exact .of_region rfl hr
    | ok bs => exact rfl
  | ipEnc b | tcpEnc b =>
    simp only [effectOf, ipEncEffect, tcpEncEffect]
    cases hr : s.headerDest b with
    | error c => exact .of_headerDest rfl hr
    | ok off => exact rfl
  | ipDec b =>
    simp only [effectOf, ipDecEffect]
    cases hr : s.region b with
    | error c => exact .of_region rfl hr
    | ok bs =>
      dsimp only
      cases hp : ipParse bs with
      | error c => exact .of_ipParse (List.tail_subset _) hp
      | ok p => exact rfl
  | tcpDec b =>
    simp only [effectOf, tcpDecEffect]
    cases hr : s.region b with
    | error c => exact .of_region rfl hr
    | ok bs =>
      dsimp only
      cases hp : tcpParse bs with
      | error c => exact .of_tcpParse (List.tail_subset _) hp
      | ok p => exact rfl
  | tcpCsum b =>
    simp only [effectOf, tcpCsumEffect]
    cases hr : s.region b with
    | error c => exact .of_region rfl hr
    | ok bs => exact .onCheck rfl rfl
  | asmIp | asmTcp =>
    simp only [effectOf, asmIpEffect, asmTcpEffect]
    cases hr : s.region .pay with
    | error c => exact .of_region rfl hr
    | ok bs => exact .onCheck rfl rfl
  | ipVfy b =>
    simp only [effectOf, ipVfyEffect]
    cases hr : s.region b with
    | error c => exact .of_region rfl hr
    | ok bs => exact .onCheck rfl (congrArg Bool.not (setIpOk_getLsbD ..).symm)
  | tcpVfy b =>
    simp only [effectOf, tcpVfyEffect]
    cases hr : s.region b with
    | error c => exact .of_region rfl hr
    | ok bs => exact .onCheck rfl (congrArg Bool.not (setTcpOk_getLsbD ..).symm)
  | disasm b => exact disasm_endsAsListed b s
  | ipCsum | tcpPsh | tcpFstr | nop | rst => exact rfl

/-! #### What `STATUS` and `VALID` say after a command -/

section
variable {i : Instr} {s t : State}

theorem exec_rejection_listed (h : exec i s = .next t) (hcode : statusCode t.status ≠ 0) :
    t.status ∈ rejections i := by
  obtain ⟨c, hc, rfl⟩ := exec_rejected_of_code_ne_zero h hcode
  have hi := effectOf_endsAsListed i s
  rw [hc] at hi
  exact hi

theorem exec_completed_status (h : exec i s = .next t) (hcode : statusCode t.status = 0) :
    t.status = doneStatus (mismatchShown i t.valid) := by
  obtain ⟨u, m, hu, rfl⟩ := exec_completed_of_code_zero h hcode
  have hi := effectOf_endsAsListed i s
  rw [hu] at hi
  exact congrArg doneStatus hi

end

/-- Settles O15: an effect is rejected as its row lists, and a completed command records `MISMATCH` only. -/
theorem rejectionsAreThoseListed : Obligations.RejectionsAreThoseListed := by
  refine fun i s t h => ⟨exec_rejection_listed h, fun hcode => ?_⟩
  rw [exec_completed_status h hcode]
  cases mismatchShown i t.valid
  · exact .inl doneStatus_false
  · exact .inr doneStatus_true

/-- A mismatch is shown by a command that validates. -/
theorem validates_of_mismatchShown {i : Instr} {valid : BitVec 3} (h : mismatchShown i valid = true) :
    ∃ b, i = .ipVfy b ∨ i = .tcpVfy b ∨ i = .disasm b := by
  cases i with
  | ipVfy b => exact ⟨b, .inl rfl⟩
  | tcpVfy b => exact ⟨b, .inr (.inl rfl)⟩
  | disasm b => exact ⟨b, .inr (.inr rfl)⟩
  | _ => exact absurd h Bool.false_ne_true

/-- Settles O16: a completed command's `MISMATCH` is what its `VALID` shows, which is nothing unless it validates. -/
theorem mismatchOnlyFromValidation : Obligations.MismatchOnlyFromValidation := by
  intro i s t h
  have hshown (hcode : statusCode t.status = 0) : statusMismatch t.status = mismatchShown i t.valid := by
    rw [exec_completed_status h hcode, statusMismatch_doneStatus]
  refine ⟨fun hm => ?_, fun hcode b => ?_⟩
  · have hcode := code_zero_of_mismatch h hm
    refine ⟨hcode, ?_, validates_of_mismatchShown ((hshown hcode).symm.trans hm)⟩
    rw [exec_completed_status h hcode, statusCause_doneStatus]
  · refine ⟨?_, ?_, ?_⟩ <;> rintro rfl <;> exact hshown hcode

end Sys2Proof.Machine
end

section
/-! ### Idling and reading (20_memory.md R46, R49; 70_reset_and_hazards.md R230) -/

namespace Sys2Proof.Machine

section
variable {s : State} {rest : List HostStep}

/-- A register read takes its host step, whatever the number. -/
theorem step_regRead {rn : BitVec 8} (hs : s.host = .regRead rn :: rest) : step s = .next { s with host := rest } :=
  step_host hs

/-- A buffer read takes its host step, inside the buffer and outside it (log entry 7). -/
theorem step_bufRead {b : Buf} {off : Half} {n : Nat} (hs : s.host = .bufRead b off n :: rest) :
    step s = .next { s with host := rest } :=
  step_host hs

end

/-- Settles O5: the idle step returns the state, and of a read nothing is left but that its host step is taken. -/
theorem idleBlockAndReadsChangeNothing : Obligations.IdleBlockAndReadsChangeNothing :=
  ⟨fun _ => step_idle, fun _ _ _ => step_regRead, fun _ _ _ _ _ => step_bufRead⟩

end Sys2Proof.Machine
end

section
/-! ### Reset (10_state.md R30, 70_reset_and_hazards.md R230, R231) -/

namespace Sys2Proof.Machine

@[simp] theorem State.hardReset_get (s : State) (r : Reg) : s.hardReset.get r = 0 := by
  cases r <;> rfl

@[simp] theorem State.resetWith_get (p : Params) (r : Reg) : (State.resetWith p).get r = 0 := by
  cases r <;> rfl

/-- Where nothing has been written since hardware reset, every byte is the free value. -/
theorem State.byte_of_unwritten {s : State} (h : s.bufs = .unwritten) (b : Buf) (a : Nat) :
    s.byte b a = Config.unspecified s.epoch b a := by
  rw [State.byte, h, Buffers.get_unwritten]
  rfl

/-- Settles O1: hardware reset clears the registers and forgets what was written, `RST` clears the registers only. -/
theorem resetLeavesEveryRegisterZero : Obligations.ResetLeavesEveryRegisterZero := by
  refine ⟨fun s rest hs => ?_, fun s => ?_, State.resetWith_get, fun p => State.byte_of_unwritten rfl⟩
  · exact ⟨_, step_host hs, State.hardReset_get _, Nat.succ_ne_self s.epoch, State.byte_of_unwritten rfl, rfl, rfl⟩
  · exact ⟨_, exec_rst s, s.clearRegisters_get, fun _ _ => rfl⟩

end Sys2Proof.Machine
end

section
/-! ### The invariant: the bounds of the buffers, `STATUS`, the result registers (10_state.md R19, R21 to R23,
20_memory.md R44)

Every update of a state that a step is made of keeps the invariant; a command's effect is a chain of such updates. -/

namespace Sys2Proof.Machine

/-! #### Reset -/

theorem State.bufferOk_of_unwritten {s : State} (h : s.bufs = .unwritten) (b : Buf) : s.bufferOk b := by
  rw [State.bufferOk, h, Buffers.get_unwritten]
  exact ⟨Memory.wf_nil, List.forall_mem_nil _⟩

/-- With every register cleared, only the parameters and the buffers matter. -/
theorem State.clearRegisters_inv {s : State} (hpar : s.par.Ok) (hbuffers : ∀ b, s.bufferOk b) :
    s.clearRegisters.Inv where
  par := hpar
  buffers := hbuffers
  status := doneStatus_legal false
  nextOff := .inl rfl
  slice := Nat.zero_le _
  outLen := Nat.zero_le _
  strLen := Nat.zero_le _

/-- Settles O2: every register is 0 and no byte is written. -/
theorem resetMeetsTheInvariant : Obligations.ResetMeetsTheInvariant :=
  fun p hp => State.clearRegisters_inv (s := State.resetWith p) hp (State.bufferOk_of_unwritten rfl)

/-! #### One update of the state -/

section
variable {s : State}

theorem State.Inv.setStatus (hs : s.Inv) {st : BitVec 13} (h : st ∈ legalStatuses) : (s.setStatus st).Inv :=
  { hs with status := h }

theorem State.Inv.hardReset (hs : s.Inv) : s.hardReset.Inv :=
  State.clearRegisters_inv (s := { s with bufs := .unwritten, epoch := s.epoch + 1 }) hs.par
    (State.bufferOk_of_unwritten rfl)

/-- A store inside its buffer (20_memory.md R44, R48). -/
theorem State.Inv.memWrite (hs : s.Inv) {b : Buf} {off : Nat} {bs : List Byte} (h : off + bs.length ≤ s.size b) :
    (s.memWrite b off bs).Inv :=
  { hs with buffers := State.memWrite_keeps_buffers hs.buffers h }

/-- The registers the host may write are free (10_state.md R11). -/
theorem State.Inv.put (hs : s.Inv) {r : Reg} (hr : r.access = .rw) (v : Word) : (s.put r v).Inv := by
  cases r
  case cmd | status | result | valid | nextOff | slOff | slLen | outLen | strLen => cases hr
  all_goals exact { hs with }

theorem State.Inv.hostBufWrite (hs : s.Inv) (b : Buf) (off : Half) (bs : List Byte) :
    (s.hostBufWrite b off bs).Inv := by
  rcases s.hostBufWrite_cases b off bs with ⟨hin, e⟩ | ⟨-, e⟩ <;> rw [e]
  · exact hs.memWrite hin
  · exact hs

end

/-! #### The ranges of the result registers -/

theorem toNat_ofNat_le (w n : Nat) : (BitVec.ofNat w n).toNat ≤ n := by
  rw [BitVec.toNat_ofNat]
  exact Nat.mod_le _ _

/-- Four times an accepted header length field is a value of `NEXT_OFF` (10_state.md R21). -/
theorem headerLen_range {n : BitVec 4} (h : 5 ≤ n.toNat) :
    20 ≤ (BitVec.ofNat 16 (4 * n.toNat)).toNat ∧ (BitVec.ofNat 16 (4 * n.toNat)).toNat ≤ 60 ∧
      (BitVec.ofNat 16 (4 * n.toNat)).toNat % 4 = 0 := by
  have hn := n.isLt
  rw [BitVec.toNat_ofNat, Nat.mod_eq_of_lt (by omega)]
  omega

/-- What lies above the first `k` of the `n` bytes at `off` ends where they end (10_state.md R22). -/
theorem slice_range {off k n : Nat} (hk : k ≤ n) (hend : off + n ≤ 65535) :
    (BitVec.ofNat 16 (off + k)).toNat + (BitVec.ofNat 16 (n - k)).toNat ≤ 65535 := by
  have hoff := toNat_ofNat_le 16 (off + k)
  have hlen := toNat_ofNat_le 16 (n - k)
  omega

/-- A buffer is at most 65535 bytes long (00_scope.md R5). -/
theorem State.size_le {s : State} (hpar : s.par.Ok) (b : Buf) : s.size b ≤ 65535 := by
  obtain ⟨-, -, -, hpkt, -, hpay⟩ := hpar
  cases b with
  | pkt => exact hpkt
  | pay => exact hpay
  | phdr => exact (by decide : Config.phdrSize ≤ 65535)
  | str => exact (by decide : Config.strSize ≤ 65535)

theorem ipParse_ihl {bs : List Byte} {h : IpHeader} {c : Half} (e : ipParse bs = .ok (h, c)) : 5 ≤ h.ihl.toNat := by
  rcases ipParse_cases bs with ⟨hv, e'⟩ | ⟨-, c', e', -⟩ <;> cases e'.symm.trans e
  obtain ⟨-, -, hmin, -⟩ := ipVerdict_zero hv
  exact hmin

theorem tcpParse_doff {bs : List Byte} {t : TcpHeader} {c : Half} (e : tcpParse bs = .ok (t, c)) :
    5 ≤ t.doff.toNat ∧ tcpHeaderLen t ≤ bs.length := by
  rcases tcpParse_cases bs with ⟨hv, e'⟩ | ⟨-, c', e', -⟩ <;> cases e'.symm.trans e
  exact (tcpVerdict_zero hv).2

/-! #### The commands, before `STATUS` is written -/

/-- What completes past a check, completes because the check passed. -/
theorem CompletesIn.pastCheck {P : State → Prop} {p : Prop} [Decidable p] {c : Cause} {e : Effect}
    (h : ¬p → CompletesIn P e) : CompletesIn P (if p then .error c else e) := by
  split
  next => trivial
  next hp => exact h hp

section
variable {s : State}

/-- A packet of at most `MAX_UNIT` bytes, its length in `OUT_LEN` (43_packet.md R172). -/
theorem State.Inv.emitIp (hs : s.Inv) (proto : Byte) {pay : List Byte} (hfit : 20 + pay.length ≤ s.par.maxUnit) :
    (s.emitIp proto pay).Inv := by
  have hstore : (s.memWrite .pkt 0 (s.sentPacket proto pay)).Inv := by
    refine hs.memWrite ?_
    rw [State.sentPacket_length, Nat.zero_add]
    exact State.fits_pkt hs.par hfit
  rw [State.emitIp_eq_withSentIp]
  exact { hstore with outLen := (toNat_ofNat_le _ _).trans hfit }

theorem State.Inv.withSentTcp (hs : s.Inv) (t : TcpHeader) (c : Half) : (s.withSentTcp t c).Inv := { hs with }

theorem asmIp_keeps_inv (hs : s.Inv) : CompletesIn State.Inv (asmIpEffect s) := by
  unfold asmIpEffect
  rcases s.region_cases .pay with ⟨-, e⟩ | ⟨-, e⟩ <;> rw [e]
  · refine .pastCheck fun hfit => hs.emitIp _ ?_
    rw [State.memRead_length]
    exact Nat.not_lt.1 hfit
  · trivial

theorem asmTcp_keeps_inv (hs : s.Inv) : CompletesIn State.Inv (asmTcpEffect s) := by
  rw [asmTcpEffect_eq]
  rcases s.region_cases .pay with ⟨-, e⟩ | ⟨-, e⟩ <;> rw [e]
  · refine .pastCheck fun hfit => (hs.emitIp _ ?_).withSentTcp _ _
    rw [State.sentSegment_length, State.memRead_length, ← Nat.add_assoc]
    exact Nat.not_lt.1 hfit
  · trivial

section
variable {h : IpHeader} (hs : s.Inv) (hmin : ipHeaderLen h ≤ h.tlen.toNat)
  (hend : s.off.toNat + h.tlen.toNat ≤ 65535)
include hs hmin hend

theorem disasmOther_inv (c : Half) (ipOk : Bool) : (disasmOther s h c ipOk).1.Inv :=
  { hs with slice := slice_range hmin hend }

theorem disasmTcp_inv {t : TcpHeader} (ht : tcpHeaderLen t ≤ h.tlen.toNat - ipHeaderLen h) (c tc : Half)
    (ipOk tcpOk : Bool) : (disasmTcp s h c t tc ipOk tcpOk).1.Inv := by
  have hslice := slice_range (Nat.add_le_of_le_sub' hmin ht) hend
  rw [← Nat.add_assoc, ← Nat.sub_sub] at hslice
  exact { hs with slice := hslice }

end

/-- The slice ends where the total length ends, which is inside the region (43_packet.md R176). -/
theorem disasm_keeps_inv (hs : s.Inv) (b : Buf) : CompletesIn State.Inv (disasmEffect b s) := by
  unfold disasmEffect
  rcases s.region_cases b with ⟨hin, e⟩ | ⟨-, e⟩ <;> rw [e]
  · dsimp only
    cases ipParse (s.memRead b s.off.toNat s.len.toNat) with
    | error c => trivial
    | ok p =>
      refine .pastCheck fun hmin => .pastCheck fun hbuf => ?_
      have hhdr : ipHeaderLen p.1 ≤ p.1.tlen.toNat := Nat.not_lt.1 hmin
      have htlen : p.1.tlen.toNat ≤ (s.memRead b s.off.toNat s.len.toNat).length := Nat.not_lt.1 hbuf
      have hend : s.off.toNat + p.1.tlen.toNat ≤ 65535 := by
        rw [State.memRead_length] at htlen
        exact ((Nat.add_le_add_left htlen _).trans hin).trans (State.size_le hs.par b)
      split
      · cases htcp : tcpParse (slice (s.memRead b s.off.toNat s.len.toNat) (ipHeaderLen p.1) p.1.tlen.toNat) with
        | error c => trivial
        | ok q =>
          have hq := (tcpParse_doff htcp).2
          rw [slice_length htlen] at hq
          exact disasmTcp_inv hs hhdr hend hq _ _ _ _
      · exact disasmOther_inv hs hhdr hend _ _
  · trivial

/-- Every command that completes keeps the invariant. -/
theorem effectOf_keeps_inv (hs : s.Inv) (i : Instr) : CompletesIn State.Inv (effectOf i s) := by
  cases i with
  | csumAcc b | csumFin b =>
    simp only [effectOf, csumAccEffect, csumFinEffect]
    cases s.region b with
    | error c => trivial
    | ok bs => exact { hs with }
  | ipVfy b | tcpVfy b | tcpCsum b =>
    simp only [effectOf, ipVfyEffect, tcpVfyEffect, tcpCsumEffect]
    cases s.region b with
    | error c => trivial
    | ok bs => exact .onCheck { hs with }
  | ipEnc b | tcpEnc b =>
    simp only [effectOf, ipEncEffect, tcpEncEffect]
    rcases s.headerDest_cases b with ⟨hin, e⟩ | ⟨-, e⟩ <;> rw [e]
    · exact hs.memWrite hin
    · trivial
  | ipDec b =>
    simp only [effectOf, ipDecEffect]
    cases s.region b with
    | error c => trivial
    | ok bs =>
      dsimp only
      cases hp : ipParse bs with
      | error c => trivial
      | ok p => exact { hs with nextOff := .inr (headerLen_range (ipParse_ihl hp)) }
  | tcpDec b =>
    simp only [effectOf, tcpDecEffect]
    cases s.region b with
    | error c => trivial
    | ok bs =>
      dsimp only
      cases hp : tcpParse bs with
      | error c => trivial
      | ok p => exact { hs with nextOff := .inr (headerLen_range (tcpParse_doff hp).1) }
  | tcpPsh => exact hs.memWrite (b := .phdr) (Nat.le_refl 12)
  | tcpFstr =>
    have hfit := (Nat.zero_add _).trans (flagsStr_padded_length s.tcp.flags)
    exact { hs.memWrite (b := .str) hfit.le with strLen := (toNat_ofNat_le _ _).trans (flagsStr_length_le s.tcp.flags) }
  | asmIp => exact asmIp_keeps_inv hs
  | asmTcp => exact asmTcp_keeps_inv hs
  | disasm b => exact disasm_keeps_inv hs b
  | ipCsum => exact { hs with }
  | nop => exact hs
  | rst => exact State.clearRegisters_inv hs.par hs.buffers

end

/-! #### From a command to a step -/

section
variable {s t : State}

theorem exec_keeps_inv (hs : s.Inv) {i : Instr} (h : exec i s = .next t) : t.Inv := by
  rcases exec_completesIn (effectOf_keeps_inv hs i) with ⟨c, e⟩ | ⟨u, m, hu, e⟩ <;> cases e.symm.trans h
  · exact hs.setStatus (rejectedStatus_legal c)
  · exact hu.setStatus (doneStatus_legal m)

theorem runCommandWord_keeps_inv (hs : s.Inv) {w : Half} (h : runCommandWord w s = .next t) : t.Inv := by
  rcases runCommandWord_cases w s with ⟨i, -, e⟩ | ⟨err, -, e⟩
  · exact exec_keeps_inv (s := { s with cmd := w }) { hs with } (e.symm.trans h)
  · cases e.symm.trans h
    exact { hs with status := rejectedStatus_legal _ }

theorem hostRegWrite_keeps_inv (hs : s.Inv) {rn : BitVec 8} {v : Word} (h : hostRegWrite rn v s = .next t) :
    t.Inv := by
  rcases hostRegWrite_cases rn v s with ⟨-, e⟩ | ⟨r, -, ⟨-, e⟩ | ⟨-, e⟩ | ⟨hr, e⟩⟩
  · cases e.symm.trans h
    exact hs
  · cases e.symm.trans h
    exact hs
  · exact runCommandWord_keeps_inv hs (e.symm.trans h)
  · cases e.symm.trans h
    exact hs.put hr v

theorem runHostStep_keeps_inv (hs : s.Inv) {x : HostStep} (h : runHostStep x s = .next t) : t.Inv := by
  cases x with
  | regWrite rn v => exact hostRegWrite_keeps_inv hs h
  | regRead rn | bufRead b off n =>
    cases h
    exact hs
  | bufWrite b off bs =>
    cases h
    exact hs.hostBufWrite b off bs
  | hardReset =>
    cases h
    exact hs.hardReset

end

/-- Settles O3: an idle step changes nothing, and every host step, with the command it starts, keeps the invariant. -/
theorem stepKeepsTheInvariant : Obligations.StepKeepsTheInvariant := by
  intro s t hs h
  cases hhost : s.host with
  | nil =>
    cases (step_idle hhost).symm.trans h
    exact hs
  | cons x rest =>
    rw [step_host hhost] at h
    exact runHostStep_keeps_inv (s := { s with host := rest }) { hs with } h

end Sys2Proof.Machine
end
